-- ==== Sys2Proof/Word.lean ====
section
/-! DEFINITION. The widths the spec names (00_scope.md R7): bytes and pixels, 16-bit samples and divisors, 32-bit registers. -/

namespace Sys2Proof

/-- A byte of memory; a palette index (00_scope.md R7). -/
abbrev Byte := BitVec 8

/-- A 16-bit value: a sample, a volume, a divisor, a coordinate (00_scope.md R7). -/
abbrev Half := BitVec 16

/-- A 32-bit value: a register, a command word, an offset in the block space (10_state.md R21, 20_memory.md R70). -/
abbrev Word := BitVec 32

end Sys2Proof
end

