-- ==== Sys2Proof/Syntax.lean ====
section
/-! DEFINITION. The command set (30_encoding.md R103), one constructor per row of spec/opcode_table.json. -/

namespace Sys2Proof

/-- A command. The operands are the numbers in the 4-bit fields of the word (30_encoding.md R102); a legal encoding may carry an
operand with no meaning, which raises BAD_OPERAND when the command executes (R106), so they stay numbers here. -/
inductive Instr where
  /-- 46_control.md R275. -/
  | nop
  /-- 41_tone_generator.md R160. -/
  | keyon (gen voice env : Nat)
  /-- 41_tone_generator.md R165. -/
  | mute (gen : Nat)
  /-- 42_audio_render.md R205. -/
  | triggerFx
  /-- 42_audio_render.md R190. -/
  | renderAudio
  /-- 43_background.md R220. -/
  | compositeBg
  /-- 44_sprites.md R235. -/
  | drawSprites
  /-- 45_overlay.md R255. -/
  | drawOverlay
  deriving DecidableEq, Repr

end Sys2Proof
end

