-- ==== Sys2Proof/WellFormed.lean ====
section
/-! DEFINITION. Which commands have an encoding: every operand fits its 4-bit field (30_encoding.md R101, R102). -/

namespace Sys2Proof

/-- Every operand field is an unsigned 4-bit number (30_encoding.md R102). -/
def Instr.wf : Instr → Bool
  | .keyon gen voice env => gen < 16 && voice < 16 && env < 16
  | .mute gen => gen < 16
  | .nop => true
  | .triggerFx => true
  | .renderAudio => true
  | .compositeBg => true
  | .drawSprites => true
  | .drawOverlay => true

end Sys2Proof
end

