-- ==== Sys2Proof/Decode.lean ====
section
/-! DEFINITION. From a command word to a command (30_encoding.md R104) and back (R101 to R103). A command is taken whole at the
host's write to CMD and latched as one 32-bit word; no memory holds it and nothing is fetched (20_memory.md R94), so the decoder
reads a word. -/

namespace Sys2Proof

/-- Why a word is no command (30_encoding.md R105). -/
inductive DecodeError where
  /-- The opcode is 0x04 to 0x0F, 0x11 to 0x1F or 0x23 to 0xFF. -/
  | unassignedOpcode
  /-- An assigned opcode with a nonzero reserved bit. -/
  | reservedBits
  deriving DecidableEq, Repr

/-- `v[hi:lo]` as an unsigned number (00_scope.md R8). -/
def bits (w : Word) (hi lo : Nat) : Nat := w.toNat / 2 ^ lo % 2 ^ (hi + 1 - lo)

/-- A command whose reserved bits must be zero (30_encoding.md R101, R104). -/
def whenReservedZero (reserved : Nat) (i : Instr) : Except DecodeError Instr :=
  if reserved = 0 then .ok i else .error .reservedBits

/-- The decoder (30_encoding.md R104). -/
def decode (w : Word) : Except DecodeError Instr :=
  match bits w 31 24 with
  | 0x00 => whenReservedZero (bits w 23 0) .nop
  | 0x01 => whenReservedZero (bits w 23 12) (.keyon (bits w 3 0) (bits w 7 4) (bits w 11 8))
  | 0x02 => whenReservedZero (bits w 23 4) (.mute (bits w 3 0))
  | 0x03 => whenReservedZero (bits w 23 0) .triggerFx
  | 0x10 => whenReservedZero (bits w 23 0) .renderAudio
  | 0x20 => whenReservedZero (bits w 23 0) .compositeBg
  | 0x21 => whenReservedZero (bits w 23 0) .drawSprites
  | 0x22 => whenReservedZero (bits w 23 0) .drawOverlay
  | _ => .error .unassignedOpcode

/-- The command word of a well-formed command (30_encoding.md R101, R103). -/
def encode : Instr → Word
  | .nop => 0x00000000
  | .keyon gen voice env => BitVec.ofNat 32 (0x01 * 2 ^ 24 + env * 2 ^ 8 + voice * 2 ^ 4 + gen)
  | .mute gen => BitVec.ofNat 32 (0x02 * 2 ^ 24 + gen)
  | .triggerFx => 0x03000000
  | .renderAudio => 0x10000000
  | .compositeBg => 0x20000000
  | .drawSprites => 0x21000000
  | .drawOverlay => 0x22000000

/-- The command of a table row's bits. Every command is one 32-bit word (30_encoding.md R100); bits above `nbits` are 0, and a
number that does not fit 32 bits is no word. -/
def decodeTableWord (nbits w : Nat) : Option Instr :=
  if nbits ≤ 32 ∧ w < 2 ^ nbits then (decode (BitVec.ofNat 32 w)).toOption else none

end Sys2Proof
end

