-- ==== Sys2Proof/Config.lean ====
section
/-! DEFINITION. What an implementation fixes: the parameters of 00_scope.md R6, and the free values of what the spec leaves
open. The parameters are plain data and stand in `State.params`, so a statement about every state is one about every choice of
them (notes/assumptions/1.md). The constraints on them are `Params.Legal` (Machine/Parameters.lean). -/

namespace Sys2Proof

/-- The parameters of 00_scope.md R6 that are not fixed there. WAVE_LEN is 2^WAVE_IDX_BITS, so only the exponent is held. -/
structure Params where
  /-- WAVE_IDX_BITS = log2(WAVE_LEN). -/
  waveIdxBits : Nat
  /-- WAVE_AMP, the amplitude A. -/
  waveAmp : Nat
  /-- NGEN, tone generators. -/
  ngen : Nat
  /-- NSPR, sprite slots. -/
  nspr : Nat
  /-- NBANDS, parallax bands. -/
  nbands : Nat
  /-- FRAME_SAMPLES, stereo pairs in an audio frame (OPEN, D53). -/
  frameSamples : Nat
  /-- FX_CAP, capacity of the effect memory in samples (OPEN, D54). -/
  fxCap : Nat
  /-- FB_W (OPEN, D55). -/
  fbW : Nat
  /-- FB_H (OPEN, D55). -/
  fbH : Nat
  /-- BG_W (OPEN, D56). -/
  bgW : Nat
  /-- BG_H (OPEN, D56). -/
  bgH : Nat
  /-- TILE_CAP, bytes of tile memory (OPEN, D57). -/
  tileCap : Nat
  /-- FONT (OPEN content, D58): the bytes that are known, by their offset 16*c + r; the others are `Config.fontDraw`. -/
  font : List (Nat × Byte)
  deriving DecidableEq, Repr

/-- The parameters of `State.reset`: the defaults of 00_scope.md R6; DESIGN CHOICE (notes/assumptions/1.md) where R6 says OPEN. -/
def Params.atReset : Params where
  waveIdxBits := 12
  waveAmp := 2047
  ngen := 4
  nspr := 2
  nbands := 4
  frameSamples := 4
  fxCap := 8
  fbW := 16
  fbH := 16
  bgW := 24
  bgH := 16
  tileCap := 64
  font := []

/-- Free value: the RAM byte at an offset after the n-th reset, until something writes it (20_memory.md R84, 93 I6;
notes/assumptions/2.md). -/
opaque Config.ramDraw : Nat → Nat → Byte

/-- Free value: the FONT byte at an offset 16*c + r that `Params.font` does not list (92_eei_decisions.md D58;
notes/assumptions/3.md). -/
opaque Config.fontDraw : Nat → Byte

end Sys2Proof
end

