-- ==== Sys2Proof/Machine/Parameters.lean ====
section
/-! DEFINITION. The derived and the fixed parameters of 00_scope.md R6, and the constraints on the others. -/

namespace Sys2Proof

/-- WAVE_LEN. -/
def Params.waveLen (p : Params) : Nat := 2 ^ p.waveIdxBits

/-- Height of a parallax band, FB_H / NBANDS (43_background.md R220). -/
def Params.bandHeight (p : Params) : Nat := p.fbH / p.nbands

/-- The constraints of 00_scope.md R6. -/
abbrev Params.Legal (p : Params) : Prop :=
  (2 ≤ p.waveIdxBits ∧ p.waveIdxBits ≤ 13) ∧
  (1 ≤ p.waveAmp ∧ p.waveAmp ≤ 16383) ∧
  (1 ≤ p.ngen ∧ p.ngen ≤ 16) ∧
  (1 ≤ p.nspr ∧ p.nspr ≤ 16) ∧
  (1 ≤ p.nbands ∧ p.nbands ≤ 255) ∧
  (1 ≤ p.frameSamples ∧ p.frameSamples ≤ 262144) ∧
  p.fxCap ≤ 524288 ∧
  (1 ≤ p.fbW ∧ p.fbW ≤ 65535) ∧
  p.fbH % p.nbands = 0 ∧
  p.fbW * p.fbH ≤ 16777216 ∧
  (p.fbW < p.bgW ∧ p.bgW ≤ 65535) ∧
  p.fbH ≤ p.bgH ∧
  p.bgW * p.bgH ≤ 16777216 ∧
  p.tileCap ≤ 16777216

namespace Machine

/-- ID_VALUE (00_scope.md R6). -/
def idValue : Word := 0x57544F31

/-- SUBRATE (00_scope.md R6). -/
def subrate : Nat := 256

/-- VOL_CEIL (00_scope.md R6). -/
def volCeil : Nat := 0xFFFF

/-- GLYPH_W (00_scope.md R6). -/
def glyphW : Nat := 8

/-- GLYPH_H (00_scope.md R6). -/
def glyphH : Nat := 16

/-- TEXT_MAX (00_scope.md R6). -/
def textMax : Nat := 16

end Machine
end Sys2Proof
end

