-- ==== Sys2Proof/Machine/State.lean ====
section
/-! DEFINITION. The architectural state (10_state.md), the events from outside (46_control.md R285, 70_reset_and_hazards.md R330),
the state after reset, and the reasons a step can stop. -/

namespace Sys2Proof.Machine

/-- The four waveforms, in the order of their codes (10_state.md R31). -/
inductive Waveform where
  | sine | square | triangle | sawtooth
  deriving DecidableEq, Repr

/-- GEN_CTRL.VOICE: a waveform or the muted sentinel; no other value is ever stored (10_state.md R31). -/
inductive Voice where
  | playing (w : Waveform)
  | muted
  deriving DecidableEq, Repr

/-- GEN_CTRL.ENV, in the order of the codes; no other value is ever stored (10_state.md R32). -/
inductive Envelope where
  | linear | expDecay | gate | adsr | sustain | tremolo
  deriving DecidableEq, Repr

/-- The register set of one tone generator (10_state.md R30). -/
structure Generator where
  voice : Voice
  env : Envelope
  phase : Word
  phaseDelta : Word
  phaseDDelta : Word
  vol : Half
  volDelta : Half
  /-- Signed (10_state.md R35). -/
  envAmp : Half
  divL : Half
  divR : Half
  deriving DecidableEq, Repr

/-- The register set of one sprite slot (10_state.md R38). -/
structure Sprite where
  visible : Bool
  key : Byte
  x : Half
  y : Half
  w : Half
  h : Half
  tileBase : Word
  deriving DecidableEq, Repr

/-- FX_CTRL.FX_ACTIVE, FX_POS and FX_LEN (10_state.md R26, R27). -/
structure Effect where
  active : Bool
  pos : Word
  len : Word
  deriving DecidableEq, Repr

/-- OVL_POS, OVL_CTRL and TEXT0 to TEXT3 (10_state.md R28). -/
structure Overlay where
  x : Half
  y : Half
  fgColor : Byte
  textLen : BitVec 5
  text0 : Word
  text1 : Word
  text2 : Word
  text3 : Word
  deriving DecidableEq, Repr

/-- The fault codes that can be recorded (60_exceptions.md R297). -/
inductive FaultCode where
  | illegalCmd | badOperand | divZero | spriteBounds | overlayBounds | addrError | busyAccess
  deriving DecidableEq, Repr

/-- The fault record: STATUS.FAULT_CODE and FAULT_INFO of the first fault since reset (60_exceptions.md R295). -/
structure FaultRecord where
  code : FaultCode
  info : Word
  deriving DecidableEq, Repr

/-- The widths of a host access; no other exists on the interface (46_control.md R285). -/
inductive Width where
  | w8 | w16 | w32
  deriving DecidableEq, Repr

/-- HostRead(off, n) and HostWrite(off, n, v) (46_control.md R285). -/
inductive HostAccess where
  | read (off : Word) (n : Width)
  | write (off : Word) (n : Width) (v : Word)
  deriving DecidableEq, Repr

/-- What can happen next in a run: a run is an interleaving of host accesses and engine steps (60_exceptions.md R305), and the
platform may assert reset (70_reset_and_hazards.md R330). -/
inductive Event where
  | access (a : HostAccess)
  | engineTurn
  | reset
  deriving DecidableEq, Repr

/-- The written bytes of the RAM regions by block-space offset, offsets strictly rising. An offset that is not listed holds no
value of its own: it still reads as its reset content (20_memory.md R84; notes/assumptions/13.md). -/
abbrev Memory := List Host.Cell

/-- Everything the spec gives the block (10_state.md R20), and the model's own `inputs`, `hostData` and `ramEpoch`. -/
structure State where
  /-- 00_scope.md R6; constant for the block's lifetime (10_state.md R29). -/
  params : Params
  /-- FRAME_INDEX (10_state.md R24). -/
  frameIndex : Word
  /-- SUBCNT (10_state.md R25). -/
  subcnt : Byte
  fx : Effect
  ovl : Overlay
  /-- Generator g is the element at index g (10_state.md R30). -/
  gens : List Generator
  /-- Sprite slot s is the element at index s (10_state.md R38). -/
  sprites : List Sprite
  /-- PENDING while BUSY = 1; `none` is BUSY = 0, PENDING empty (10_state.md R41, R43; notes/assumptions/14.md). -/
  pending : Option Word
  /-- `none` is FAULT = FAULT_CODE = FAULT_INFO = 0 (60_exceptions.md R296, R300; notes/assumptions/14.md). -/
  faultRec : Option FaultRecord
  mem : Memory
  /-- The model's own: which draw the unwritten RAM bytes are (notes/assumptions/2.md). -/
  ramEpoch : Nat
  /-- The model's own: the events still to come, next first (notes/assumptions/4.md). -/
  inputs : List Event
  /-- The model's own: what the host's latest read returned (notes/assumptions/5.md). -/
  hostData : Word
  deriving DecidableEq, Repr

/-- Why the model's step stops. No fault of the spec is one of these: those are recorded and the machine goes on
(60_exceptions.md R295). -/
inductive Fault where
  /-- Raised by `step` in a state whose parameters break the constraints of 00_scope.md R6, so that the spec describes no such
  block (notes/assumptions/10.md). Safe: no legal block stops. -/
  | illegalParams
  deriving DecidableEq, Repr

/-- Why the model refuses an instruction. -/
inductive Refusal where
  /-- Raised by `exec` for an instruction the model gives no meaning; no arm uses it now. Safe. -/
  | notModelled (mnemonic : String)
  deriving DecidableEq, Repr

/-- The reset values of a generator (10_state.md R30, R43). -/
def Generator.reset : Generator where
  voice := .muted
  env := .linear
  phase := 0
  phaseDelta := 0
  phaseDDelta := 0
  vol := 0
  volDelta := 0
  envAmp := 0
  divL := 1
  divR := 1

/-- The reset values of a sprite slot (10_state.md R38, R43). -/
def Sprite.reset : Sprite where
  visible := false
  key := 0
  x := 0
  y := 0
  w := 0
  h := 0
  tileBase := 0

/-- The state right after the reset of a block with the given parameters (10_state.md R43, 70_reset_and_hazards.md R330), its
unwritten RAM bytes those of the given draw. -/
def State.resetWith (p : Params) (epoch : Nat) : State where
  params := p
  frameIndex := 0
  subcnt := 0
  fx := { active := false, pos := 0, len := 0 }
  ovl := { x := 0, y := 0, fgColor := 0, textLen := 0, text0 := 0, text1 := 0, text2 := 0, text3 := 0 }
  gens := List.replicate p.ngen Generator.reset
  sprites := List.replicate p.nspr Sprite.reset
  pending := none
  faultRec := none
  mem := []
  ramEpoch := epoch
  inputs := []
  hostData := 0

/-- The machine right after reset, at the parameters of notes/assumptions/1.md. -/
def State.reset : State := State.resetWith Params.atReset 0

end Sys2Proof.Machine
end

