-- ==== Sys2Proof/Machine/Tables.lean ====
section
/-! DEFINITION. The waveform and envelope tables (40_tables.md): functions of the parameters, in integer arithmetic. -/

namespace Sys2Proof.Machine

/-! ### Sine (40_tables.md R131) -/

/-- The scale of the fixed-point numbers below. -/
def fixOne : Nat := 2 ^ 64

/-- π to 64 fractional bits, rounded down. -/
def fixPi : Nat := 57952155664616982739

/-- sin x for a fixed-point angle 0 ≤ x ≤ π/2: the Taylor polynomial of degree 31 in Horner form, with an error below 2^-62. -/
def fixSin (x : Nat) : Nat :=
  let xx := x * x / fixOne
  let horner := (List.range 15).foldl (fun h j => fixOne - xx * h / (fixOne * ((30 - 2 * j) * (31 - 2 * j)))) fixOne
  x * horner / fixOne

/-- round(sin(2π·i/N)·A) in the first quadrant, 0 ≤ i ≤ N/4. No value of a legal N and A lies within 10^-8 of a half-integer, so
the fixed-point error never changes the rounding (DEDUCED, notes/assumptions/7.md). -/
def quarterSine (N A i : Nat) : Nat :=
  (2 * A * fixSin (fixPi * 2 * i / N) + fixOne) / (2 * fixOne)

/-- round(sin(2π·i/N)·A) by the quadrant symmetry of 40_tables.md R131. -/
def sineEntry (N A i : Nat) : Int :=
  if i ≤ N / 4 then quarterSine N A i
  else if i ≤ N / 2 then quarterSine N A (N / 2 - i)
  else if i ≤ 3 * N / 4 then -(quarterSine N A (i - N / 2) : Int)
  else -(quarterSine N A (N - i) : Int)

/-! ### The other waveforms (40_tables.md R132 to R134) -/

/-- 40_tables.md R132. -/
def squareEntry (N A i : Nat) : Int := if i < N / 2 then -(A : Int) else A

/-- The rising half of the triangle (40_tables.md R133). -/
def triangleRise (N A i : Nat) : Int := -(A : Int) + (2 * A * i / (N / 2 - 1) : Nat)

/-- 40_tables.md R133. -/
def triangleEntry (N A i : Nat) : Int :=
  if i < N / 2 then triangleRise N A i else triangleRise N A (N - 1 - i)

/-- 40_tables.md R134. -/
def sawtoothEntry (N A i : Nat) : Int := (i * (2 * (A + 1)) / N : Nat) - (A : Int)

/-- WAVE[w][i] (40_tables.md R130). -/
def waveEntry (p : Params) (w : Waveform) (i : Nat) : Int :=
  match w with
  | .sine => sineEntry p.waveLen p.waveAmp i
  | .square => squareEntry p.waveLen p.waveAmp i
  | .triangle => triangleEntry p.waveLen p.waveAmp i
  | .sawtooth => sawtoothEntry p.waveLen p.waveAmp i

/-! ### Envelopes (40_tables.md R135 to R140) -/

/-- floor(2^(a/b)) for 2^(a/b) < 512: the greatest n with n^b ≤ 2^a, found bit by bit. -/
def floorExp2 (a b : Nat) : Nat :=
  [256, 128, 64, 32, 16, 8, 4, 2, 1].foldl (fun n bit => if (n + bit) ^ b ≤ 2 ^ a then n + bit else n) 0

/-- trunc(2^(a/b) - 1) for a ≥ 0: the power is at least 1. -/
def truncExp (a b : Nat) : Nat := floorExp2 a b - 1

/-- 40_tables.md R135. -/
def linearEnv (i : Nat) : Int := 255 - (i : Int)

/-- 40_tables.md R136. -/
def expDecayEnv (i : Nat) : Int := min (truncExp (256 - i) 32) 255

/-- 40_tables.md R137. -/
def gateEnv (i : Nat) : Int := if i < 255 then 255 else 0

/-- 40_tables.md R138. -/
def adsrEnv (i : Nat) : Int :=
  if i < 32 then truncExp (i + 1) 4 else if i < 192 then 255 else truncExp (256 - i) 8

/-- 40_tables.md R139. -/
def sustainEnv (i : Nat) : Int :=
  if i < 16 then truncExp (i + 1) 2 else if i < 224 then 255 else truncExp (256 - i) 4

/-- 40_tables.md R140: 5 cycles in 160 steps are one in 32. -/
def tremoloEnv (i : Nat) : Int :=
  if i < 48 then truncExp ((i + 1) * 7) 48
  else if i < 208 then 127 + sineEntry 32 64 ((i - 48) % 32)
  else truncExp ((256 - i) * 7) 48

/-- ENV[e][i] (40_tables.md R130). -/
def envEntry (e : Envelope) (i : Nat) : Int :=
  match e with
  | .linear => linearEnv i
  | .expDecay => expDecayEnv i
  | .gate => gateEnv i
  | .adsr => adsrEnv i
  | .sustain => sustainEnv i
  | .tremolo => tremoloEnv i

end Sys2Proof.Machine
end

