-- ==== Sys2Proof/Machine/Ops.lean ====
section
/-! DEFINITION. The shared operations: little-endian bytes, the RAM list, the address map of 20_memory.md R71, memory reads and
writes, the array views of R73, the generator bank, and taking a fault (60_exceptions.md R300). -/

namespace Sys2Proof.Machine

/-! ### Bytes and words (20_memory.md R74, 00_scope.md R8) -/

/-- The n little-endian bytes of v (20_memory.md R74). -/
def bytesLE (v : Nat) : Nat → List Byte
  | 0 => []
  | n + 1 => BitVec.ofNat 8 v :: bytesLE (v / 256) n

/-- wrap16 (00_scope.md R8), as the 16 bits that are stored. -/
def wrap16 (v : Int) : Half := BitVec.ofInt 16 v

/-! ### The RAM list -/

/-- The byte that was written at an offset, if any was. -/
def Memory.lookup (m : Memory) (a : Nat) : Option Byte := (m.find? fun c => c.1 == a).map (·.2)

/-- The listed bytes of consecutive offsets. -/
def cellsFrom (a : Nat) : List Byte → List Host.Cell
  | [] => []
  | b :: bs => (a, b) :: cellsFrom (a + 1) bs

/-- Write consecutive bytes from an offset on: MemWrite (00_scope.md R8). -/
def Memory.write (m : Memory) (a : Nat) (bs : List Byte) : Memory :=
  m.filter (fun c => c.1 < a) ++ cellsFrom a bs ++ m.filter (fun c => a + bs.length ≤ c.1)

/-- Single-byte writes in the order of a list, a later one overwriting an earlier one (20_memory.md R91). -/
def Memory.writeCells (m : Memory) (ws : List Host.Cell) : Memory := ws.foldl (fun m c => m.write c.1 [c.2]) m

/-- The canonical form: offsets strictly rising. -/
abbrev Memory.wf (m : Memory) : Prop := m.Pairwise fun c d => c.1 < d.1

/-! ### The address map (20_memory.md R71) -/

/-- The windows of the block space. -/
inductive Region where
  | regs | waveRom | envRom | fontRom | audRam | fxRam | bgRam | tileRam | fbRam
  deriving DecidableEq, Repr

/-- Every window, in the order of the map. -/
def Region.all : List Region := [.regs, .waveRom, .envRom, .fontRom, .audRam, .fxRam, .bgRam, .tileRam, .fbRam]

/-- Where a window begins. -/
def Region.base : Region → Nat
  | .regs => 0x00000000
  | .waveRom => 0x00010000
  | .envRom => 0x00020000
  | .fontRom => 0x00030000
  | .audRam => 0x00100000
  | .fxRam => 0x00200000
  | .bgRam => 0x01000000
  | .tileRam => 0x02000000
  | .fbRam => 0x03000000

/-- The implemented size of a window in bytes. -/
def Region.size (p : Params) : Region → Nat
  | .regs => 0x1000
  | .waveRom => 8 * p.waveLen
  | .envRom => 0xC00
  | .fontRom => 0x1000
  | .audRam => 4 * p.frameSamples
  | .fxRam => 2 * p.fxCap
  | .bgRam => p.bgW * p.bgH
  | .tileRam => p.tileCap
  | .fbRam => p.fbW * p.fbH

/-- The offset lies in the implemented part of the window. -/
abbrev Region.Holds (p : Params) (r : Region) (a : Nat) : Prop := r.base ≤ a ∧ a < r.base + r.size p

/-- The read-only memories (20_memory.md R71). -/
def Region.isRom : Region → Bool
  | .waveRom => true
  | .envRom => true
  | .fontRom => true
  | .regs => false
  | .audRam => false
  | .fxRam => false
  | .bgRam => false
  | .tileRam => false
  | .fbRam => false

/-- The read-write memories (20_memory.md R71). -/
def Region.isRam (r : Region) : Bool := !r.isRom && r != .regs

/-- The window whose implemented part holds an offset, if any. -/
def regionOf (p : Params) (a : Nat) : Option Region := Region.all.find? fun r => r.Holds p a

/-! ### ROM contents (20_memory.md R73, R84) -/

/-- Byte `i mod 2` of a table's entry (20_memory.md R74). -/
def tableByte (entry : Int) (i : Nat) : Byte := BitVec.ofNat 8 ((wrap16 entry).toNat / 256 ^ (i % 2))

/-- The waveform of a table number (10_state.md R31, 40_tables.md R130). -/
def Waveform.ofCode : Nat → Option Waveform
  | 0 => some .sine
  | 1 => some .square
  | 2 => some .triangle
  | 3 => some .sawtooth
  | _ => none

/-- The envelope of a table number (10_state.md R32, 40_tables.md R130). -/
def Envelope.ofCode : Nat → Option Envelope
  | 0 => some .linear
  | 1 => some .expDecay
  | 2 => some .gate
  | 3 => some .adsr
  | 4 => some .sustain
  | 5 => some .tremolo
  | _ => none

/-- Byte i of WAVE_ROM (20_memory.md R73). -/
def waveRomByte (p : Params) (i : Nat) : Option Byte :=
  (Waveform.ofCode (i / 2 / p.waveLen)).map fun w => tableByte (waveEntry p w (i / 2 % p.waveLen)) i

/-- Byte i of ENV_ROM (20_memory.md R73). -/
def envRomByte (i : Nat) : Option Byte :=
  (Envelope.ofCode (i / 2 / 256)).map fun e => tableByte (envEntry e (i / 2 % 256)) i

/-- Byte i of FONT_ROM: the FONT parameter (20_memory.md R84; notes/assumptions/3.md). -/
def fontRomByte (p : Params) (i : Nat) : Byte := (Memory.lookup p.font i).getD (Config.fontDraw i)

/-- The byte at an offset of a read-only memory; `none` elsewhere. -/
def romByte (p : Params) (a : Nat) : Option Byte :=
  match regionOf p a with
  | some .waveRom => waveRomByte p (a - Region.waveRom.base)
  | some .envRom => envRomByte (a - Region.envRom.base)
  | some .fontRom => some (fontRomByte p (a - Region.fontRom.base))
  | _ => none

/-- What an offset reads as until something writes it: the ROM contents, and a draw elsewhere (20_memory.md R84;
notes/assumptions/2.md). -/
def resetByte (p : Params) (epoch a : Nat) : Byte := (romByte p a).getD (Config.ramDraw epoch a)

/-! ### Memory reads and writes (00_scope.md R8, 20_memory.md R74) -/

/-- One byte of the block space's memories: the latest write, or the reset content (20_memory.md R90). ROM is never written
(R78). -/
def State.readByte (s : State) (a : Nat) : Byte :=
  match romByte s.params a with
  | some b => b
  | none => (s.mem.lookup a).getD (resetByte s.params s.ramEpoch a)

/-- MemRead: n bytes, little-endian. -/
def State.memRead (s : State) (a : Nat) : Nat → Nat
  | 0 => 0
  | n + 1 => (s.readByte a).toNat + 256 * s.memRead (a + 1) n

/-- MemWrite of consecutive bytes. -/
def State.memWrite (s : State) (a : Nat) (bs : List Byte) : State := { s with mem := s.mem.write a bs }

/-- Single-byte writes in the order of a list. -/
def State.writeCells (s : State) (ws : List Host.Cell) : State := { s with mem := s.mem.writeCells ws }

/-! ### Array views (20_memory.md R73) -/

/-- Offset of FB[y][x]. -/
def fbAddr (p : Params) (y x : Nat) : Nat := Region.fbRam.base + y * p.fbW + x

/-- Offset of BG[y][x]. -/
def bgAddr (p : Params) (y x : Nat) : Nat := Region.bgRam.base + y * p.bgW + x

/-- Offset of AUD[i]. -/
def audAddr (i : Nat) : Nat := Region.audRam.base + 2 * i

/-- Offset of FX[i]. -/
def fxAddr (i : Nat) : Nat := Region.fxRam.base + 2 * i

/-- BG[y][x]. -/
def State.bg (s : State) (y x : Nat) : Byte := s.readByte (bgAddr s.params y x)

/-- FB[y][x]. -/
def State.fb (s : State) (y x : Nat) : Byte := s.readByte (fbAddr s.params y x)

/-- TILE[a]. -/
def State.tile (s : State) (a : Nat) : Byte := s.readByte (Region.tileRam.base + a)

/-- FONT[c][r]. -/
def State.font (s : State) (c r : Nat) : Byte := s.readByte (Region.fontRom.base + 16 * c + r)

/-- FX[i], signed. -/
def State.fxSample (s : State) (i : Nat) : Int := (BitVec.ofNat 16 (s.memRead (fxAddr i) 2)).toInt

/-- AUD[i], signed. -/
def State.aud (s : State) (i : Nat) : Int := (BitVec.ofNat 16 (s.memRead (audAddr i) 2)).toInt

/-! ### The generator bank -/

/-- Change generator g and no other. -/
def State.modifyGen (s : State) (g : Nat) (f : Generator → Generator) : State := { s with gens := s.gens.modify g f }

/-! ### Taking a fault (60_exceptions.md R300) -/

/-- `raise F(info)`: record the first fault since reset; a later one changes nothing. There is no vector, no saved state and no
return (60_exceptions.md R295, R301). -/
def State.raise (s : State) (code : FaultCode) (info : Word) : State :=
  match s.faultRec with
  | none => { s with faultRec := some { code := code, info := info } }
  | some _ => s

/-- STATUS.BUSY <- 0, PENDING emptied (46_control.md R281). -/
def State.clearBusy (s : State) : State := { s with pending := none }

end Sys2Proof.Machine
end

