-- ==== Sys2Proof/Machine/Operands.lean ====
section
/-! DEFINITION. The operands of KEYON and MUTE: which generator, waveform and envelope a 4-bit field names (30_encoding.md R102,
R106), and the codes the registers show (10_state.md R31, R32). -/

namespace Sys2Proof.Machine

/-- The code of a waveform (10_state.md R31). -/
def Waveform.code : Waveform → Nat
  | .sine => 0
  | .square => 1
  | .triangle => 2
  | .sawtooth => 3

/-- GEN_CTRL.VOICE (10_state.md R31). -/
def Voice.code : Voice → BitVec 4
  | .playing w => BitVec.ofNat 4 w.code
  | .muted => 0xF

/-- The number of an envelope (10_state.md R32). -/
def Envelope.number : Envelope → Nat
  | .linear => 0
  | .expDecay => 1
  | .gate => 2
  | .adsr => 3
  | .sustain => 4
  | .tremolo => 5

/-- GEN_CTRL.ENV (10_state.md R32). -/
def Envelope.code (e : Envelope) : BitVec 4 := BitVec.ofNat 4 e.number

/-- A GEN operand: a generator of the bank, or no meaning (30_encoding.md R106). -/
def generatorOperand (p : Params) (gen : Nat) : Option Nat := if gen < p.ngen then some gen else none

/-- The three operands of KEYON: each must have a meaning (41_tone_generator.md R160). -/
def keyonOperands (p : Params) (gen voice env : Nat) : Option (Nat × Waveform × Envelope) :=
  match generatorOperand p gen, Waveform.ofCode voice, Envelope.ofCode env with
  | some g, some w, some e => some (g, w, e)
  | _, _, _ => none

/-- VOL[15:8], the envelope position (10_state.md R34). -/
def envelopePosition (vol : Half) : Nat := vol.toNat / 256

/-- ENV[e][VOL[15:8]] as ENV_AMP holds it (10_state.md R35). -/
def envelopeAmplitude (e : Envelope) (vol : Half) : Half := wrap16 (envEntry e (envelopePosition vol))

/-- TEXT[j], the j-th character (10_state.md R28). -/
def Overlay.char (o : Overlay) (j : Nat) : Byte :=
  let reg := match j / 4 with
    | 0 => o.text0
    | 1 => o.text1
    | 2 => o.text2
    | _ => o.text3
  reg.extractLsb' (8 * (j % 4)) 8

end Sys2Proof.Machine
end

