-- ==== Sys2Proof/Machine/Flags.lean ====
section
/-! DEFINITION. The status bits and the conditions the rules test: BUSY, FAULT, FAULT_CODE (10_state.md R23), the sub-rate tick
(42_audio_render.md R196), the headroom test (41_tone_generator.md R176), the effect test (42_audio_render.md R200). -/

namespace Sys2Proof.Machine

/-- The code of a fault (60_exceptions.md R297). -/
def FaultCode.code : FaultCode → Byte
  | .illegalCmd => 0x01
  | .badOperand => 0x02
  | .divZero => 0x03
  | .spriteBounds => 0x04
  | .overlayBounds => 0x05
  | .addrError => 0x06
  | .busyAccess => 0x07

/-- STATUS.BUSY (10_state.md R23). -/
def State.busy (s : State) : Bool := s.pending.isSome

/-- STATUS.FAULT (10_state.md R23). -/
def State.faulted (s : State) : Bool := s.faultRec.isSome

/-- STATUS.FAULT_CODE (10_state.md R23). -/
def State.faultCode (s : State) : Byte :=
  match s.faultRec with
  | some r => r.code.code
  | none => 0

/-- FAULT_INFO (60_exceptions.md R296). -/
def State.faultInfo (s : State) : Word :=
  match s.faultRec with
  | some r => r.info
  | none => 0

/-- STATUS: [0] BUSY, [1] FAULT, [15:8] FAULT_CODE (10_state.md R22). -/
def State.status (s : State) : Word :=
  0#16 ++ s.faultCode ++ 0#6 ++ BitVec.ofBool s.faulted ++ BitVec.ofBool s.busy

/-- A sample is a sub-rate tick when SUBCNT = SUBRATE - 1 at its start (42_audio_render.md R196). -/
def isTick (subcnt : Byte) : Bool := subcnt.toNat == subrate - 1

/-- (SUBCNT + 1) mod SUBRATE (42_audio_render.md R190). -/
def nextSubcnt (subcnt : Byte) : Byte := BitVec.ofNat 8 ((subcnt.toNat + 1) % subrate)

/-- VOL < VOL_CEIL - VOL_DELTA on exact integers (41_tone_generator.md R176). -/
def hasHeadroom (vol volDelta : Half) : Bool := (vol.toNat : Int) < (volCeil : Int) - (volDelta.toNat : Int)

/-- FX_ACTIVE = 1 and FX_POS < FX_LEN (42_audio_render.md R200). -/
def effectPlaying (active : Bool) (pos len : Word) : Bool := active && decide (pos.toNat < len.toNat)

end Sys2Proof.Machine
end

