-- ==== Sys2Proof/Machine/ToneGenerator.lean ====
section
/-! DEFINITION. KEYON, MUTE and the oscillator step (41_tone_generator.md). -/

namespace Sys2Proof.Machine

/-- VOICE <- v, ENV <- e, ENV_AMP <- ENV[e][VOL[15:8]] (41_tone_generator.md R160). -/
def Generator.keyOn (G : Generator) (w : Waveform) (e : Envelope) : Generator :=
  { G with voice := .playing w, env := e, envAmp := envelopeAmplitude e G.vol }

/-- VOICE <- MUTED, ENV_AMP <- 0 (41_tone_generator.md R165, R176). -/
def Generator.silence (G : Generator) : Generator := { G with voice := .muted, envAmp := 0 }

/-- KEYON (41_tone_generator.md R160). BAD_OPERAND carries the command word, which is the command's encoding
(notes/assumptions/8.md). -/
def execKeyon (gen voice env : Nat) (s : State) : Host.Outcome State Fault Refusal :=
  match keyonOperands s.params gen voice env with
  | some (g, w, e) => .next (s.modifyGen g fun G => G.keyOn w e)
  | none => .next (s.raise .badOperand (encode (.keyon gen voice env)))

/-- MUTE (41_tone_generator.md R165). -/
def execMute (gen : Nat) (s : State) : Host.Outcome State Fault Refusal :=
  match generatorOperand s.params gen with
  | some g => .next (s.modifyGen g Generator.silence)
  | none => .next (s.raise .badOperand (encode (.mute gen)))

/-- The waveform index: the top WAVE_IDX_BITS bits of PHASE (41_tone_generator.md R172). -/
def waveIndex (p : Params) (phase : Word) : Nat := phase.toNat / 2 ^ (32 - p.waveIdxBits)

/-- WAVE[v][idx] * ENV_AMP, exact (41_tone_generator.md R171). -/
def Generator.product (G : Generator) (p : Params) (w : Waveform) : Int :=
  waveEntry p w (waveIndex p G.phase) * G.envAmp.toInt

/-- The two channel contributions, each quotient truncated toward zero (41_tone_generator.md R171). -/
def Generator.contribution (G : Generator) (p : Params) (w : Waveform) : Int × Int :=
  ((G.product p w).tdiv G.divL.toNat, (G.product p w).tdiv G.divR.toNat)

/-- PHASE and then PHASE_DELTA advance modulo 2^32 (41_tone_generator.md R173). -/
def Generator.advancePhase (G : Generator) : Generator :=
  { G with phase := G.phase + G.phaseDelta, phaseDelta := G.phaseDelta + G.phaseDDelta }

/-- The envelope step of a sub-rate tick (41_tone_generator.md R176). -/
def Generator.envelopeStep (G : Generator) : Generator :=
  if hasHeadroom G.vol G.volDelta then
    { G with vol := G.vol + G.volDelta, envAmp := envelopeAmplitude G.env (G.vol + G.volDelta) }
  else G.silence

/-- `oscStep` (41_tone_generator.md R170): the contributions of one generator to one sample, and the generator after it. A muted
generator is skipped entirely (R175). -/
def oscStep (p : Params) (tick : Bool) (G : Generator) : (Int × Int) × Generator :=
  match G.voice with
  | .muted => ((0, 0), G)
  | .playing w => (G.contribution p w, if tick then G.advancePhase.envelopeStep else G.advancePhase)

end Sys2Proof.Machine
end

