-- ==== Sys2Proof/Machine/Audio.lean ====
section
/-! DEFINITION. TRIGGER_FX and RENDER_AUDIO (42_audio_render.md). -/

namespace Sys2Proof.Machine

/-- FX_POS <- 0, FX_ACTIVE <- 1 (42_audio_render.md R205). -/
def Effect.trigger (e : Effect) : Effect := { e with active := true, pos := 0 }

/-- TRIGGER_FX (42_audio_render.md R205). -/
def execTriggerFx (s : State) : Host.Outcome State Fault Refusal := .next { s with fx := s.fx.trigger }

/-- Not muted, with a zero divisor (42_audio_render.md R191). -/
def Generator.wouldDivideByZero (G : Generator) : Bool := G.voice != .muted && (G.divL == 0 || G.divR == 0)

/-- What RENDER_AUDIO changes from sample to sample (42_audio_render.md R190). -/
structure Mixer where
  gens : List Generator
  subcnt : Byte
  fxPos : Word
  deriving DecidableEq, Repr

/-- The mixer at a command's first sample. -/
def State.mixer (s : State) : Mixer := { gens := s.gens, subcnt := s.subcnt, fxPos := s.fx.pos }

/-- The effect plays at this sample (42_audio_render.md R200). -/
def State.effectPlays (s : State) (m : Mixer) : Bool := effectPlaying s.fx.active m.fxPos s.fx.len

/-- What the effect adds to the left sum (42_audio_render.md R200). -/
def State.effectValue (s : State) (m : Mixer) : Int := if s.effectPlays m then s.fxSample m.fxPos.toNat else 0

/-- The exact sums L and R of one sample (42_audio_render.md R190, R192, R193). -/
def State.mixSums (s : State) (m : Mixer) : Int × Int :=
  let parts := m.gens.map fun G => (oscStep s.params (isTick m.subcnt) G).1
  ((parts.map (·.1)).sum + s.effectValue m, (parts.map (·.2)).sum)

/-- The mixer after one sample (42_audio_render.md R190, R196, R200). -/
def State.mixNext (s : State) (m : Mixer) : Mixer where
  gens := m.gens.map fun G => (oscStep s.params (isTick m.subcnt) G).2
  subcnt := nextSubcnt m.subcnt
  fxPos := if s.effectPlays m then m.fxPos + 1 else m.fxPos

/-- The four bytes of a stereo pair: left, then right, little-endian (42_audio_render.md R194). -/
def pairBytes (sums : Int × Int) : List Byte := bytesLE (wrap16 sums.1).toNat 2 ++ bytesLE (wrap16 sums.2).toNat 2

/-- n samples: the bytes of their pairs, and the mixer after them (42_audio_render.md R190). -/
def State.renderSamples (s : State) : Nat → Mixer → List Byte × Mixer
  | 0, m => ([], m)
  | n + 1, m =>
    let rest := s.renderSamples n (s.mixNext m)
    (pairBytes (s.mixSums m) ++ rest.1, rest.2)

/-- The state when the mixer has reached m and AUD_RAM holds the bytes. -/
def State.afterRender (s : State) (bytes : List Byte) (m : Mixer) : State :=
  { s with gens := m.gens, subcnt := m.subcnt, fx := { s.fx with pos := m.fxPos }, mem := s.mem.write Region.audRam.base bytes }

/-- RENDER_AUDIO (42_audio_render.md R190). No engine read aliases an AUD write (20_memory.md R79), so the pairs are written when
all are known. -/
def execRenderAudio (s : State) : Host.Outcome State Fault Refusal :=
  match s.gens.findIdx? Generator.wouldDivideByZero with
  | some g => .next (s.raise .divZero (BitVec.ofNat 32 g))
  | none =>
    let r := s.renderSamples s.params.frameSamples s.mixer
    .next (s.afterRender r.1 r.2)

end Sys2Proof.Machine
end

