-- ==== Sys2Proof/Machine/Background.lean ====
section
/-! DEFINITION. COMPOSITE_BG (43_background.md). -/

namespace Sys2Proof.Machine

/-- The background column that FB[y][x] shows: (x + f*(k+1)) mod BG_W for the band k of row y, on exact integers
(43_background.md R220, R222). -/
def scrollColumn (p : Params) (frameIndex : Word) (y x : Nat) : Nat :=
  (x + frameIndex.toNat * (y / p.bandHeight + 1)) % p.bgW

/-- The pixels of the composited frame, row by row (43_background.md R220). -/
def State.compositedFrame (s : State) : List Byte :=
  (List.range s.params.fbH).flatMap fun y =>
    (List.range s.params.fbW).map fun x => s.bg y (scrollColumn s.params s.frameIndex y x)

/-- COMPOSITE_BG (43_background.md R220). -/
def execCompositeBg (s : State) : Host.Outcome State Fault Refusal :=
  .next (s.memWrite Region.fbRam.base s.compositedFrame)

end Sys2Proof.Machine
end

