-- ==== Sys2Proof/Machine/Control.lean ====
section
/-! DEFINITION. NOP (46_control.md R275). -/

namespace Sys2Proof.Machine

/-- NOP does nothing (46_control.md R275). -/
def execNop (s : State) : Host.Outcome State Fault Refusal := .next s

end Sys2Proof.Machine
end

