-- ==== Sys2Proof/Machine/Sprites.lean ====
section
/-! DEFINITION. DRAW_SPRITES (44_sprites.md). -/

namespace Sys2Proof.Machine

/-- The rectangle lies in the frame buffer and the tile in TILE_RAM, on exact integers (44_sprites.md R235). -/
def Sprite.fits (S : Sprite) (p : Params) : Bool :=
  S.x.toNat + S.w.toNat ≤ p.fbW && S.y.toNat + S.h.toNat ≤ p.fbH && S.tileBase.toNat + S.w.toNat * S.h.toNat ≤ p.tileCap

/-- A visible sprite that does not fit (44_sprites.md R237). -/
def Sprite.outOfBounds (S : Sprite) (p : Params) : Bool := S.visible && !S.fits p

/-- Pixel (c, r) of a sprite's tile (10_state.md R39). -/
def State.tilePixel (s : State) (S : Sprite) (r c : Nat) : Byte := s.tile (S.tileBase.toNat + r * S.w.toNat + c)

/-- The pixels a sprite writes, row by row and left to right: those that differ from its key (44_sprites.md R235). -/
def State.spriteCells (s : State) (S : Sprite) : List Host.Cell :=
  if S.visible then
    (List.range S.h.toNat).flatMap fun r =>
      (List.range S.w.toNat).filterMap fun c =>
        if s.tilePixel S r c = S.key then none
        else some (fbAddr s.params (S.y.toNat + r) (S.x.toNat + c), s.tilePixel S r c)
  else []

/-- DRAW_SPRITES (44_sprites.md R235): every visible sprite is checked first, then all are drawn in slot order. -/
def execDrawSprites (s : State) : Host.Outcome State Fault Refusal :=
  match s.sprites.findIdx? (·.outOfBounds s.params) with
  | some i => .next (s.raise .spriteBounds (BitVec.ofNat 32 i))
  | none => .next (s.writeCells (s.sprites.flatMap s.spriteCells))

end Sys2Proof.Machine
end

