-- ==== Sys2Proof/Machine/TextOverlay.lean ====
section
/-! DEFINITION. DRAW_OVERLAY (45_overlay.md). -/

namespace Sys2Proof.Machine

/-- There is text and its box does not fit inside the frame buffer (45_overlay.md R258). -/
def Overlay.outOfBounds (o : Overlay) (p : Params) : Bool :=
  0 < o.textLen.toNat && !(o.x.toNat + glyphW * o.textLen.toNat ≤ p.fbW && o.y.toNat + glyphH ≤ p.fbH)

/-- Bit c of glyph row r of character j, bit 0 leftmost (45_overlay.md R256, R257). -/
def State.glyphBit (s : State) (j r c : Nat) : Bool := (s.font (s.ovl.char j).toNat r).getLsbD c

/-- The pixels of character j, where a glyph bit is 1 (45_overlay.md R255). -/
def State.glyphCells (s : State) (j : Nat) : List Host.Cell :=
  (List.range glyphH).flatMap fun r =>
    (List.range glyphW).filterMap fun c =>
      if s.glyphBit j r c then
        some (fbAddr s.params (s.ovl.y.toNat + r) (s.ovl.x.toNat + glyphW * j + c), s.ovl.fgColor)
      else none

/-- DRAW_OVERLAY (45_overlay.md R255). -/
def execDrawOverlay (s : State) : Host.Outcome State Fault Refusal :=
  if s.ovl.outOfBounds s.params then .next (s.raise .overlayBounds 0)
  else .next (s.writeCells ((List.range s.ovl.textLen.toNat).flatMap s.glyphCells))

end Sys2Proof.Machine
end

