-- ==== Sys2Proof/Machine/Dispatch.lean ====
section
/-! DEFINITION. One arm per command: the effect of a decoded command (46_control.md R281). -/

namespace Sys2Proof.Machine

def exec (i : Instr) (s : State) : Host.Outcome State Fault Refusal :=
  match i with
  | .nop => Sys2Proof.Machine.execNop s
  | .keyon gen voice env => Sys2Proof.Machine.execKeyon gen voice env s
  | .mute gen => Sys2Proof.Machine.execMute gen s
  | .triggerFx => Sys2Proof.Machine.execTriggerFx s
  | .renderAudio => Sys2Proof.Machine.execRenderAudio s
  | .compositeBg => Sys2Proof.Machine.execCompositeBg s
  | .drawSprites => Sys2Proof.Machine.execDrawSprites s
  | .drawOverlay => Sys2Proof.Machine.execDrawOverlay s

end Sys2Proof.Machine
end

