-- ==== Sys2Proof/Machine/Registers.lean ====
section
/-! DEFINITION. The register map (10_state.md R22, R30, R38) and what a host read or write of each register does
(46_control.md R286). -/

namespace Sys2Proof.Machine

/-- The registers of one generator (10_state.md R30). -/
inductive GenReg where
  | genCtrl | phase | phaseDelta | phaseDDelta | vol | volDelta | envAmp | gain
  deriving DecidableEq, Repr

/-- The registers of one sprite slot (10_state.md R38). -/
inductive SprReg where
  | sprCtrl | sprPos | sprSize | sprTile
  deriving DecidableEq, Repr

/-- Every register of the block (10_state.md R22, R30, R38). -/
inductive Reg where
  | id | cmd | status | faultInfo | frameIndex | subcnt | fxCtrl | fxPos | fxLen
  | ovlPos | ovlCtrl | text0 | text1 | text2 | text3
  | cfgFrameSamples | cfgFb | cfgBg | cfgCounts | cfgFxCap | cfgTileCap | cfgTables
  | gen (g : Nat) (r : GenReg)
  | spr (s : Nat) (r : SprReg)
  deriving DecidableEq, Repr

/-- The offsets of the global registers (10_state.md R22). -/
def globalMap : List (Nat × Reg) :=
  [(0x000, .id), (0x004, .cmd), (0x008, .status), (0x00C, .faultInfo), (0x010, .frameIndex), (0x014, .subcnt),
   (0x018, .fxCtrl), (0x01C, .fxPos), (0x020, .fxLen), (0x024, .ovlPos), (0x028, .ovlCtrl),
   (0x02C, .text0), (0x030, .text1), (0x034, .text2), (0x038, .text3)] ++
  [(0x040, .cfgFrameSamples), (0x044, .cfgFb), (0x048, .cfgBg), (0x04C, .cfgCounts), (0x050, .cfgFxCap),
   (0x054, .cfgTileCap), (0x058, .cfgTables)]

/-- The offsets inside a generator's slot (10_state.md R30). -/
def genMap : List (Nat × GenReg) :=
  [(0x00, .genCtrl), (0x04, .phase), (0x08, .phaseDelta), (0x0C, .phaseDDelta), (0x10, .vol), (0x14, .volDelta),
   (0x18, .envAmp), (0x1C, .gain)]

/-- The offsets inside a sprite's slot (10_state.md R38). -/
def sprMap : List (Nat × SprReg) := [(0x00, .sprCtrl), (0x04, .sprPos), (0x08, .sprSize), (0x0C, .sprTile)]

/-- The register at an offset; `none` is unmapped (10_state.md R21). -/
def regAt (p : Params) (off : Nat) : Option Reg :=
  if off < 0x100 then globalMap.lookup off
  else if off < 0x100 + 0x20 * p.ngen then (genMap.lookup ((off - 0x100) % 0x20)).map (Reg.gen ((off - 0x100) / 0x20))
  else if 0x300 ≤ off ∧ off < 0x300 + 0x20 * p.nspr then
    (sprMap.lookup ((off - 0x300) % 0x20)).map (Reg.spr ((off - 0x300) / 0x20))
  else none

/-- A 32-bit register of two 16-bit fields. -/
def pack16 (hi lo : Half) : Word := hi ++ lo

/-- What a generator's register reads as (10_state.md R30). -/
def Generator.read (G : Generator) : GenReg → Word
  | .genCtrl => 0#20 ++ G.env.code ++ 0#4 ++ G.voice.code
  | .phase => G.phase
  | .phaseDelta => G.phaseDelta
  | .phaseDDelta => G.phaseDDelta
  | .vol => pack16 0 G.vol
  | .volDelta => pack16 0 G.volDelta
  | .envAmp => pack16 0 G.envAmp
  | .gain => pack16 G.divR G.divL

/-- What a sprite's register reads as (10_state.md R38). -/
def Sprite.read (S : Sprite) : SprReg → Word
  | .sprCtrl => 0#16 ++ S.key ++ 0#7 ++ BitVec.ofBool S.visible
  | .sprPos => pack16 S.y S.x
  | .sprSize => pack16 S.h S.w
  | .sprTile => S.tileBase

/-- What a register reads as: reserved bits and CMD read 0 (46_control.md R286). No read has a side effect (20_memory.md R81).
A height that does not fit its 16-bit CFG field reads modulo 2^16 (notes/assumptions/9.md). A register of a slot the bank does not
hold reads 0; no such register is mapped (notes/assumptions/17.md). -/
def State.readReg (s : State) : Reg → Word
  | .id => idValue
  | .cmd => 0
  | .status => s.status
  | .faultInfo => s.faultInfo
  | .frameIndex => s.frameIndex
  | .subcnt => 0#24 ++ s.subcnt
  | .fxCtrl => 0#31 ++ BitVec.ofBool s.fx.active
  | .fxPos => s.fx.pos
  | .fxLen => s.fx.len
  | .ovlPos => pack16 s.ovl.y s.ovl.x
  | .ovlCtrl => 0#11 ++ s.ovl.textLen ++ 0#8 ++ s.ovl.fgColor
  | .text0 => s.ovl.text0
  | .text1 => s.ovl.text1
  | .text2 => s.ovl.text2
  | .text3 => s.ovl.text3
  | .cfgFrameSamples => BitVec.ofNat 32 s.params.frameSamples
  | .cfgFb => pack16 (BitVec.ofNat 16 s.params.fbH) (BitVec.ofNat 16 s.params.fbW)
  | .cfgBg => pack16 (BitVec.ofNat 16 s.params.bgH) (BitVec.ofNat 16 s.params.bgW)
  | .cfgCounts =>
    BitVec.ofNat 8 textMax ++ BitVec.ofNat 8 s.params.nbands ++ BitVec.ofNat 8 s.params.nspr ++ BitVec.ofNat 8 s.params.ngen
  | .cfgFxCap => BitVec.ofNat 32 s.params.fxCap
  | .cfgTileCap => BitVec.ofNat 32 s.params.tileCap
  | .cfgTables => pack16 (BitVec.ofNat 16 s.params.waveAmp) (BitVec.ofNat 16 s.params.waveLen)
  | .gen g r => match s.gens[g]? with
    | some G => G.read r
    | none => 0
  | .spr i r => match s.sprites[i]? with
    | some S => S.read r
    | none => 0

/-- The low 16-bit field of a written word. -/
def lowHalf (v : Word) : Half := v.extractLsb' 0 16

/-- The high 16-bit field of a written word. -/
def highHalf (v : Word) : Half := v.extractLsb' 16 16

/-- A write to a generator's register; GEN_CTRL and ENV_AMP are RO (10_state.md R30). -/
def Generator.write (G : Generator) (v : Word) : GenReg → Generator
  | .genCtrl => G
  | .phase => { G with phase := v }
  | .phaseDelta => { G with phaseDelta := v }
  | .phaseDDelta => { G with phaseDDelta := v }
  | .vol => { G with vol := lowHalf v }
  | .volDelta => { G with volDelta := lowHalf v }
  | .envAmp => G
  | .gain => { G with divL := lowHalf v, divR := highHalf v }

/-- A write to a sprite's register (10_state.md R38). -/
def Sprite.write (S : Sprite) (v : Word) : SprReg → Sprite
  | .sprCtrl => { S with visible := v.getLsbD 0, key := v.extractLsb' 8 8 }
  | .sprPos => { S with x := lowHalf v, y := highHalf v }
  | .sprSize => { S with w := lowHalf v, h := highHalf v }
  | .sprTile => { S with tileBase := v }

/-- FX_LEN is WARL: min(v, FX_CAP) (10_state.md R27). -/
def legalFxLen (p : Params) (v : Word) : Word := BitVec.ofNat 32 (min v.toNat p.fxCap)

/-- TEXT_LEN is WARL: min(v, TEXT_MAX) of the written field (10_state.md R28; notes/assumptions/11.md). -/
def legalTextLen (v : BitVec 5) : BitVec 5 := BitVec.ofNat 5 (min v.toNat textMax)

/-- A host write to a register other than CMD: RW fields take the value, reserved bits and RO registers ignore it
(46_control.md R286, 10_state.md R21). -/
def State.writeReg (s : State) (v : Word) : Reg → State
  | .id => s
  | .cmd => s
  | .status => s
  | .faultInfo => s
  | .frameIndex => { s with frameIndex := v }
  | .subcnt => s
  | .fxCtrl => s
  | .fxPos => s
  | .fxLen => { s with fx := { s.fx with len := legalFxLen s.params v } }
  | .ovlPos => { s with ovl := { s.ovl with x := lowHalf v, y := highHalf v } }
  | .ovlCtrl => { s with ovl := { s.ovl with fgColor := v.extractLsb' 0 8, textLen := legalTextLen (v.extractLsb' 16 5) } }
  | .text0 => { s with ovl := { s.ovl with text0 := v } }
  | .text1 => { s with ovl := { s.ovl with text1 := v } }
  | .text2 => { s with ovl := { s.ovl with text2 := v } }
  | .text3 => { s with ovl := { s.ovl with text3 := v } }
  | .cfgFrameSamples => s
  | .cfgFb => s
  | .cfgBg => s
  | .cfgCounts => s
  | .cfgFxCap => s
  | .cfgTileCap => s
  | .cfgTables => s
  | .gen g r => s.modifyGen g fun G => G.write v r
  | .spr i r => { s with sprites := s.sprites.modify i fun S => S.write v r }

/-- The registers a host may read while BUSY = 1 (46_control.md R282). -/
def Reg.readableWhileBusy : Reg → Bool
  | .id => true
  | .status => true
  | .faultInfo => true
  | .cfgFrameSamples => true
  | .cfgFb => true
  | .cfgBg => true
  | .cfgCounts => true
  | .cfgFxCap => true
  | .cfgTileCap => true
  | .cfgTables => true
  | .cmd => false
  | .frameIndex => false
  | .subcnt => false
  | .fxCtrl => false
  | .fxPos => false
  | .fxLen => false
  | .ovlPos => false
  | .ovlCtrl => false
  | .text0 => false
  | .text1 => false
  | .text2 => false
  | .text3 => false
  | .gen _ _ => false
  | .spr _ _ => false

end Sys2Proof.Machine
end

