-- ==== Sys2Proof/Machine/HostInterface.lean ====
section
/-! DEFINITION. Host accesses (46_control.md R280 to R288, 20_memory.md R75 to R77) and the platform's reset
(70_reset_and_hazards.md R330). -/

namespace Sys2Proof.Machine

/-- The bytes of an access (46_control.md R285). -/
def Width.bytes : Width → Nat
  | .w8 => 1
  | .w16 => 2
  | .w32 => 4

/-- The offset of an access. -/
def HostAccess.offset : HostAccess → Word
  | .read off _ => off
  | .write off _ _ => off

/-- The width of an access. -/
def HostAccess.width : HostAccess → Width
  | .read _ n => n
  | .write _ n _ => n

/-- kind = write. -/
def HostAccess.isWrite : HostAccess → Bool
  | .read _ _ => false
  | .write _ _ _ => true

/-- The offset is of a byte that exists (20_memory.md R71, R77). -/
def mappedByte (p : Params) (a : Nat) : Bool :=
  match regionOf p a with
  | some .regs => (regAt p (a / 4 * 4)).isSome
  | some _ => true
  | none => false

/-- The offset lies in a read-only memory. -/
def inRom (p : Params) (a : Nat) : Bool :=
  match regionOf p a with
  | some r => r.isRom
  | none => false

/-- The register an offset of the REGS window is; `none` outside REGS. -/
def regOfOffset (p : Params) (a : Nat) : Option Reg := if regionOf p a = some .regs then regAt p a else none

/-- An access the busy block allows: a read of ID, STATUS, FAULT_INFO or a CFG register (46_control.md R282). -/
def HostAccess.allowedWhileBusy (a : HostAccess) (p : Params) : Bool :=
  !a.isWrite && (match regOfOffset p a.offset.toNat with
    | some r => r.readableWhileBusy
    | none => false)

/-- The address checks of 46_control.md R285 in their order: REGS width, alignment, mapping, ROM write. -/
def HostAccess.addressError (a : HostAccess) (p : Params) : Bool :=
  let off := a.offset.toNat
  let n := a.width.bytes
  (regionOf p off = some .regs && n != 4) ||
  off % n != 0 ||
  (List.range n).any (fun i => !mappedByte p (off + i)) ||
  (a.isWrite && inRom p off)

/-- The first check that fails: ADDR_ERROR before BUSY_ACCESS (46_control.md R285, 60_exceptions.md R304). -/
def State.accessFault (s : State) (a : HostAccess) : Option FaultCode :=
  if a.addressError s.params then some .addrError
  else if s.busy && !a.allowedWhileBusy s.params then some .busyAccess
  else none

/-- A host write to CMD (46_control.md R280): ignored while FAULT = 1, BUSY_ACCESS while BUSY = 1, otherwise latched whole. -/
def State.writeCmd (s : State) (word : Word) : State :=
  if s.faulted then s
  else if s.busy then s.raise .busyAccess 0x004
  else { s with pending := some word }

/-- The value a performed read returns. -/
def State.hostRead (s : State) (off : Nat) (n : Width) : Word :=
  match regOfOffset s.params off with
  | some r => s.readReg r
  | none => BitVec.ofNat 32 (s.memRead off n.bytes)

/-- A performed write; a narrow one stores the low bytes of v (notes/assumptions/18.md). -/
def State.hostWrite (s : State) (off : Nat) (n : Width) (v : Word) : State :=
  match regOfOffset s.params off with
  | some .cmd => s.writeCmd v
  | some r => s.writeReg v r
  | none => s.memWrite off (bytesLE v.toNat n.bytes)

/-- HostAccess (46_control.md R285). A raised fault performs nothing, and its read returns 0 (60_exceptions.md R298, R299). -/
def State.hostAccess (s : State) (a : HostAccess) : State :=
  match s.accessFault a, a with
  | none, .read off n => { s with hostData := s.hostRead off.toNat n }
  | none, .write off n v => s.hostWrite off.toNat n v
  | some code, .read off _ => { s.raise code off with hostData := 0 }
  | some code, .write off _ _ => s.raise code off

/-- The platform's reset (70_reset_and_hazards.md R330): the parameters stay, the unwritten RAM is a new draw, and the host's
events still to come are still to come (notes/assumptions/12.md). -/
def State.platformReset (s : State) : State :=
  { State.resetWith s.params (s.ramEpoch + 1) with inputs := s.inputs }

end Sys2Proof.Machine
end

