-- ==== Sys2Proof/Machine/Engine.lean ====
section
/-! DEFINITION. The engine step (46_control.md R281) and which agent moves (60_exceptions.md R305). -/

namespace Sys2Proof.Machine

/-- STATUS.BUSY <- 0 after a command that answered a next state. -/
def finishCommand : Host.Outcome State Fault Refusal → Host.Outcome State Fault Refusal
  | .next s => .next s.clearBusy
  | .fault r => .fault r
  | .refused r => .refused r

/-- Decode and execute the latched word (46_control.md R281); ILLEGAL_CMD carries the word (30_encoding.md R104). -/
def State.runCommand (s : State) (word : Word) : Host.Outcome State Fault Refusal :=
  match decode word with
  | .ok i => finishCommand (exec i s)
  | .error _ => .next (s.raise .illegalCmd word).clearBusy

/-- The engine's turn (46_control.md R281): enabled exactly when BUSY = 1; a pending command is discarded, not executed, when a
fault is recorded. When it is not enabled the idle block holds all state (60_exceptions.md R313). -/
def State.engineTurn (s : State) : Host.Outcome State Fault Refusal :=
  match s.pending with
  | none => .next s
  | some word => if s.faulted then .next s.clearBusy else s.runCommand word

/-- The next event of the run; with none left the engine moves (46_control.md R289; notes/assumptions/4.md). -/
def State.takeEvent (s : State) : Host.Outcome State Fault Refusal :=
  match s.inputs with
  | [] => s.engineTurn
  | .engineTurn :: rest => ({ s with inputs := rest } : State).engineTurn
  | .access a :: rest => .next (({ s with inputs := rest } : State).hostAccess a)
  | .reset :: rest => .next ({ s with inputs := rest } : State).platformReset

/-- One step of a block whose parameters are legal (00_scope.md R6; notes/assumptions/10.md). -/
def State.advance (s : State) : Host.Outcome State Fault Refusal :=
  if s.params.Legal then s.takeEvent else .fault .illegalParams

/-- A command latched as an accepted host write to CMD latches it, with the engine next to move and no fault recorded
(notes/assumptions/6.md). -/
def State.placeCommand (s : State) (word : Word) : State :=
  { s with pending := some word, faultRec := none, inputs := .engineTurn :: s.inputs }

end Sys2Proof.Machine
end

