-- ==== Sys2Proof/Machine/Step.lean ====
section
/-! DEFINITION. One step of the machine: a host access, an engine step or a reset (00_scope.md R10). -/

namespace Sys2Proof.Machine

/-- The bits of one command word, those above `nbits` zero. -/
def commandWord (nbits w : Nat) : Word := BitVec.ofNat 32 (w % 2 ^ nbits)

/-- The state in which the next step runs the command with the given bits (notes/assumptions/6.md). -/
def State.withFetchWord (s : State) (nbits w : Nat) : State := s.placeCommand (commandWord nbits w)

/-- One step. -/
def step (s : State) : Host.Outcome State Fault Refusal := s.advance

end Sys2Proof.Machine
end

