-- ==== Sys2Proof/Machine/HostProgram.lean ====
section
/-! DEFINITION. The host's syntax and pseudo-operations (30_encoding.md R110 to R115): host programs as lists of operations, and the
runs of a host program, in which the host's WAIT loop is followed and the engine moves wherever it likes. -/

namespace Sys2Proof.Machine.Program

/-! ### Accesses as events -/

/-- WR32. -/
def wr32 (off v : Word) : Event := .access (.write off .w32 v)

/-- WR16. -/
def wr16 (off v : Word) : Event := .access (.write off .w16 v)

/-- WR8. -/
def wr8 (off v : Word) : Event := .access (.write off .w8 v)

/-- RD32. -/
def rd32 (off : Word) : Event := .access (.read off .w32)

/-- RD16. -/
def rd16 (off : Word) : Event := .access (.read off .w16)

/-- RD8. -/
def rd8 (off : Word) : Event := .access (.read off .w8)

/-- The access of CMD: a write of the command's word to offset 0x004 (30_encoding.md R110). -/
def cmdWrite (i : Instr) : HostAccess := .write 0x004 .w32 (encode i)

/-- CMD (30_encoding.md R110). -/
def cmd (i : Instr) : Event := .access (cmdWrite i)

/-- The read of STATUS in the loop of WAIT (30_encoding.md R113). -/
def statusRead : HostAccess := .read 0x008 .w32

/-! ### Programs -/

/-- An operation of a host program: one access, or the loop of WAIT. -/
inductive Op where
  | access (a : HostAccess)
  /-- `L: RD32 0x008; if (value & 1) != 0 goto L` (30_encoding.md R113). -/
  | wait
  deriving DecidableEq, Repr

/-- CMDW (30_encoding.md R113). -/
def cmdw (i : Instr) : List Op := [.access (cmdWrite i), .wait]

/-- TICK (30_encoding.md R114). -/
def tick : List Op := cmdw .compositeBg ++ cmdw .drawSprites ++ cmdw .drawOverlay ++ cmdw .renderAudio

/-- What the host still has to do after a read of STATUS in a WAIT that `ops` follow: the loop again while bit 0 of the value is 1
(30_encoding.md R113). -/
def afterPoll (value : Word) (ops : List Op) : List Op := if value.getLsbD 0 then .wait :: ops else ops

/-- `RunsOf ops s es`: the events `es` are a whole run of the host program `ops` from the block `s`. Each access is the program's next
one, a WAIT reads STATUS until it has read bit 0 as 0, and the engine moves between two accesses whenever it does (60_exceptions.md
R305; notes/assumptions/20.md). -/
def RunsOf (ops : List Op) (s : State) : List Event → Prop
  | [] => ops = []
  | .engineTurn :: es => ∃ t, ({ s with inputs := es } : State).engineTurn = .next t ∧ RunsOf ops t es
  | .access a :: es =>
    let t := ({ s with inputs := es } : State).hostAccess a
    match ops with
    | [] => False
    | .access b :: rest => a = b ∧ RunsOf rest t es
    | .wait :: rest => a = statusRead ∧ RunsOf (afterPoll t.hostData rest) t es
  | .reset :: _ => False

/-- The run in which the engine moves before the first read of each WAIT. -/
def promptRun (ops : List Op) : List Event :=
  ops.flatMap fun op => match op with
    | .access a => [.access a]
    | .wait => [.engineTurn, .access statusRead]

/-! ### SETGEN -/

/-- Offset of a register of generator g (10_state.md R30). -/
def genOffset (g : Nat) (k : Nat) : Word := BitVec.ofNat 32 (0x100 + 0x20 * g + k)

/-- SETGEN (30_encoding.md R115). -/
def setGen (g : Nat) (phase dphase ddphase : Word) (vol dvol divl divr : Half) : List Event :=
  [wr32 (genOffset g 0x04) phase, wr32 (genOffset g 0x08) dphase, wr32 (genOffset g 0x0C) ddphase,
   wr32 (genOffset g 0x10) (pack16 0 vol), wr32 (genOffset g 0x14) (pack16 0 dvol), wr32 (genOffset g 0x1C) (pack16 divr divl)]

end Sys2Proof.Machine.Program
end

