-- ==== Sys2Proof/Safety.lean ====
section
/-! DEFINITION. The invariant of the machine, and what counts as a good end of a run (60_exceptions.md R323). -/

namespace Sys2Proof.Machine

/-- A byte of a RAM region that exists (20_memory.md R71). -/
def inRam (p : Params) (a : Nat) : Prop := ∃ r : Region, r.isRam = true ∧ r.Holds p a

/-- What every step keeps, in every state that has it. -/
structure State.Inv (s : State) : Prop where
  /-- 00_scope.md R6. -/
  legal : s.params.Legal
  /-- The bank has NGEN generators (10_state.md R30). -/
  gens_length : s.gens.length = s.params.ngen
  /-- The table has NSPR slots (10_state.md R38). -/
  sprites_length : s.sprites.length = s.params.nspr
  /-- When VOICE = MUTED, ENV_AMP = 0 (10_state.md R37). -/
  muted_silent : ∀ G ∈ s.gens, G.voice = .muted → G.envAmp = 0
  /-- ENV_AMP is an envelope entry or 0, so 0..255 (40_tables.md R141, 41_tone_generator.md R180). -/
  amp_range : ∀ G ∈ s.gens, G.envAmp.toNat ≤ 255
  /-- FX_LEN is WARL (10_state.md R27). -/
  fx_len : s.fx.len.toNat ≤ s.params.fxCap
  /-- FX_ACTIVE = 0 only before the first trigger, so FX_POS = 0 (10_state.md R26). -/
  fx_idle : s.fx.active = false → s.fx.pos = 0
  /-- TEXT_LEN is WARL (10_state.md R28). -/
  text_len : s.ovl.textLen.toNat ≤ textMax
  /-- The RAM list is in canonical form. -/
  mem_wf : s.mem.wf
  /-- Only RAM bytes are ever written (20_memory.md R77, R78, R79). -/
  mem_ram : ∀ c ∈ s.mem, inRam s.params c.1

/-- A good end of a run: the host has no access left, BUSY = 0 and FAULT = 0 (60_exceptions.md R323). -/
def State.GoodEnd (s : State) : Prop := s.inputs = [] ∧ s.busy = false ∧ s.faulted = false

/-- k steps from a state end, without a stop, in t. -/
def reachesIn (k : Nat) (s t : State) : Prop := Host.Core.run Sys2Proof.core k s = .next t

/-- The run from s has ended well within k steps. -/
def endsWell (k : Nat) (s : State) : Prop := ∃ t, reachesIn k s t ∧ t.GoodEnd

end Sys2Proof.Machine
end

