-- ==== Sys2Proof/Certificates/Slice0/Obligations.lean ====
section
/-! DEFINITION. The statements for the provers. The first part holds the words they are written in: the spec's own tables and
formulas, over register reads (`State.readReg`) and byte reads (`State.readByte`). -/

namespace Sys2Proof.Machine.Claims

/-! ### Frames -/

/-- From s to t nothing changes but the registers and the memory bytes named. -/
def Frame (s t : State) (mayReg : Reg → Prop) (mayByte : Nat → Prop) : Prop :=
  (∀ r, ¬ mayReg r → t.readReg r = s.readReg r) ∧ (∀ a, ¬ mayByte a → t.readByte a = s.readByte a) ∧
  t.params = s.params ∧ t.pending = s.pending ∧ t.ramEpoch = s.ramEpoch ∧ t.inputs = s.inputs ∧ t.hostData = s.hostData

/-- No register. -/
def noReg : Reg → Prop := fun _ => False

/-- No byte. -/
def noByte : Nat → Prop := fun _ => False

/-- The registers a command may write: the "state written" lines of its rule. -/
def commandRegs : Instr → Reg → Prop
  | .nop, _ => False
  | .keyon g _ _, r => r = .gen g .genCtrl ∨ r = .gen g .envAmp
  | .mute g, r => r = .gen g .genCtrl ∨ r = .gen g .envAmp
  | .triggerFx, r => r = .fxPos ∨ r = .fxCtrl
  | .renderAudio, r =>
    r = .subcnt ∨ r = .fxPos ∨
    ∃ g, r = .gen g .genCtrl ∨ r = .gen g .phase ∨ r = .gen g .phaseDelta ∨ r = .gen g .vol ∨ r = .gen g .envAmp
  | .compositeBg, _ => False
  | .drawSprites, _ => False
  | .drawOverlay, _ => False

/-- A byte of FB_RAM at its implemented size. -/
def frameByte (p : Params) (a : Nat) : Prop := 0x03000000 ≤ a ∧ a < 0x03000000 + p.fbW * p.fbH

/-- The bytes a command may write in a state: the "state written" lines of its rule. DRAW_SPRITES writes the pixels of visible sprites
that differ from the key (44_sprites.md R235), DRAW_OVERLAY those of set glyph bits (45_overlay.md R255). -/
def commandBytes (s : State) : Instr → Nat → Prop
  | .renderAudio, a => 0x00100000 ≤ a ∧ a < 0x00100000 + 4 * s.params.frameSamples
  | .compositeBg, a => frameByte s.params a
  | .drawSprites, a => frameByte s.params a ∧ ∃ S ∈ s.sprites, ∃ c ∈ s.spriteCells S, c.1 = a
  | .drawOverlay, a => frameByte s.params a ∧ ∃ j < s.ovl.textLen.toNat, ∃ c ∈ s.glyphCells j, c.1 = a
  | .nop, _ => False
  | .keyon _ _ _, _ => False
  | .mute _, _ => False
  | .triggerFx, _ => False

/-! ### The command set (30_encoding.md R103) -/

/-- A row of the opcode map. -/
structure Row where
  mnemonic : String
  pattern : Word
  mask : Word

/-- The rows of 30_encoding.md R103. -/
def rows : List Row :=
  [⟨"NOP", 0x00000000, 0xFFFFFFFF⟩, ⟨"KEYON", 0x01000000, 0xFFFFF000⟩, ⟨"MUTE", 0x02000000, 0xFFFFFFF0⟩,
   ⟨"TRIGGER_FX", 0x03000000, 0xFFFFFFFF⟩, ⟨"RENDER_AUDIO", 0x10000000, 0xFFFFFFFF⟩,
   ⟨"COMPOSITE_BG", 0x20000000, 0xFFFFFFFF⟩, ⟨"DRAW_SPRITES", 0x21000000, 0xFFFFFFFF⟩,
   ⟨"DRAW_OVERLAY", 0x22000000, 0xFFFFFFFF⟩]

/-- The mnemonic of a command. -/
def mnemonic : Instr → String
  | .nop => "NOP"
  | .keyon _ _ _ => "KEYON"
  | .mute _ => "MUTE"
  | .triggerFx => "TRIGGER_FX"
  | .renderAudio => "RENDER_AUDIO"
  | .compositeBg => "COMPOSITE_BG"
  | .drawSprites => "DRAW_SPRITES"
  | .drawOverlay => "DRAW_OVERLAY"

/-- A command whose operand has no meaning (30_encoding.md R106). -/
def meaningless (p : Params) : Instr → Prop
  | .keyon g v e => p.ngen ≤ g ∨ 3 < v ∨ 5 < e
  | .mute g => p.ngen ≤ g
  | _ => False

/-- The engine moves next, and `rest` is what the host still has to do after that. -/
def engineNext (s : State) (rest : List Event) : Prop := (s.inputs = [] ∧ rest = []) ∨ s.inputs = .engineTurn :: rest

/-! ### Reset values (10_state.md R22, R30, R38) -/

/-- The reset value of every register. -/
def resetValue (p : Params) : Reg → Word
  | .id => 0x57544F31
  | .cfgFrameSamples => BitVec.ofNat 32 p.frameSamples
  | .cfgFb => BitVec.ofNat 32 (p.fbW + 2 ^ 16 * p.fbH)
  | .cfgBg => BitVec.ofNat 32 (p.bgW + 2 ^ 16 * p.bgH)
  | .cfgCounts => BitVec.ofNat 32 (p.ngen + 2 ^ 8 * p.nspr + 2 ^ 16 * p.nbands + 2 ^ 24 * 16)
  | .cfgFxCap => BitVec.ofNat 32 p.fxCap
  | .cfgTileCap => BitVec.ofNat 32 p.tileCap
  | .cfgTables => BitVec.ofNat 32 (p.waveLen + 2 ^ 16 * p.waveAmp)
  | .gen _ .genCtrl => 0x0000000F
  | .gen _ .gain => 0x00010001
  | _ => 0

/-! ### One generator over the samples of a frame (41_tone_generator.md R170, 42_audio_render.md R190) -/

/-- Sample n of the next frame is a sub-rate tick (42_audio_render.md R196). -/
def tickAt (s : State) (n : Nat) : Bool := (s.subcnt.toNat + n) % 256 == 255

/-- A generator before sample n of the next frame, whatever the others do. -/
def genAt (s : State) (G : Generator) : Nat → Generator
  | 0 => G
  | n + 1 => (oscStep s.params (tickAt s n) (genAt s G n)).2

/-- What a generator adds to each channel at sample n. -/
def partAt (s : State) (G : Generator) (n : Nat) : Int × Int := (oscStep s.params (tickAt s n) (genAt s G n)).1

/-- What the effect adds to the left channel at sample n (42_audio_render.md R200). -/
def effectAt (s : State) (n : Nat) : Int :=
  if s.fx.active = true ∧ s.fx.pos.toNat + n < s.fx.len.toNat then s.fxSample (s.fx.pos.toNat + n) else 0

/-- A generator that would divide by zero (42_audio_render.md R191). -/
def zeroDivisor (G : Generator) : Prop := G.voice ≠ .muted ∧ (G.divL = 0 ∨ G.divR = 0)

/-! ### Pixels -/

/-- The byte a sprite puts on frame pixel (x, y), if it puts one (44_sprites.md R235). -/
def spritePixel (s : State) (y x : Nat) (S : Sprite) : Option Byte :=
  if S.visible = true ∧ (S.y.toNat ≤ y ∧ y < S.y.toNat + S.h.toNat) ∧ (S.x.toNat ≤ x ∧ x < S.x.toNat + S.w.toNat) then
    let tile := s.readByte (0x02000000 + (S.tileBase.toNat + (y - S.y.toNat) * S.w.toNat + (x - S.x.toNat)))
    if tile = S.key then none else some tile
  else none

/-- A sprite that reaches outside the frame buffer or reads outside TILE_RAM (44_sprites.md R235). -/
def spriteOutside (p : Params) (S : Sprite) : Prop :=
  S.visible = true ∧ (p.fbW < S.x.toNat + S.w.toNat ∨ p.fbH < S.y.toNat + S.h.toNat ∨
    p.tileCap < S.tileBase.toNat + S.w.toNat * S.h.toNat)

/-- The register TEXT(k). -/
def textReg : Nat → Reg
  | 0 => .text0
  | 1 => .text1
  | 2 => .text2
  | _ => .text3

/-- Character j: byte (j mod 4) of TEXT(j div 4) (10_state.md R28). -/
def character (s : State) (j : Nat) : Nat := (s.readReg (textReg (j / 4))).toNat / 256 ^ (j % 4) % 256

/-- The text sets frame pixel (x, y): some character's glyph has a 1 bit there, bit 0 leftmost (45_overlay.md R256, R257). -/
def textPixel (s : State) (y x : Nat) : Prop :=
  ∃ j r c, j < s.ovl.textLen.toNat ∧ r < 16 ∧ c < 8 ∧ y = s.ovl.y.toNat + r ∧ x = s.ovl.x.toNat + 8 * j + c ∧
    (s.font (character s j) r).toNat / 2 ^ c % 2 = 1

/-- There is text and its box leaves the frame buffer (45_overlay.md R258). -/
def textOutside (s : State) : Prop :=
  0 < s.ovl.textLen.toNat ∧
    (s.params.fbW < s.ovl.x.toNat + 8 * s.ovl.textLen.toNat ∨ s.params.fbH < s.ovl.y.toNat + 16)

/-! ### The address map as ranges (20_memory.md R71, 10_state.md R22, R30, R38) -/

/-- A byte of a register that exists. -/
def registerByte (p : Params) (a : Nat) : Prop :=
  a < 0x3C ∨ (0x40 ≤ a ∧ a < 0x5C) ∨ (0x100 ≤ a ∧ a < 0x100 + 0x20 * p.ngen) ∨
  (0x300 ≤ a ∧ a < 0x300 + 0x20 * p.nspr ∧ (a - 0x300) % 0x20 < 0x10)

/-- A byte of a read-only memory. -/
def romRange (p : Params) (a : Nat) : Prop :=
  (0x00010000 ≤ a ∧ a < 0x00010000 + 8 * p.waveLen) ∨ (0x00020000 ≤ a ∧ a < 0x00020C00) ∨ (0x00030000 ≤ a ∧ a < 0x00031000)

/-- A byte of a read-write memory. -/
def ramRange (p : Params) (a : Nat) : Prop :=
  (0x00100000 ≤ a ∧ a < 0x00100000 + 4 * p.frameSamples) ∨ (0x00200000 ≤ a ∧ a < 0x00200000 + 2 * p.fxCap) ∨
  (0x01000000 ≤ a ∧ a < 0x01000000 + p.bgW * p.bgH) ∨ (0x02000000 ≤ a ∧ a < 0x02000000 + p.tileCap) ∨
  (0x03000000 ≤ a ∧ a < 0x03000000 + p.fbW * p.fbH)

/-- An access that raises ADDR_ERROR (20_memory.md R75, R76, R77). -/
def badAddress (p : Params) (a : HostAccess) : Prop :=
  (a.offset.toNat < 0x1000 ∧ a.width ≠ .w32) ∨ a.offset.toNat % a.width.bytes ≠ 0 ∨
  (∃ i, i < a.width.bytes ∧ ¬ (registerByte p (a.offset.toNat + i) ∨ romRange p (a.offset.toNat + i) ∨
    ramRange p (a.offset.toNat + i))) ∨
  (a.isWrite = true ∧ romRange p a.offset.toNat)

/-- The offsets a busy block lets the host read: ID, STATUS, FAULT_INFO and the CFG registers (46_control.md R282). -/
def busyReadable (off : Nat) : Prop := off = 0x000 ∨ off = 0x008 ∨ off = 0x00C ∨ (0x040 ≤ off ∧ off ≤ 0x058 ∧ off % 4 = 0)

/-- What recording a fault leaves in the record: the first one stays (60_exceptions.md R300). -/
def firstFault (old : Option FaultRecord) (code : FaultCode) (info : Word) : Option FaultRecord :=
  match old with
  | none => some ⟨code, info⟩
  | some r => some r

/-- The bits of a register that hold what the host writes (10_state.md R22, R30, R38); FX_LEN and OVL_CTRL, which are WARL, and
CMD are not of this kind. -/
def storedBits : Reg → Word
  | .frameIndex => 0xFFFFFFFF
  | .ovlPos => 0xFFFFFFFF
  | .text0 => 0xFFFFFFFF
  | .text1 => 0xFFFFFFFF
  | .text2 => 0xFFFFFFFF
  | .text3 => 0xFFFFFFFF
  | .gen _ .phase => 0xFFFFFFFF
  | .gen _ .phaseDelta => 0xFFFFFFFF
  | .gen _ .phaseDDelta => 0xFFFFFFFF
  | .gen _ .vol => 0x0000FFFF
  | .gen _ .volDelta => 0x0000FFFF
  | .gen _ .gain => 0xFFFFFFFF
  | .spr _ .sprCtrl => 0x0000FF01
  | .spr _ .sprPos => 0xFFFFFFFF
  | .spr _ .sprSize => 0xFFFFFFFF
  | .spr _ .sprTile => 0xFFFFFFFF
  | _ => 0

/-- The registers only the host and reset write (10_state.md R24, R27, R28, R33, R34, R36, R38). -/
def hostOwned : Reg → Prop
  | .frameIndex => True
  | .fxLen => True
  | .ovlPos => True
  | .ovlCtrl => True
  | .text0 => True
  | .text1 => True
  | .text2 => True
  | .text3 => True
  | .gen _ .phaseDDelta => True
  | .gen _ .volDelta => True
  | .gen _ .gain => True
  | .spr _ _ => True
  | _ => False

/-- The registers no host write changes: the RO ones (10_state.md R22, R30), less STATUS and FAULT_INFO, which show faults and
commands. -/
def engineOwned : Reg → Prop
  | .id => True
  | .subcnt => True
  | .fxCtrl => True
  | .fxPos => True
  | .cfgFrameSamples => True
  | .cfgFb => True
  | .cfgBg => True
  | .cfgCounts => True
  | .cfgFxCap => True
  | .cfgTileCap => True
  | .cfgTables => True
  | .gen _ .genCtrl => True
  | .gen _ .envAmp => True
  | _ => False

/-- The three commands that write FB_RAM. -/
def isVideo (i : Instr) : Prop := i = .compositeBg ∨ i = .drawSprites ∨ i = .drawOverlay

/-- A real number rounded to the nearest integer, halves away from zero (00_scope.md R9). -/
def IsRound (x : ℝ) (n : Int) : Prop := if 0 ≤ x then n = ⌊x + 1 / 2⌋ else n = ⌈x - 1 / 2⌉

/-- A real number rounded toward zero (00_scope.md R9). -/
def IsTrunc (x : ℝ) (n : Int) : Prop := if 0 ≤ x then n = ⌊x⌋ else n = ⌈x⌉

end Sys2Proof.Machine.Claims

open Sys2Proof Sys2Proof.Machine Sys2Proof.Machine.Claims

/-! ## Encoding -/

/-- Decoding the word of any well-formed command gives it back, every operand at every value of its field. -/
def Obligations.DecodeOfEncodeIsTheCommand : Prop := ∀ i : Instr, i.wf = true → decode (encode i) = .ok i

/-- A decoded command is well-formed, and its word is the one it was decoded from: no two words are one command. -/
def Obligations.EncodeOfDecodeIsTheWord : Prop :=
  ∀ (w : Word) (i : Instr), decode w = .ok i → i.wf = true ∧ encode i = w

/-- 30_encoding.md R103. -/
def Obligations.WordIsCommandExactlyWhenARowMatches : Prop :=
  ∀ w : Word,
    ((∃ i, decode w = .ok i) ↔ ∃ row ∈ rows, w &&& row.mask = row.pattern) ∧
    (∀ row ∈ rows, w &&& row.mask = row.pattern ↔ ∃ i, decode w = .ok i ∧ mnemonic i = row.mnemonic) ∧
    (∀ row ∈ rows, ∀ row' ∈ rows, w &&& row.mask = row.pattern → w &&& row'.mask = row'.pattern →
      row.mnemonic = row'.mnemonic)

/-- The words of 30_encoding.md R112, and one whose low bits are reserved. -/
def Obligations.ExampleWordsDecode : Prop :=
  decode 0x01000000 = .ok (.keyon 0 0 0) ∧ decode 0x01000532 = .ok (.keyon 2 3 5) ∧
  decode 0x0100031F = .ok (.keyon 15 1 3) ∧ decode 0x02000003 = .ok (.mute 3) ∧
  decode 0x10000000 = .ok .renderAudio ∧ decode 0x22000000 = .ok .drawOverlay ∧
  decode 0x00000001 = .error .reservedBits

/-- 30_encoding.md R106: such a command has an encoding, and each of its words, executed, raises BAD_OPERAND with that word. -/
def Obligations.MeaninglessOperandRaisesBadOperand : Prop :=
  ∀ (s : State) (i : Instr), i.wf = true → meaningless s.params i → s.faultRec = none →
    decode (encode i) = .ok i ∧
    ∀ w, decode w = .ok i → exec i s = .next { s with faultRec := some ⟨.badOperand, w⟩ }

/-! ## Reset and the invariant -/

/-- 10_state.md R43 with the tables of R22, R30 and R38: every register that is mapped in a legal block. What CFG_FB and CFG_BG show
of a height above 65535 is the model's reading (notes/assumptions/9.md). -/
def Obligations.ResetGivesEveryRegisterItsValue : Prop :=
  ∀ (p : Params) (epoch off : Nat) (r : Reg), p.Legal → regAt p off = some r →
    (State.resetWith p epoch).readReg r = resetValue p r ∧ (State.resetWith p epoch).pending = none

/-- The invariant holds after the reset of every legal block. -/
def Obligations.ResetMeetsTheInvariant : Prop := ∀ (p : Params) (epoch : Nat), p.Legal → (State.resetWith p epoch).Inv

/-- Every step keeps the invariant: legal parameters, bank and table of their sizes, silent muted generators (R37), amplitudes in
0..255, legal FX_LEN and TEXT_LEN, and a RAM list in canonical form that holds RAM bytes only. -/
def Obligations.EveryStepKeepsTheInvariant : Prop := ∀ s t : State, s.Inv → step s = .next t → t.Inv

/-- In a legal block every step answers a next state: no command, no access and no reset stops the machine. -/
def Obligations.LegalBlockNeverStops : Prop := ∀ s : State, s.params.Legal → ∃ t, step s = .next t

/-- 70_reset_and_hazards.md R330 (a), (b), (d) as an event. That the model keeps the parameters and the host's later events, and
sets its own reply to 0, is its choice (notes/assumptions/12.md), and so is what CFG_FB and CFG_BG show of a height above 65535
(notes/assumptions/9.md). -/
def Obligations.PlatformResetRestoresTheBlock : Prop :=
  ∀ (s : State) (rest : List Event), s.params.Legal → s.inputs = .reset :: rest →
    ∃ t, step s = .next t ∧ t.params = s.params ∧ t.inputs = rest ∧ t.pending = none ∧ t.hostData = 0 ∧
      (∀ off r, regAt s.params off = some r → t.readReg r = resetValue s.params r) ∧
      (∀ a, ramRange s.params a → t.readByte a = Config.ramDraw (s.ramEpoch + 1) a) ∧
      (∀ a, romRange s.params a → t.readByte a = s.readByte a)

/-! ## The engine step -/

/-- 46_control.md R281: not enabled while BUSY = 0; PENDING discarded when a fault is recorded; otherwise the decoded command's
effect, or ILLEGAL_CMD with the word; BUSY = 0 after it. -/
def Obligations.EngineStepRunsTheLatchedCommand : Prop :=
  ∀ (s : State) (rest : List Event), s.params.Legal → engineNext s rest →
    (s.pending = none → step s = .next { s with inputs := rest }) ∧
    (∀ w r, s.pending = some w → s.faultRec = some r → step s = .next { s with inputs := rest, pending := none }) ∧
    (∀ w i t, s.pending = some w → s.faultRec = none → decode w = .ok i → exec i { s with inputs := rest } = .next t →
      step s = .next { t with pending := none }) ∧
    (∀ w e, s.pending = some w → s.faultRec = none → decode w = .error e →
      step s = .next { s with inputs := rest, pending := none, faultRec := some ⟨.illegalCmd, w⟩ })

/-- 30_encoding.md R105 as the host sees it: STATUS and FAULT_INFO after an illegal word, nothing else changed, BUSY = 0. -/
def Obligations.UnmatchedWordRaisesIllegalCmd : Prop :=
  ∀ (s : State) (rest : List Event) (w : Word), s.params.Legal → engineNext s rest → s.pending = some w →
    s.faultRec = none → (∀ row ∈ rows, w &&& row.mask ≠ row.pattern) →
    ∃ t, step s = .next t ∧ t.readReg .status = 0x00000102 ∧ t.readReg .faultInfo = w ∧
      t = { s with inputs := rest, pending := none, faultRec := t.faultRec }

/-- The frame of all eight commands: the registers and bytes of their "state written" lines, and, only when a fault is recorded,
STATUS and FAULT_INFO. -/
def Obligations.CommandsWriteOnlyWhatTheirRulesName : Prop :=
  ∀ (i : Instr) (s t : State), exec i s = .next t →
    Frame s t (fun r => commandRegs i r ∨ (t.faultRec ≠ s.faultRec ∧ (r = .status ∨ r = .faultInfo)))
      (commandBytes s i)

/-- Faults are precise: a command that records a fault changes nothing but the record (60_exceptions.md section 1). -/
def Obligations.FaultingCommandChangesOnlyTheRecord : Prop :=
  ∀ (i : Instr) (s t : State), exec i s = .next t → t.faultRec ≠ s.faultRec →
    s.faultRec = none ∧ t = { s with faultRec := t.faultRec }

/-- The engine never writes a register that belongs to the host: FRAME_INDEX, FX_LEN, the overlay and text registers, PHASE_DDELTA,
VOL_DELTA, GAIN and the sprite registers. -/
def Obligations.EngineNeverWritesHostRegisters : Prop :=
  ∀ (s t : State) (rest : List Event) (r : Reg), engineNext s rest → step s = .next t → hostOwned r →
    t.readReg r = s.readReg r

/-! ## NOP, KEYON, MUTE, TRIGGER_FX -/

/-- NOP completes in every state, and CMD NOP followed by the engine's turn leaves an idle block as it was. -/
def Obligations.NopHandshakeChangesNothing : Prop :=
  ∀ (s : State) (rest : List Event), exec .nop s = .next s ∧
    (s.params.Legal → s.pending = none → s.faultRec = none → s.inputs = Program.cmd .nop :: .engineTurn :: rest →
      ∃ t, step s = .next t ∧ t.readReg .status = 0x00000001 ∧ step t = .next { s with inputs := rest })

/-- KEYON: GEN_CTRL shows VOICE and ENV, ENV_AMP is the ENV_ROM entry at the envelope position of VOL, nothing else changes. -/
def Obligations.KeyonStartsTheGenerator : Prop :=
  ∀ (s : State) (g v e : Nat), s.params.Legal → s.gens.length = s.params.ngen → g < s.params.ngen → v ≤ 3 → e ≤ 5 →
    ∃ t, exec (.keyon g v e) s = .next t ∧
      (t.readReg (.gen g .genCtrl)).toNat = 256 * e + v ∧
      (t.readReg (.gen g .envAmp)).toNat =
        s.memRead (0x00020000 + 2 * (e * 256 + (s.readReg (.gen g .vol)).toNat / 256)) 2 ∧
      Frame s t (fun r => r = .gen g .genCtrl ∨ r = .gen g .envAmp) noByte

/-- MUTE: VOICE is 0xF and ENV stays, ENV_AMP is 0, nothing else changes; on a muted generator nothing changes at all. -/
def Obligations.MuteSilencesTheGenerator : Prop :=
  ∀ (s : State) (g : Nat), s.Inv → g < s.params.ngen →
    ∃ t, exec (.mute g) s = .next t ∧
      (t.readReg (.gen g .genCtrl)).toNat = (s.readReg (.gen g .genCtrl)).toNat / 256 * 256 + 15 ∧
      t.readReg (.gen g .envAmp) = 0 ∧
      Frame s t (fun r => r = .gen g .genCtrl ∨ r = .gen g .envAmp) noByte ∧
      ((s.readReg (.gen g .genCtrl)).toNat % 16 = 15 → t = s)

/-- TRIGGER_FX: FX_POS = 0, FX_ACTIVE = 1, nothing else changes. -/
def Obligations.TriggerFxRestartsTheEffect : Prop :=
  ∀ s : State, ∃ t, exec .triggerFx s = .next t ∧ t.readReg .fxPos = 0 ∧ t.readReg .fxCtrl = 1 ∧
    Frame s t (fun r => r = .fxPos ∨ r = .fxCtrl) noByte

/-! ## The oscillator step -/

/-- 41_tone_generator.md R171 and R172. -/
def Obligations.ContributionIsTheTruncatedQuotient : Prop :=
  ∀ (p : Params) (tick : Bool) (G : Generator) (w : Waveform), p.Legal → G.voice = .playing w → G.divL ≠ 0 → G.divR ≠ 0 →
    ∃ (idx : Nat) (prod : Int), idx = (G.phase >>> (32 - p.waveIdxBits)).toNat ∧ idx < p.waveLen ∧
      prod = waveEntry p w idx * G.envAmp.toInt ∧
      IsTrunc ((prod : ℝ) / G.divL.toNat) (oscStep p tick G).1.1 ∧
      IsTrunc ((prod : ℝ) / G.divR.toNat) (oscStep p tick G).1.2

/-- 41_tone_generator.md R175 over a whole frame: a generator muted at the start keeps every register, and whatever else its
registers hold changes no sample. -/
def Obligations.MutedGeneratorIsSkipped : Prop :=
  (∀ (p : Params) (tick : Bool) (G : Generator), G.voice = .muted → oscStep p tick G = ((0, 0), G)) ∧
  ∀ (s t u : State) (g : Nat) (G H : Generator), s.gens[g]? = some G → G.voice = .muted → H.voice = .muted →
    exec .renderAudio s = .next t → exec .renderAudio { s with gens := s.gens.set g H } = .next u →
    t.gens[g]? = some G ∧ u.gens[g]? = some H ∧ ∀ a, u.readByte a = t.readByte a

/-- 41_tone_generator.md R176: nothing for a generator already muted; else the headroom test, the new VOL and the entry at it, muting
otherwise; the sample's own contribution and the phase are those of a sample without a tick, which leaves VOL, ENV_AMP and VOICE
alone. -/
def Obligations.EnvelopeStepFollowsTheHeadroomTest : Prop :=
  (∀ (p : Params) (G : Generator), G.voice = .muted → (oscStep p true G).2 = G) ∧
  ∀ (p : Params) (G : Generator) (w : Waveform), G.voice = .playing w →
    (oscStep p true G).1 = (oscStep p false G).1 ∧
    ((oscStep p false G).2.vol = G.vol ∧ (oscStep p false G).2.envAmp = G.envAmp ∧ (oscStep p false G).2.voice = G.voice) ∧
    ((G.vol.toNat : Int) < 0xFFFF - G.volDelta.toNat →
      (oscStep p true G).2.vol.toNat = G.vol.toNat + G.volDelta.toNat ∧ G.vol.toNat + G.volDelta.toNat ≤ 0xFFFE ∧
      (oscStep p true G).2.envAmp.toInt = envEntry G.env ((G.vol.toNat + G.volDelta.toNat) / 256) ∧
      (oscStep p true G).2 = { (oscStep p false G).2 with
        vol := (oscStep p true G).2.vol, envAmp := (oscStep p true G).2.envAmp }) ∧
    (¬ ((G.vol.toNat : Int) < 0xFFFF - G.volDelta.toNat) →
      (oscStep p true G).2 = { (oscStep p false G).2 with voice := .muted, envAmp := 0 })

/-- While a generator plays, its phase after n samples is quadratic in n, modulo 2^32 (the glide of 41_tone_generator.md
section 2), and no other waveform, gain or glide register moves. -/
def Obligations.GlideIsQuadratic : Prop :=
  ∀ (s : State) (G : Generator) (n : Nat), (∀ m, m < n → (genAt s G m).voice ≠ .muted) →
    (genAt s G n).phase =
      G.phase + BitVec.ofNat 32 n * G.phaseDelta + BitVec.ofNat 32 (n * (n - 1) / 2) * G.phaseDDelta ∧
    (genAt s G n).phaseDelta = G.phaseDelta + BitVec.ofNat 32 n * G.phaseDDelta ∧
    (genAt s G n).phaseDDelta = G.phaseDDelta ∧ (genAt s G n).env = G.env ∧ (genAt s G n).volDelta = G.volDelta ∧
    (genAt s G n).divL = G.divL ∧ (genAt s G n).divR = G.divR

/-- With a constant delta d that divides 2^32 the waveform index repeats after 2^32 / d samples. -/
def Obligations.ConstantDeltaRepeatsTheIndex : Prop :=
  ∀ (s : State) (G : Generator) (d n : Nat), G.phaseDDelta = 0 → G.phaseDelta.toNat = d → 0 < d → 2 ^ 32 % d = 0 →
    (∀ m, m < n + 2 ^ 32 / d → (genAt s G m).voice ≠ .muted) →
    (genAt s G (n + 2 ^ 32 / d)).phase >>> (32 - s.params.waveIdxBits) =
      (genAt s G n).phase >>> (32 - s.params.waveIdxBits)

/-- A LINEAR envelope from VOL = 0 with VOL_DELTA = 0x100: one tick in every 256 samples wherever SUBCNT stands, ENV_AMP = 255 - k
after tick k up to 255, and muted for good from tick 256 on. -/
def Obligations.LinearDecayRunsOut : Prop :=
  ∀ (s : State) (G : Generator) (w : Waveform), G.voice = .playing w → G.env = .linear → G.vol = 0 → G.volDelta = 0x100 →
    (∀ k, 1 ≤ k → k ≤ 255 → (genAt s G (256 * k)).voice = .playing w ∧ (genAt s G (256 * k)).vol.toNat = 0x100 * k ∧
      (genAt s G (256 * k)).envAmp.toNat = 255 - k) ∧
    (∀ n, 65536 ≤ n → (genAt s G n).voice = .muted ∧ (genAt s G n).envAmp = 0)

/-- A muted generator stays muted and silent in every step but an engine step that executes, with no fault recorded, a KEYON of it with
a meaningful voice and envelope. A KEYON that is latched, discarded, reset away or raises BAD_OPERAND does not unmute it. -/
def Obligations.KeyonIsTheOnlyWayOutOfMuted : Prop :=
  ∀ (s t : State) (g : Nat) (G : Generator), s.Inv → s.gens[g]? = some G → G.voice = .muted → step s = .next t →
    (∀ rest w v e, engineNext s rest → s.faultRec = none → s.pending = some w → v ≤ 3 → e ≤ 5 →
      decode w ≠ .ok (.keyon g v e)) →
    ∃ H, t.gens[g]? = some H ∧ H.voice = .muted ∧ H.envAmp = 0

/-! ## RENDER_AUDIO -/

/-- 42_audio_render.md R191: the lowest unmuted generator with a zero divisor makes the command raise DIV_ZERO before any change;
with none the command records no fault, and no muted generator is unmuted by it. -/
def Obligations.ZeroDivisorRaisesDivZero : Prop :=
  ∀ s : State, s.faultRec = none →
    (∀ g G, s.gens[g]? = some G → zeroDivisor G → (∀ h H, h < g → s.gens[h]? = some H → ¬ zeroDivisor H) →
      exec .renderAudio s = .next { s with faultRec := some ⟨.divZero, BitVec.ofNat 32 g⟩ }) ∧
    ((∀ G ∈ s.gens, ¬ zeroDivisor G) → ∃ t, exec .renderAudio s = .next t ∧ t.faultRec = none ∧
      ∀ (g : Nat) (G : Generator), s.gens[g]? = some G → G.voice = .muted → t.gens[g]? = some G)

/-- RENDER_AUDIO completes and writes, for every sample, the two exact sums wrapped to 16 bits: each generator's contribution from
its own history, and the effect on the left only. -/
def Obligations.RenderWritesTheWrappedSums : Prop :=
  ∀ s : State, s.params.Legal → (∀ G ∈ s.gens, ¬ zeroDivisor G) →
    ∃ t, exec .renderAudio s = .next t ∧ ∀ n, n < s.params.frameSamples →
      t.aud (2 * n) = Int.bmod ((s.gens.map fun G => (partAt s G n).1).sum + effectAt s n) 65536 ∧
      t.aud (2 * n + 1) = Int.bmod (s.gens.map fun G => (partAt s G n).2).sum 65536

/-- RENDER_AUDIO's end state: each generator at the end of its own history, SUBCNT advanced by FRAME_SAMPLES mod 256, FX_POS moved
by the samples mixed, every other register and every byte outside AUD_RAM as before. -/
def Obligations.RenderAdvancesTheCounters : Prop :=
  ∀ s : State, (∀ G ∈ s.gens, ¬ zeroDivisor G) →
    ∃ t, exec .renderAudio s = .next t ∧ t.gens = s.gens.map (fun G => genAt s G s.params.frameSamples) ∧
      (t.readReg .subcnt).toNat = ((s.readReg .subcnt).toNat + s.params.frameSamples) % 256 ∧
      (t.readReg .fxPos).toNat =
        (if s.fx.active = true then max s.fx.pos.toNat (min (s.fx.pos.toNat + s.params.frameSamples) s.fx.len.toNat)
         else s.fx.pos.toNat) ∧
      Frame s t (commandRegs .renderAudio) (commandBytes s .renderAudio)

/-- The audio frame is fully overwritten: what AUD_RAM held before changes nothing after. -/
def Obligations.AudioFrameForgetsItsOldBytes : Prop :=
  ∀ (s t u : State) (a : Nat) (bs : List Byte), s.Inv → (∀ G ∈ s.gens, ¬ zeroDivisor G) → 0x00100000 ≤ a →
    a + bs.length ≤ 0x00100000 + 4 * s.params.frameSamples →
    exec .renderAudio s = .next t → exec .renderAudio (s.memWrite a bs) = .next u →
    (∀ x, u.readByte x = t.readByte x) ∧ ∀ r, u.readReg r = t.readReg r

/-- A muted bank and no effect left to play: every sample is 0, and only SUBCNT and AUD_RAM change. So it is right after reset. -/
def Obligations.SilentFrameIsAllZero : Prop :=
  (∀ s : State, s.params.Legal → (∀ G ∈ s.gens, G.voice = .muted) →
    (s.fx.active = false ∨ s.fx.len.toNat ≤ s.fx.pos.toNat) →
    ∃ t, exec .renderAudio s = .next t ∧ (∀ k, k < 2 * s.params.frameSamples → t.aud k = 0) ∧
      Frame s t (fun r => r = .subcnt) (commandBytes s .renderAudio)) ∧
  ∀ (p : Params) (epoch : Nat), p.Legal → ∃ t, exec .renderAudio (State.resetWith p epoch) = .next t ∧
    (∀ k, k < 2 * p.frameSamples → t.aud k = 0) ∧ (t.readReg .subcnt).toNat = p.frameSamples % 256

/-- The order of the generators in the bank changes no sample. -/
def Obligations.GeneratorOrderChangesNoSample : Prop :=
  ∀ (s t u : State) (bank : List Generator), bank.Perm s.gens → (∀ G ∈ s.gens, ¬ zeroDivisor G) →
    exec .renderAudio s = .next t → exec .renderAudio { s with gens := bank } = .next u →
    ∀ a, u.readByte a = t.readByte a

/-! ## Video -/

/-- 43_background.md R221 and R222: band k shows the background at column (x + FRAME_INDEX*(k+1)) mod BG_W, exactly, on its own
rows; every row of the frame is in a band. -/
def Obligations.CompositeScrollsEveryBand : Prop :=
  ∀ s : State, s.params.Legal →
    ∃ t, exec .compositeBg s = .next t ∧
      (∀ k y x, k < s.params.nbands → k * (s.params.fbH / s.params.nbands) ≤ y → y < (k + 1) * (s.params.fbH / s.params.nbands) →
        x < s.params.fbW → t.fb y x = s.bg y ((x + (s.readReg .frameIndex).toNat * (k + 1)) % s.params.bgW)) ∧
      (∀ y, y < s.params.fbH → ∃ k, k < s.params.nbands ∧ k * (s.params.fbH / s.params.nbands) ≤ y ∧
        y < (k + 1) * (s.params.fbH / s.params.nbands)) ∧
      Frame s t noReg (commandBytes s .compositeBg)

/-- The lowest visible slot that leaves the frame buffer or TILE_RAM makes DRAW_SPRITES raise SPRITE_BOUNDS with its number, and
nothing is drawn. -/
def Obligations.SpriteOutsideRaisesSpriteBounds : Prop :=
  ∀ (s : State) (i : Nat) (S : Sprite), s.faultRec = none → s.sprites[i]? = some S → spriteOutside s.params S →
    (∀ j T, j < i → s.sprites[j]? = some T → ¬ spriteOutside s.params T) →
    exec .drawSprites s = .next { s with faultRec := some ⟨.spriteBounds, BitVec.ofNat 32 i⟩ }

/-- DRAW_SPRITES completes when every visible sprite is inside; each pixel is that of the highest slot that puts one there, else the
old pixel; a key-coloured or invisible one puts none. -/
def Obligations.HighestSlotWinsEveryPixel : Prop :=
  ∀ s : State, s.params.Legal → (∀ S ∈ s.sprites, ¬ spriteOutside s.params S) →
    ∃ t, exec .drawSprites s = .next t ∧
      (∀ y x, y < s.params.fbH → x < s.params.fbW →
        t.fb y x = (s.sprites.reverse.findSome? (spritePixel s y x)).getD (s.fb y x)) ∧
      Frame s t noReg (commandBytes s .drawSprites)

/-- Text outside the frame buffer makes DRAW_OVERLAY raise OVERLAY_BOUNDS with info 0, and nothing is drawn. -/
def Obligations.TextOutsideRaisesOverlayBounds : Prop :=
  ∀ s : State, s.faultRec = none → textOutside s →
    exec .drawOverlay s = .next { s with faultRec := some ⟨.overlayBounds, 0⟩ }

/-- DRAW_OVERLAY completes when the text is inside or empty; a pixel under a set glyph bit is FG_COLOR, every other pixel is left as
it was. -/
def Obligations.OverlaySetsOnlyGlyphPixels : Prop :=
  ∀ s : State, s.params.Legal → s.ovl.textLen.toNat ≤ 16 → ¬ textOutside s →
    ∃ t, exec .drawOverlay s = .next t ∧
      (∀ y x, y < s.params.fbH → x < s.params.fbW →
        (textPixel s y x → (t.fb y x).toNat = (s.readReg .ovlCtrl).toNat % 256) ∧
        (¬ textPixel s y x → t.fb y x = s.fb y x)) ∧
      Frame s t noReg (commandBytes s .drawOverlay)

/-- Audio and video share no state: when no fault is recorded, RENDER_AUDIO before a video command or after it gives the same state. -/
def Obligations.AudioAndVideoCommute : Prop :=
  ∀ (s t₁ t₂ u₁ u₂ : State) (i : Instr), s.Inv → isVideo i →
    exec .renderAudio s = .next t₁ → exec i t₁ = .next t₂ → exec i s = .next u₁ → exec .renderAudio u₁ = .next u₂ →
    t₂.faultRec = none → t₂ = u₂

/-! ## Host accesses -/

/-- 20_memory.md R75, R76, R77: such an access raises ADDR_ERROR with its offset; nothing changes but the record of the first fault,
and a read returns 0. -/
def Obligations.BadAddressRaisesAddrError : Prop :=
  ∀ (s : State) (a : HostAccess) (rest : List Event), s.params.Legal → s.inputs = .access a :: rest → badAddress s.params a →
    step s = .next { s with
      inputs := rest, faultRec := firstFault s.faultRec .addrError a.offset,
      hostData := if a.isWrite then s.hostData else 0 }

/-- 46_control.md R282: while BUSY = 1 a read of ID, STATUS, FAULT_INFO or a CFG register returns it and changes nothing; every
other access with a good address raises BUSY_ACCESS, is not performed, and its read returns 0; the command in flight is then
discarded. -/
def Obligations.BusyBlockAllowsOnlyStatusReads : Prop :=
  ∀ (s : State) (a : HostAccess) (rest : List Event) (w : Word), s.params.Legal → s.pending = some w →
    s.inputs = .access a :: rest → ¬ badAddress s.params a →
    (a.isWrite = false ∧ busyReadable a.offset.toNat →
      ∃ r, regAt s.params a.offset.toNat = some r ∧ step s = .next { s with inputs := rest, hostData := s.readReg r }) ∧
    (¬ (a.isWrite = false ∧ busyReadable a.offset.toNat) →
      ∃ t, step s = .next t ∧ t = { s with
          inputs := rest, faultRec := firstFault s.faultRec .busyAccess a.offset,
          hostData := if a.isWrite then s.hostData else 0 } ∧
        ∀ rest', engineNext t rest' → step t = .next { t with inputs := rest', pending := none })

/-- 46_control.md R280: a CMD write is ignored while FAULT = 1, raises BUSY_ACCESS while BUSY = 1, and is otherwise latched without
looking at the word. -/
def Obligations.CmdWriteLatchesTheWord : Prop :=
  ∀ (s : State) (rest : List Event) (w : Word), s.params.Legal → s.inputs = .access (.write 0x004 .w32 w) :: rest →
    (∀ r, s.faultRec = some r → step s = .next { s with inputs := rest }) ∧
    (∀ v, s.faultRec = none → s.pending = some v →
      step s = .next { s with inputs := rest, faultRec := some ⟨.busyAccess, 0x004⟩ }) ∧
    (s.faultRec = none → s.pending = none → step s = .next { s with inputs := rest, pending := some w })

/-- RAM is plain little-endian storage: after a write with a good address outside REGS, each of its bytes reads as that byte of the
value, every other byte as before, no register changes, and a read of the same width returns the value's low bytes. That a narrow
write takes the low bytes of the value is the model's reading (notes/assumptions/18.md), and that a narrow read is extended with zeros
its choice (notes/assumptions/5.md). -/
def Obligations.RamWriteIsReadBack : Prop :=
  ∀ (s : State) (off : Word) (n : Width) (v : Word) (rest : List Event), s.params.Legal → s.pending = none →
    s.inputs = .access (.write off n v) :: .access (.read off n) :: rest → ¬ badAddress s.params (.write off n v) →
    0x1000 ≤ off.toNat →
    ∃ t u, step s = .next t ∧
      (∀ i, i < n.bytes → (t.readByte (off.toNat + i)).toNat = v.toNat / 256 ^ i % 256) ∧
      (∀ x, ¬ (off.toNat ≤ x ∧ x < off.toNat + n.bytes) → t.readByte x = s.readByte x) ∧
      (∀ r, t.readReg r = s.readReg r) ∧ step t = .next u ∧
      u.hostData.toNat = v.toNat % 256 ^ n.bytes ∧ u = { t with inputs := rest, hostData := u.hostData }

/-- 46_control.md R286 for the registers that are neither WARL nor CMD: the RW bits take the value, the other bits keep theirs, no
other register and no byte changes, and a read then returns the register. -/
def Obligations.RegisterWriteStoresTheWritableBits : Prop :=
  ∀ (s : State) (off v : Word) (r : Reg) (rest : List Event), s.params.Legal → s.gens.length = s.params.ngen →
    s.sprites.length = s.params.nspr → s.pending = none →
    s.inputs = .access (.write off .w32 v) :: .access (.read off .w32) :: rest → regAt s.params off.toNat = some r →
    r ≠ .cmd → r ≠ .fxLen → r ≠ .ovlCtrl →
    ∃ t, step s = .next t ∧ t.readReg r = (s.readReg r &&& ~~~ storedBits r) ||| (v &&& storedBits r) ∧
      (∀ q, q ≠ r → t.readReg q = s.readReg q) ∧ (∀ a, t.readByte a = s.readByte a) ∧
      step t = .next { t with inputs := rest, hostData := t.readReg r }

/-- 10_state.md R27: FX_LEN stores min(v, FX_CAP); FX_POS, FX_ACTIVE and every other register and byte stay. -/
def Obligations.FxLenStoresTheLegalLength : Prop :=
  ∀ (s : State) (v : Word) (rest : List Event), s.params.Legal → s.pending = none →
    s.inputs = .access (.write 0x020 .w32 v) :: rest →
    ∃ t, step s = .next t ∧ (t.readReg .fxLen).toNat = min v.toNat s.params.fxCap ∧
      (∀ r, r ≠ .fxLen → t.readReg r = s.readReg r) ∧ ∀ a, t.readByte a = s.readByte a

/-- OVL_CTRL stores FG_COLOR and min(TEXT_LEN, 16), nothing else changes. That TEXT_LEN is the written 5-bit field is the model's
reading (notes/assumptions/11.md). -/
def Obligations.OvlCtrlStoresTheLegalTextLength : Prop :=
  ∀ (s : State) (v : Word) (rest : List Event), s.params.Legal → s.pending = none →
    s.inputs = .access (.write 0x028 .w32 v) :: rest →
    ∃ t, step s = .next t ∧
      (t.readReg .ovlCtrl).toNat = v.toNat % 256 + 2 ^ 16 * min (v.toNat / 2 ^ 16 % 32) 16 ∧
      (∀ r, r ≠ .ovlCtrl → t.readReg r = s.readReg r) ∧ ∀ a, t.readByte a = s.readByte a

/-- No host access changes a read-only register other than STATUS and FAULT_INFO. -/
def Obligations.HostNeverChangesReadOnlyRegisters : Prop :=
  ∀ (s t : State) (a : HostAccess) (rest : List Event) (r : Reg), s.inputs = .access a :: rest → step s = .next t →
    engineOwned r → t.readReg r = s.readReg r

/-- 10_state.md R29: the CFG registers report the parameters, and no step changes them. What CFG_FB and CFG_BG show of a height above
65535 is the model's reading (notes/assumptions/9.md). -/
def Obligations.CfgRegistersAreConstant : Prop :=
  ∀ s t : State, step s = .next t → t.params = s.params ∧
    ∀ r, r = .id ∨ r = .cfgFrameSamples ∨ r = .cfgFb ∨ r = .cfgBg ∨ r = .cfgCounts ∨ r = .cfgFxCap ∨ r = .cfgTileCap ∨
      r = .cfgTables → t.readReg r = resetValue s.params r

/-- 20_memory.md R78: ROM holds the tables and the FONT parameter, and no step changes a byte of it. -/
def Obligations.RomHoldsTheTablesForever : Prop :=
  ∀ s : State, s.params.Legal →
    (∀ k w i, Waveform.ofCode k = some w → i < s.params.waveLen →
      (BitVec.ofNat 16 (s.memRead (0x00010000 + 2 * (k * s.params.waveLen + i)) 2)).toInt = waveEntry s.params w i) ∧
    (∀ k e i, Envelope.ofCode k = some e → i < 256 →
      (BitVec.ofNat 16 (s.memRead (0x00020000 + 2 * (k * 256 + i)) 2)).toInt = envEntry e i) ∧
    (∀ c r b, r < 16 → c < 256 → Memory.lookup s.params.font (16 * c + r) = some b → s.font c r = b) ∧
    (∀ t a, step s = .next t → romRange s.params a → t.readByte a = s.readByte a)

/-- 60_exceptions.md R301: once recorded a fault stays, code and info, in every step but a reset; no command executes any more, so
no register but STATUS changes in an engine step, and no byte. -/
def Obligations.FaultRecordIsSticky : Prop :=
  ∀ (s t : State) (f : FaultRecord), s.faultRec = some f → step s = .next t → (∀ rest, s.inputs ≠ .reset :: rest) →
    t.faultRec = some f ∧
    (∀ rest, engineNext s rest → t = { s with inputs := rest, pending := none })

/-! ## Tables -/

/-- The shape properties of 40_tables.md section 3 for every legal WAVE_LEN and WAVE_AMP. -/
def Obligations.WaveTablesHaveTheirShape : Prop :=
  ∀ p : Params, p.Legal →
    (waveEntry p .sine 0 = 0 ∧ waveEntry p .sine (p.waveLen / 4) = p.waveAmp) ∧
    (∀ i, i < p.waveLen → waveEntry p .square i = if i < p.waveLen / 2 then -(p.waveAmp : Int) else p.waveAmp) ∧
    waveEntry p .triangle (p.waveLen / 2) = p.waveAmp ∧
    (∀ i j, i ≤ j → j ≤ p.waveLen / 2 → waveEntry p .triangle i ≤ waveEntry p .triangle j) ∧
    (∀ i j, p.waveLen / 2 ≤ i → i ≤ j → j < p.waveLen → waveEntry p .triangle j ≤ waveEntry p .triangle i) ∧
    (∀ i j, i ≤ j → j < p.waveLen → waveEntry p .sawtooth i ≤ waveEntry p .sawtooth j)

/-- Every table entry is in range: envelopes 0..255, waveforms -A..A+1, so a product fits 32 signed bits. -/
def Obligations.TableEntriesAreInRange : Prop :=
  ∀ (p : Params) (w : Waveform) (e : Envelope) (i j : Nat), p.Legal → i < p.waveLen → j < 256 →
    (0 ≤ envEntry e j ∧ envEntry e j ≤ 255) ∧
    (-(p.waveAmp : Int) ≤ waveEntry p w i ∧ waveEntry p w i ≤ p.waveAmp + 1) ∧
    (-(2 : Int) ^ 31 ≤ waveEntry p w i * envEntry e j ∧ waveEntry p w i * envEntry e j < 2 ^ 31)

/-- 40_tables.md R136, R138, R139: the exponential entries are the truncated exact powers. -/
def Obligations.ExponentialEnvelopesAreTruncatedPowers : Prop :=
  ∀ i : Nat, i < 256 →
    (∃ n : Int, IsTrunc ((2 : ℝ) ^ ((256 - (i : ℝ)) / 32) - 1) n ∧ envEntry .expDecay i = max 0 (min n 255)) ∧
    (i < 32 → IsTrunc ((2 : ℝ) ^ (((i : ℝ) + 1) / 4) - 1) (envEntry .adsr i)) ∧
    (32 ≤ i → i < 192 → envEntry .adsr i = 255) ∧
    (192 ≤ i → IsTrunc ((2 : ℝ) ^ ((256 - (i : ℝ)) / 8) - 1) (envEntry .adsr i)) ∧
    (i < 16 → IsTrunc ((2 : ℝ) ^ (((i : ℝ) + 1) / 2) - 1) (envEntry .sustain i)) ∧
    (16 ≤ i → i < 224 → envEntry .sustain i = 255) ∧
    (224 ≤ i → IsTrunc ((2 : ℝ) ^ ((256 - (i : ℝ)) / 4) - 1) (envEntry .sustain i))

/-- 40_tables.md R131 at the default parameters: every entry of the sine table is the exact real value, rounded. -/
def Obligations.SineTableIsTheRoundedSine : Prop :=
  ∀ i : Nat, i < 4096 → IsRound (Real.sin (2 * Real.pi * i / 4096) * 2047) (sineEntry 4096 2047 i)

/-- 40_tables.md R140: attack and decay are truncated exact powers, the plateau is 127 plus the rounded modulation. -/
def Obligations.TremoloIsTheRoundedModulation : Prop :=
  ∀ i : Nat, i < 256 →
    (i < 48 → IsTrunc ((2 : ℝ) ^ (((i : ℝ) + 1) * 7 / 48) - 1) (envEntry .tremolo i)) ∧
    (48 ≤ i → i < 208 → ∃ n : Int, IsRound (64 * Real.sin (2 * Real.pi * 5 * ((i : ℝ) - 48) / 160)) n ∧
      envEntry .tremolo i = 127 + n) ∧
    (208 ≤ i → IsTrunc ((2 : ℝ) ^ ((256 - (i : ℝ)) * 7 / 48) - 1) (envEntry .tremolo i))

/-- The integer tables at the default parameters, entry by entry (40_tables.md R132 to R135, R137). -/
def Obligations.DefaultTablesHaveTheirClosedForms : Prop :=
  ∀ (p : Params) (i : Nat), p.waveIdxBits = 12 → p.waveAmp = 2047 →
    (i < 2048 → waveEntry p .square i = -2047 ∧ waveEntry p .triangle i = 2 * i - 2047) ∧
    (2048 ≤ i → i < 4096 → waveEntry p .square i = 2047 ∧ waveEntry p .triangle i = 6143 - 2 * i) ∧
    (i < 4096 → waveEntry p .sawtooth i = i - 2047) ∧
    (i < 256 → envEntry .linear i = 255 - i) ∧ (i < 255 → envEntry .gate i = 255) ∧ envEntry .gate 255 = 0

/-! ## Host programs -/

/-- SETGEN loads the six host registers of a generator and changes no other register and no byte (30_encoding.md R115). -/
def Obligations.SetGenLoadsTheGenerator : Prop :=
  ∀ (s : State) (g : Nat) (ph dph ddph : Word) (vol dvol divl divr : Half) (rest : List Event),
    s.params.Legal → s.gens.length = s.params.ngen → g < s.params.ngen → s.pending = none →
    s.inputs = Program.setGen g ph dph ddph vol dvol divl divr ++ rest →
    ∃ t, reachesIn 6 s t ∧ t.inputs = rest ∧ t.faultRec = s.faultRec ∧
      t.readReg (.gen g .phase) = ph ∧ t.readReg (.gen g .phaseDelta) = dph ∧ t.readReg (.gen g .phaseDDelta) = ddph ∧
      (t.readReg (.gen g .vol)).toNat = vol.toNat ∧ (t.readReg (.gen g .volDelta)).toNat = dvol.toNat ∧
      (t.readReg (.gen g .gain)).toNat = divl.toNat + 2 ^ 16 * divr.toNat ∧
      (∀ r, (∀ q, r ≠ .gen g q) → t.readReg r = s.readReg r) ∧
      t.readReg (.gen g .genCtrl) = s.readReg (.gen g .genCtrl) ∧ t.readReg (.gen g .envAmp) = s.readReg (.gen g .envAmp) ∧
      ∀ a, t.readByte a = s.readByte a

/-- TICK ends well: from an idle block with no fault, no zero divisor on a playing generator, and every visible sprite and the text
inside the frame, every run of the four commands of a frame, however often each WAIT reads STATUS and whenever the engine moves, ends
with BUSY = 0 and FAULT = 0 (30_encoding.md R113, R114), and there is such a run: the one in which the engine moves at once takes twelve
steps. That a run is a finite list of events is the model's form (notes/assumptions/20.md). -/
def Obligations.TickEndsWell : Prop :=
  ∀ s : State, s.Inv → s.pending = none → s.faultRec = none → (∀ G ∈ s.gens, ¬ zeroDivisor G) →
    (∀ S ∈ s.sprites, ¬ spriteOutside s.params S) → ¬ textOutside s →
    (Program.RunsOf Program.tick s s.inputs → endsWell s.inputs.length s) ∧
    Program.RunsOf Program.tick s (Program.promptRun Program.tick) ∧
    (s.inputs = Program.promptRun Program.tick → endsWell 12 s)

/-! ## Host reads -/

/-- A read with a good address in an idle block returns what is there and changes nothing: in REGS the register (CMD reads 0, FX_LEN its
length, OVL_CTRL its two fields), in every memory, ROM or RAM, its bytes, little-endian (20_memory.md R81, 46_control.md R285, R286).
That a narrow read is extended with zeros is the model's choice (notes/assumptions/5.md). -/
def Obligations.IdleReadReturnsWhatIsThere : Prop :=
  ∀ (s : State) (off : Word) (n : Width) (rest : List Event), s.params.Legal → s.pending = none →
    s.inputs = .access (.read off n) :: rest → ¬ badAddress s.params (.read off n) →
    ∃ d, step s = .next { s with inputs := rest, hostData := d } ∧
      (off.toNat < 0x1000 → ∃ r, regAt s.params off.toNat = some r ∧ d = s.readReg r) ∧
      (off = 0x004 → d = 0) ∧ (off = 0x020 → d = s.fx.len) ∧
      (off = 0x028 → d.toNat = s.ovl.fgColor.toNat + 2 ^ 16 * s.ovl.textLen.toNat) ∧
      (0x1000 ≤ off.toNat → d.toNat < 256 ^ n.bytes ∧
        ∀ i, i < n.bytes → d.toNat / 256 ^ i % 256 = (s.readByte (off.toNat + i)).toNat)

/-! ## WAIT -/

/-- Every whole run of WAIT ends with the pending command finished and STATUS read with BUSY = 0: its reads of STATUS before that change
nothing but the reply, however many they are, so the block is as the engine's one turn leaves it (30_encoding.md R113, 20_memory.md R90,
R92). While BUSY = 1 the loop can read any number of times, and it ends only after the engine's move. -/
def Obligations.WaitEndsWithTheCommandFinished : Prop :=
  ∀ s : State, s.params.Legal →
    (Program.RunsOf [.wait] s s.inputs →
      ∃ t u, reachesIn s.inputs.length s t ∧ ({ s with inputs := [] } : State).engineTurn = .next u ∧
        t = { u with hostData := u.readReg .status } ∧ t.pending = none ∧ (t.readReg .status).toNat % 2 = 0) ∧
    (s.pending ≠ none → ∀ k : Nat,
      Program.RunsOf [.wait] s (List.replicate k (.access Program.statusRead) ++ [.engineTurn, .access Program.statusRead]) ∧
      ¬ Program.RunsOf [.wait] s (List.replicate k (.access Program.statusRead)))
end

