-- ==== Sys2Proof/Laws/State.lean ====
section
/-! SUPPORT. What each shared update leaves in each field of the state. -/

namespace Sys2Proof.Machine

/-! ### `State.clearBusy` -/

@[simp] theorem State.clearBusy_params (s : State) : (s.clearBusy).params = s.params := rfl

@[simp] theorem State.clearBusy_frameIndex (s : State) : (s.clearBusy).frameIndex = s.frameIndex := rfl

@[simp] theorem State.clearBusy_subcnt (s : State) : (s.clearBusy).subcnt = s.subcnt := rfl

@[simp] theorem State.clearBusy_fx (s : State) : (s.clearBusy).fx = s.fx := rfl

@[simp] theorem State.clearBusy_ovl (s : State) : (s.clearBusy).ovl = s.ovl := rfl

@[simp] theorem State.clearBusy_gens (s : State) : (s.clearBusy).gens = s.gens := rfl

@[simp] theorem State.clearBusy_sprites (s : State) : (s.clearBusy).sprites = s.sprites := rfl

@[simp] theorem State.clearBusy_faultRec (s : State) : (s.clearBusy).faultRec = s.faultRec := rfl

@[simp] theorem State.clearBusy_mem (s : State) : (s.clearBusy).mem = s.mem := rfl

@[simp] theorem State.clearBusy_ramEpoch (s : State) : (s.clearBusy).ramEpoch = s.ramEpoch := rfl

@[simp] theorem State.clearBusy_inputs (s : State) : (s.clearBusy).inputs = s.inputs := rfl

@[simp] theorem State.clearBusy_hostData (s : State) : (s.clearBusy).hostData = s.hostData := rfl

/-! ### `State.modifyGen` -/

@[simp] theorem State.modifyGen_params (s : State) (g : Nat) (f : Generator → Generator) : (s.modifyGen g f).params = s.params := rfl

@[simp] theorem State.modifyGen_frameIndex (s : State) (g : Nat) (f : Generator → Generator) : (s.modifyGen g f).frameIndex = s.frameIndex := rfl

@[simp] theorem State.modifyGen_subcnt (s : State) (g : Nat) (f : Generator → Generator) : (s.modifyGen g f).subcnt = s.subcnt := rfl

@[simp] theorem State.modifyGen_fx (s : State) (g : Nat) (f : Generator → Generator) : (s.modifyGen g f).fx = s.fx := rfl

@[simp] theorem State.modifyGen_ovl (s : State) (g : Nat) (f : Generator → Generator) : (s.modifyGen g f).ovl = s.ovl := rfl

@[simp] theorem State.modifyGen_sprites (s : State) (g : Nat) (f : Generator → Generator) : (s.modifyGen g f).sprites = s.sprites := rfl

@[simp] theorem State.modifyGen_pending (s : State) (g : Nat) (f : Generator → Generator) : (s.modifyGen g f).pending = s.pending := rfl

@[simp] theorem State.modifyGen_faultRec (s : State) (g : Nat) (f : Generator → Generator) : (s.modifyGen g f).faultRec = s.faultRec := rfl

@[simp] theorem State.modifyGen_mem (s : State) (g : Nat) (f : Generator → Generator) : (s.modifyGen g f).mem = s.mem := rfl

@[simp] theorem State.modifyGen_ramEpoch (s : State) (g : Nat) (f : Generator → Generator) : (s.modifyGen g f).ramEpoch = s.ramEpoch := rfl

@[simp] theorem State.modifyGen_inputs (s : State) (g : Nat) (f : Generator → Generator) : (s.modifyGen g f).inputs = s.inputs := rfl

@[simp] theorem State.modifyGen_hostData (s : State) (g : Nat) (f : Generator → Generator) : (s.modifyGen g f).hostData = s.hostData := rfl

/-! ### `State.memWrite` -/

@[simp] theorem State.memWrite_params (s : State) (a : Nat) (bs : List Byte) : (s.memWrite a bs).params = s.params := rfl

@[simp] theorem State.memWrite_frameIndex (s : State) (a : Nat) (bs : List Byte) : (s.memWrite a bs).frameIndex = s.frameIndex := rfl

@[simp] theorem State.memWrite_subcnt (s : State) (a : Nat) (bs : List Byte) : (s.memWrite a bs).subcnt = s.subcnt := rfl

@[simp] theorem State.memWrite_fx (s : State) (a : Nat) (bs : List Byte) : (s.memWrite a bs).fx = s.fx := rfl

@[simp] theorem State.memWrite_ovl (s : State) (a : Nat) (bs : List Byte) : (s.memWrite a bs).ovl = s.ovl := rfl

@[simp] theorem State.memWrite_gens (s : State) (a : Nat) (bs : List Byte) : (s.memWrite a bs).gens = s.gens := rfl

@[simp] theorem State.memWrite_sprites (s : State) (a : Nat) (bs : List Byte) : (s.memWrite a bs).sprites = s.sprites := rfl

@[simp] theorem State.memWrite_pending (s : State) (a : Nat) (bs : List Byte) : (s.memWrite a bs).pending = s.pending := rfl

@[simp] theorem State.memWrite_faultRec (s : State) (a : Nat) (bs : List Byte) : (s.memWrite a bs).faultRec = s.faultRec := rfl

@[simp] theorem State.memWrite_ramEpoch (s : State) (a : Nat) (bs : List Byte) : (s.memWrite a bs).ramEpoch = s.ramEpoch := rfl

@[simp] theorem State.memWrite_inputs (s : State) (a : Nat) (bs : List Byte) : (s.memWrite a bs).inputs = s.inputs := rfl

@[simp] theorem State.memWrite_hostData (s : State) (a : Nat) (bs : List Byte) : (s.memWrite a bs).hostData = s.hostData := rfl

/-! ### `State.writeCells` -/

@[simp] theorem State.writeCells_params (s : State) (ws : List Host.Cell) : (s.writeCells ws).params = s.params := rfl

@[simp] theorem State.writeCells_frameIndex (s : State) (ws : List Host.Cell) : (s.writeCells ws).frameIndex = s.frameIndex := rfl

@[simp] theorem State.writeCells_subcnt (s : State) (ws : List Host.Cell) : (s.writeCells ws).subcnt = s.subcnt := rfl

@[simp] theorem State.writeCells_fx (s : State) (ws : List Host.Cell) : (s.writeCells ws).fx = s.fx := rfl

@[simp] theorem State.writeCells_ovl (s : State) (ws : List Host.Cell) : (s.writeCells ws).ovl = s.ovl := rfl

@[simp] theorem State.writeCells_gens (s : State) (ws : List Host.Cell) : (s.writeCells ws).gens = s.gens := rfl

@[simp] theorem State.writeCells_sprites (s : State) (ws : List Host.Cell) : (s.writeCells ws).sprites = s.sprites := rfl

@[simp] theorem State.writeCells_pending (s : State) (ws : List Host.Cell) : (s.writeCells ws).pending = s.pending := rfl

@[simp] theorem State.writeCells_faultRec (s : State) (ws : List Host.Cell) : (s.writeCells ws).faultRec = s.faultRec := rfl

@[simp] theorem State.writeCells_ramEpoch (s : State) (ws : List Host.Cell) : (s.writeCells ws).ramEpoch = s.ramEpoch := rfl

@[simp] theorem State.writeCells_inputs (s : State) (ws : List Host.Cell) : (s.writeCells ws).inputs = s.inputs := rfl

@[simp] theorem State.writeCells_hostData (s : State) (ws : List Host.Cell) : (s.writeCells ws).hostData = s.hostData := rfl

/-! ### `State.afterRender` -/

@[simp] theorem State.afterRender_params (s : State) (bs : List Byte) (m : Mixer) : (s.afterRender bs m).params = s.params := rfl

@[simp] theorem State.afterRender_frameIndex (s : State) (bs : List Byte) (m : Mixer) : (s.afterRender bs m).frameIndex = s.frameIndex := rfl

@[simp] theorem State.afterRender_ovl (s : State) (bs : List Byte) (m : Mixer) : (s.afterRender bs m).ovl = s.ovl := rfl

@[simp] theorem State.afterRender_sprites (s : State) (bs : List Byte) (m : Mixer) : (s.afterRender bs m).sprites = s.sprites := rfl

@[simp] theorem State.afterRender_pending (s : State) (bs : List Byte) (m : Mixer) : (s.afterRender bs m).pending = s.pending := rfl

@[simp] theorem State.afterRender_faultRec (s : State) (bs : List Byte) (m : Mixer) : (s.afterRender bs m).faultRec = s.faultRec := rfl

@[simp] theorem State.afterRender_ramEpoch (s : State) (bs : List Byte) (m : Mixer) : (s.afterRender bs m).ramEpoch = s.ramEpoch := rfl

@[simp] theorem State.afterRender_inputs (s : State) (bs : List Byte) (m : Mixer) : (s.afterRender bs m).inputs = s.inputs := rfl

@[simp] theorem State.afterRender_hostData (s : State) (bs : List Byte) (m : Mixer) : (s.afterRender bs m).hostData = s.hostData := rfl

@[simp] theorem State.clearBusy_pending (s : State) : s.clearBusy.pending = none := rfl

@[simp] theorem State.modifyGen_gens (s : State) (g : Nat) (f : Generator → Generator) :
    (s.modifyGen g f).gens = s.gens.modify g f := rfl

@[simp] theorem State.memWrite_mem (s : State) (a : Nat) (bs : List Byte) : (s.memWrite a bs).mem = s.mem.write a bs := rfl

@[simp] theorem State.writeCells_mem (s : State) (ws : List Host.Cell) : (s.writeCells ws).mem = s.mem.writeCells ws := rfl

@[simp] theorem State.afterRender_gens (s : State) (bs : List Byte) (m : Mixer) : (s.afterRender bs m).gens = m.gens := rfl

@[simp] theorem State.afterRender_subcnt (s : State) (bs : List Byte) (m : Mixer) : (s.afterRender bs m).subcnt = m.subcnt := rfl

@[simp] theorem State.afterRender_fx (s : State) (bs : List Byte) (m : Mixer) :
    (s.afterRender bs m).fx = { s.fx with pos := m.fxPos } := rfl

@[simp] theorem State.afterRender_mem (s : State) (bs : List Byte) (m : Mixer) :
    (s.afterRender bs m).mem = s.mem.write Region.audRam.base bs := rfl

/-! ### `State.raise`: the first fault is recorded, a later one changes nothing (60_exceptions.md R300) -/

theorem State.raise_of_none {s : State} (h : s.faultRec = none) (c : FaultCode) (i : Word) :
    s.raise c i = { s with faultRec := some { code := c, info := i } } := by
  simp [State.raise, h]

theorem State.raise_of_some {s : State} {r : FaultRecord} (h : s.faultRec = some r) (c : FaultCode) (i : Word) :
    s.raise c i = s := by
  simp [State.raise, h]

/-- Everything `raise` can do. -/
theorem State.raise_cases (s : State) (c : FaultCode) (i : Word) :
    (s.faultRec = none ∧ s.raise c i = { s with faultRec := some { code := c, info := i } }) ∨
    ((∃ r, s.faultRec = some r) ∧ s.raise c i = s) := by
  cases h : s.faultRec with
  | none => exact .inl ⟨rfl, raise_of_none h c i⟩
  | some r => exact .inr ⟨⟨r, rfl⟩, raise_of_some h c i⟩

/-- `raise` changes the fault record only. -/
theorem State.raise_eq (s : State) (c : FaultCode) (i : Word) : s.raise c i = { s with faultRec := (s.raise c i).faultRec } := by
  obtain ⟨_, h⟩ | ⟨_, h⟩ := s.raise_cases c i <;> simp [h]

@[simp] theorem State.raise_faultRec (s : State) (c : FaultCode) (i : Word) :
    (s.raise c i).faultRec = some (s.faultRec.getD { code := c, info := i }) := by
  cases h : s.faultRec <;> simp [State.raise, h]

@[simp] theorem State.raise_params (s : State) (c : FaultCode) (i : Word) : (s.raise c i).params = s.params := by
  rw [s.raise_eq c i]

@[simp] theorem State.raise_frameIndex (s : State) (c : FaultCode) (i : Word) : (s.raise c i).frameIndex = s.frameIndex := by
  rw [s.raise_eq c i]

@[simp] theorem State.raise_subcnt (s : State) (c : FaultCode) (i : Word) : (s.raise c i).subcnt = s.subcnt := by
  rw [s.raise_eq c i]

@[simp] theorem State.raise_fx (s : State) (c : FaultCode) (i : Word) : (s.raise c i).fx = s.fx := by
  rw [s.raise_eq c i]

@[simp] theorem State.raise_ovl (s : State) (c : FaultCode) (i : Word) : (s.raise c i).ovl = s.ovl := by
  rw [s.raise_eq c i]

@[simp] theorem State.raise_gens (s : State) (c : FaultCode) (i : Word) : (s.raise c i).gens = s.gens := by
  rw [s.raise_eq c i]

@[simp] theorem State.raise_sprites (s : State) (c : FaultCode) (i : Word) : (s.raise c i).sprites = s.sprites := by
  rw [s.raise_eq c i]

@[simp] theorem State.raise_pending (s : State) (c : FaultCode) (i : Word) : (s.raise c i).pending = s.pending := by
  rw [s.raise_eq c i]

@[simp] theorem State.raise_mem (s : State) (c : FaultCode) (i : Word) : (s.raise c i).mem = s.mem := by
  rw [s.raise_eq c i]

@[simp] theorem State.raise_ramEpoch (s : State) (c : FaultCode) (i : Word) : (s.raise c i).ramEpoch = s.ramEpoch := by
  rw [s.raise_eq c i]

@[simp] theorem State.raise_inputs (s : State) (c : FaultCode) (i : Word) : (s.raise c i).inputs = s.inputs := by
  rw [s.raise_eq c i]

@[simp] theorem State.raise_hostData (s : State) (c : FaultCode) (i : Word) : (s.raise c i).hostData = s.hostData := by
  rw [s.raise_eq c i]

end Sys2Proof.Machine
end

