-- ==== Sys2Proof/Laws/Memory.lean ====
section
/-! SUPPORT. The RAM list: what a read gives after a write, and that every write keeps the canonical form. -/

namespace Sys2Proof.Machine

@[simp] theorem Memory.lookup_nil (a : Nat) : Memory.lookup [] a = none := rfl

theorem Memory.lookup_cons (c : Host.Cell) (m : Memory) (a : Nat) :
    Memory.lookup (c :: m) a = if c.1 = a then some c.2 else Memory.lookup m a := by
  by_cases h : c.1 = a <;> simp [Memory.lookup, h]

theorem Memory.lookup_append (m n : Memory) (a : Nat) :
    Memory.lookup (m ++ n) a = (Memory.lookup m a).or (Memory.lookup n a) := by
  induction m with
  | nil => simp
  | cons c m ih =>
    simp only [List.cons_append, lookup_cons, ih]
    split <;> simp

/-- A filter that keeps an offset's cells keeps what the offset holds; one that drops them leaves nothing. -/
theorem Memory.lookup_filter (q : Nat → Bool) (m : Memory) (a : Nat) :
    Memory.lookup (m.filter fun c => q c.1) a = if q a then Memory.lookup m a else none := by
  induction m with
  | nil => simp
  | cons c m ih =>
    by_cases hc : q c.1 <;> by_cases ha : c.1 = a <;> simp_all [lookup_cons]

@[simp] theorem cellsFrom_nil (a : Nat) : cellsFrom a [] = [] := rfl

@[simp] theorem cellsFrom_cons (a : Nat) (b : Byte) (bs : List Byte) :
    cellsFrom a (b :: bs) = (a, b) :: cellsFrom (a + 1) bs := rfl

theorem Memory.lookup_cellsFrom (bs : List Byte) (a x : Nat) :
    Memory.lookup (cellsFrom a bs) x = if a ≤ x then bs[x - a]? else none := by
  induction bs generalizing a with
  | nil => simp
  | cons b bs ih =>
    rw [cellsFrom_cons, lookup_cons, ih]
    rcases Nat.lt_trichotomy a x with h | h | h
    · have : x - a = (x - (a + 1)) + 1 := by omega
      simp [show a ≠ x by omega, show a + 1 ≤ x by omega, show a ≤ x by omega, this]
    · subst h; simp
    · simp [show a ≠ x by omega, show ¬ a + 1 ≤ x by omega, show ¬ a ≤ x by omega]

/-- What a write leaves at every offset: its bytes inside, the old contents outside. -/
theorem Memory.lookup_write (m : Memory) (a : Nat) (bs : List Byte) (x : Nat) :
    (m.write a bs).lookup x = if a ≤ x ∧ x < a + bs.length then bs[x - a]? else m.lookup x := by
  have h1 := Memory.lookup_filter (fun y => y < a) m x
  have h2 := Memory.lookup_filter (fun y => a + bs.length ≤ y) m x
  unfold Memory.write
  rw [lookup_append, lookup_append, h1, h2, lookup_cellsFrom]
  by_cases c1 : x < a
  · simp [c1, show ¬ a ≤ x by omega, show ¬ a + bs.length ≤ x by omega]
  · by_cases c2 : x < a + bs.length
    · simp [c1, c2, show a ≤ x by omega, show ¬ a + bs.length ≤ x by omega,
        List.getElem?_eq_getElem (show x - a < bs.length by omega)]
    · simp [c1, c2, show a ≤ x by omega, show a + bs.length ≤ x by omega,
        List.getElem?_eq_none (show bs.length ≤ x - a by omega)]

theorem Memory.lookup_write_outside (m : Memory) {a x : Nat} {bs : List Byte} (h : ¬ (a ≤ x ∧ x < a + bs.length)) :
    (m.write a bs).lookup x = m.lookup x := by
  rw [lookup_write, if_neg h]

theorem Memory.lookup_write_inside (m : Memory) {a : Nat} {bs : List Byte} {k : Nat} (h : k < bs.length) :
    (m.write a bs).lookup (a + k) = some bs[k] := by
  rw [lookup_write, if_pos ⟨by omega, by omega⟩]
  simp [h]

/-! ### The canonical form -/

theorem mem_cellsFrom {c : Host.Cell} {a : Nat} {bs : List Byte} (h : c ∈ cellsFrom a bs) :
    a ≤ c.1 ∧ c.1 < a + bs.length := by
  induction bs generalizing a with
  | nil => simp at h
  | cons b bs ih =>
    rw [cellsFrom_cons, List.mem_cons] at h
    rcases h with rfl | h
    · simp
    · have := ih h; simp only [List.length_cons]; omega

theorem cellsFrom_wf (a : Nat) (bs : List Byte) : Memory.wf (cellsFrom a bs) := by
  induction bs generalizing a with
  | nil => exact List.Pairwise.nil
  | cons b bs ih =>
    refine List.Pairwise.cons (fun c hc => ?_) (ih (a + 1))
    have := mem_cellsFrom hc
    show a < c.1
    omega

/-- Where the cells of a written memory come from. -/
theorem Memory.mem_write {c : Host.Cell} {m : Memory} {a : Nat} {bs : List Byte} (h : c ∈ m.write a bs) :
    c ∈ m ∨ (a ≤ c.1 ∧ c.1 < a + bs.length) := by
  unfold Memory.write at h
  simp only [List.mem_append, List.mem_filter] at h
  rcases h with (⟨h, _⟩ | h) | ⟨h, _⟩
  · exact .inl h
  · exact .inr (mem_cellsFrom h)
  · exact .inl h

/-- A write keeps the canonical form. -/
theorem Memory.write_wf {m : Memory} (h : m.wf) (a : Nat) (bs : List Byte) : (m.write a bs).wf := by
  unfold Memory.write Memory.wf
  rw [List.pairwise_append, List.pairwise_append]
  refine ⟨⟨h.filter _, cellsFrom_wf a bs, fun c hc d hd => ?_⟩, h.filter _, fun c hc d hd => ?_⟩
  · have h1 := (List.mem_filter.mp hc).2
    have h2 := mem_cellsFrom hd
    simp only [decide_eq_true_eq] at h1
    omega
  · have h1 := (List.mem_filter.mp hd).2
    simp only [decide_eq_true_eq] at h1
    rcases List.mem_append.mp hc with hc | hc
    · have h2 := (List.mem_filter.mp hc).2
      simp only [decide_eq_true_eq] at h2
      omega
    · have h2 := mem_cellsFrom hc
      omega

/-! ### Single-byte writes in order -/

@[simp] theorem Memory.writeCells_nil (m : Memory) : m.writeCells [] = m := rfl

@[simp] theorem Memory.writeCells_cons (m : Memory) (c : Host.Cell) (ws : List Host.Cell) :
    m.writeCells (c :: ws) = (m.write c.1 [c.2]).writeCells ws := rfl

theorem Memory.writeCells_wf {m : Memory} (h : m.wf) (ws : List Host.Cell) : (m.writeCells ws).wf := by
  induction ws generalizing m with
  | nil => exact h
  | cons c ws ih => exact ih (write_wf h _ _)

theorem Memory.mem_writeCells {c : Host.Cell} {m : Memory} {ws : List Host.Cell} (h : c ∈ m.writeCells ws) :
    c ∈ m ∨ ∃ w ∈ ws, c.1 = w.1 := by
  induction ws generalizing m with
  | nil => exact .inl h
  | cons w ws ih =>
    rcases ih h with h | ⟨v, hv, e⟩
    · rcases mem_write h with h | h
      · exact .inl h
      · refine .inr ⟨w, by simp, ?_⟩
        simp only [List.length_singleton] at h
        omega
    · exact .inr ⟨v, by simp [hv], e⟩

/-- After writes in order, an offset holds what the last of them wrote there, or the old contents. -/
theorem Memory.lookup_writeCells (m : Memory) (ws : List Host.Cell) (x : Nat) :
    (m.writeCells ws).lookup x = (Memory.lookup ws.reverse x).or (m.lookup x) := by
  induction ws generalizing m with
  | nil => simp
  | cons w ws ih =>
    rw [writeCells_cons, ih, List.reverse_cons, lookup_append, lookup_cons, lookup_nil, lookup_write]
    by_cases h : w.1 = x
    · subst h; simp
    · rw [if_neg (by simp only [List.length_singleton]; omega), if_neg h]; simp

theorem Memory.mem_of_lookup {m : Memory} {a : Nat} {b : Byte} (h : m.lookup a = some b) : (a, b) ∈ m := by
  unfold Memory.lookup at h
  simp only [Option.map_eq_some_iff] at h
  obtain ⟨⟨c1, c2⟩, h1, h2⟩ := h
  have e := List.find?_some h1
  simp only [beq_iff_eq] at e
  subst e
  subst h2
  exact List.mem_of_find?_eq_some h1

/-- Below the first offset of a canonical list nothing is listed. -/
theorem Memory.lookup_below {m : Memory} {k a : Nat} (h : ∀ c ∈ m, k < c.1) (ha : a ≤ k) : m.lookup a = none := by
  cases q : m.lookup a with
  | none => rfl
  | some b =>
    have := h _ (Memory.mem_of_lookup q)
    simp only at this
    omega

/-- Equal memories are equal data: two canonical lists that list the same bytes are one list. -/
theorem Memory.eq_of_lookup {m n : Memory} (hm : m.wf) (hn : n.wf) (h : ∀ a, m.lookup a = n.lookup a) : m = n := by
  induction m generalizing n with
  | nil =>
    cases n with
    | nil => rfl
    | cons c n =>
      have h0 := h c.1
      simp [Memory.lookup_cons] at h0
  | cons c m ih =>
    cases n with
    | nil =>
      have h0 := h c.1
      simp [Memory.lookup_cons] at h0
    | cons d n =>
      have hm' := List.pairwise_cons.mp hm
      have hn' := List.pairwise_cons.mp hn
      have hcd : c.1 = d.1 := by
        rcases Nat.lt_trichotomy c.1 d.1 with q | q | q
        · have h0 := h c.1
          rw [Memory.lookup_cons, if_pos rfl, Memory.lookup_cons, if_neg (by omega),
            Memory.lookup_below (fun x hx => (q.trans (hn'.1 x hx))) (le_refl _)] at h0
          cases h0
        · exact q
        · have h0 := h d.1
          rw [Memory.lookup_cons, if_neg (by omega), Memory.lookup_below (fun x hx => (q.trans (hm'.1 x hx))) (le_refl _),
            Memory.lookup_cons, if_pos rfl] at h0
          cases h0
      have hv : c.2 = d.2 := by
        have h0 := h c.1
        rw [Memory.lookup_cons, if_pos rfl, Memory.lookup_cons, if_pos hcd.symm] at h0
        exact Option.some.inj h0
      obtain rfl : c = d := Prod.ext hcd hv
      congr 1
      refine ih hm'.2 hn'.2 fun a => ?_
      by_cases q : c.1 = a
      · subst q
        rw [Memory.lookup_below hm'.1 (le_refl _), Memory.lookup_below hn'.1 (le_refl _)]
      · have h0 := h a
        rwa [Memory.lookup_cons, if_neg q, Memory.lookup_cons, if_neg q] at h0

end Sys2Proof.Machine
end

