-- ==== Sys2Proof/Laws/AddressMap.lean ====
section
/-! SUPPORT. The address map of a legal block: windows never overlap, every implemented part fits its window, and what a byte read
gives in RAM and ROM. -/

namespace Sys2Proof

theorem Params.Legal.waveLen_le {p : Params} (h : p.Legal) : p.waveLen ≤ 8192 := by
  have : p.waveIdxBits ≤ 13 := h.1.2
  calc 2 ^ p.waveIdxBits ≤ 2 ^ 13 := Nat.pow_le_pow_right (by omega) this
    _ = 8192 := by norm_num

theorem Params.waveLen_pos (p : Params) : 0 < p.waveLen := Nat.two_pow_pos _

namespace Machine

/-- The room a window has in the map (20_memory.md R71). -/
def Region.window : Region → Nat
  | .regs => 0x1000
  | .waveRom => 0x10000
  | .envRom => 0x1000
  | .fontRom => 0x1000
  | .audRam => 0x100000
  | .fxRam => 0x100000
  | .bgRam => 0x1000000
  | .tileRam => 0x1000000
  | .fbRam => 0x1000000

/-- The implemented part of a legal block fits its window (20_memory.md R71). -/
theorem Region.size_le_window {p : Params} (h : p.Legal) (r : Region) : r.size p ≤ r.window := by
  have hw := h.waveLen_le
  obtain ⟨-, -, -, -, -, h6, h7, -, -, h10, -, -, h13, h14⟩ := h
  cases r <;> simp only [Region.size, Region.window] <;> omega

/-- An offset lies in at most one region of a legal block. -/
theorem Region.holds_unique {p : Params} (h : p.Legal) {r q : Region} {a : Nat} (hr : r.Holds p a) (hq : q.Holds p a) :
    r = q := by
  have h1 := Region.size_le_window h r
  have h2 := Region.size_le_window h q
  obtain ⟨r1, r2⟩ := hr
  obtain ⟨q1, q2⟩ := hq
  cases r <;> cases q <;> first
    | rfl
    | (exfalso; simp only [Region.base, Region.window] at h1 h2 r1 r2 q1 q2; omega)

theorem Region.mem_all (r : Region) : r ∈ Region.all := by cases r <;> decide

/-- The region of an offset of a legal block is the one that holds it. -/
theorem regionOf_eq_some {p : Params} (h : p.Legal) {r : Region} {a : Nat} : regionOf p a = some r ↔ r.Holds p a := by
  constructor
  · intro e
    simpa using List.find?_some e
  · intro hr
    unfold regionOf
    cases e : Region.all.find? (fun r => decide (r.Holds p a)) with
    | none =>
      have := List.find?_eq_none.mp e r r.mem_all
      simp [hr] at this
    | some q =>
      have hq : q.Holds p a := by simpa using List.find?_some e
      rw [Region.holds_unique h hq hr]

theorem regionOf_eq_none {p : Params} {a : Nat} : regionOf p a = none ↔ ∀ r : Region, ¬ r.Holds p a := by
  unfold regionOf
  rw [List.find?_eq_none]
  constructor
  · intro h r hr
    exact h r r.mem_all (by simpa using hr)
  · intro h r _ hr
    exact h r (by simpa using hr)

/-- No RAM byte of a legal block is in a ROM. -/
theorem romByte_of_ram {p : Params} (h : p.Legal) {a : Nat} {r : Region} (hram : r.isRam = true) (hr : r.Holds p a) :
    romByte p a = none := by
  unfold romByte
  rw [(regionOf_eq_some h).mpr hr]
  cases r <;> simp_all [Region.isRam, Region.isRom]

/-- A read of the written bytes gives them back (20_memory.md R90). -/
theorem State.readByte_memWrite_inside {s : State} {a : Nat} {bs : List Byte} {k : Nat} (hk : k < bs.length)
    (hrom : romByte s.params (a + k) = none) : (s.memWrite a bs).readByte (a + k) = bs[k] := by
  unfold State.readByte
  simp only [State.memWrite_params, hrom, State.memWrite_mem, Memory.lookup_write_inside _ hk, Option.getD_some]

/-- A read outside the written bytes is unchanged. -/
theorem State.readByte_memWrite_outside {s : State} {a x : Nat} {bs : List Byte} (h : ¬ (a ≤ x ∧ x < a + bs.length)) :
    (s.memWrite a bs).readByte x = s.readByte x := by
  unfold State.readByte
  simp only [State.memWrite_params, State.memWrite_mem, State.memWrite_ramEpoch, Memory.lookup_write_outside _ h]

/-- A read after single-byte writes in order: the last write there, or what was read before. -/
theorem State.readByte_writeCells {s : State} {x : Nat} (hrom : romByte s.params x = none) (ws : List Host.Cell) :
    (s.writeCells ws).readByte x = (Memory.lookup ws.reverse x).getD (s.readByte x) := by
  unfold State.readByte
  simp only [State.writeCells_params, hrom, State.writeCells_mem, State.writeCells_ramEpoch, Memory.lookup_writeCells]
  cases Memory.lookup ws.reverse x <;> simp

/-- Offsets that no cell names read as before. -/
theorem State.readByte_writeCells_outside {s : State} {x : Nat} {ws : List Host.Cell} (h : ∀ w ∈ ws, w.1 ≠ x) :
    (s.writeCells ws).readByte x = s.readByte x := by
  have e : Memory.lookup ws.reverse x = none := by
    simp only [Memory.lookup, Option.map_eq_none_iff, List.find?_eq_none, List.mem_reverse, beq_iff_eq]
    exact h
  unfold State.readByte
  simp only [State.writeCells_params, State.writeCells_mem, State.writeCells_ramEpoch, Memory.lookup_writeCells, e,
    Option.none_or]

end Machine
end Sys2Proof
end

