-- ==== Sys2Proof/Laws/Tables.lean ====
section
/-! SUPPORT. Facts about the table entries that later proofs use: the range of the envelopes. -/

namespace Sys2Proof.Machine

/-- Every envelope entry lies in 0..255 (40_tables.md R141). -/
theorem envEntry_range (e : Envelope) {i : Nat} (h : i < 256) : 0 ≤ envEntry e i ∧ envEntry e i ≤ 255 := by
  have key : ∀ e : Envelope, ((List.range 256).all fun i => decide (0 ≤ envEntry e i ∧ envEntry e i ≤ 255)) = true := by
    intro e; cases e <;> decide +kernel
  have := List.all_eq_true.mp (key e) i (List.mem_range.mpr h)
  simpa using this

/-- The envelope position is a table index (10_state.md R34). -/
theorem envelopePosition_lt (vol : Half) : envelopePosition vol < 256 := by
  have := vol.isLt
  unfold envelopePosition
  omega

/-- ENV_AMP holds the envelope entry exactly (10_state.md R35). -/
theorem envelopeAmplitude_toNat (e : Envelope) (vol : Half) :
    ((envelopeAmplitude e vol).toNat : Int) = envEntry e (envelopePosition vol) := by
  obtain ⟨h1, h2⟩ := envEntry_range e (envelopePosition_lt vol)
  simp only [envelopeAmplitude, wrap16, BitVec.toNat_ofInt]
  omega

theorem envelopeAmplitude_le (e : Envelope) (vol : Half) : (envelopeAmplitude e vol).toNat ≤ 255 := by
  have h1 := envelopeAmplitude_toNat e vol
  have h2 := (envEntry_range e (envelopePosition_lt vol)).2
  omega

end Sys2Proof.Machine
end

