-- ==== Sys2Proof/Laws/Oscillator.lean ====
section
/-! SUPPORT. What one oscillator step does (41_tone_generator.md R170), and what n samples of RENDER_AUDIO leave. -/

namespace Sys2Proof.Machine

/-- A muted generator is skipped (41_tone_generator.md R175). -/
@[simp] theorem oscStep_muted {p : Params} {tick : Bool} {G : Generator} (h : G.voice = .muted) :
    oscStep p tick G = ((0, 0), G) := by
  simp [oscStep, h]

theorem oscStep_playing {p : Params} {tick : Bool} {G : Generator} {w : Waveform} (h : G.voice = .playing w) :
    oscStep p tick G = (G.contribution p w, if tick then G.advancePhase.envelopeStep else G.advancePhase) := by
  simp [oscStep, h]

/-- Everything an envelope step can do. -/
theorem envelopeStep_cases (G : Generator) :
    (hasHeadroom G.vol G.volDelta = true ∧ G.envelopeStep =
      { G with vol := G.vol + G.volDelta, envAmp := envelopeAmplitude G.env (G.vol + G.volDelta) }) ∨
    (hasHeadroom G.vol G.volDelta = false ∧ G.envelopeStep = G.silence) := by
  unfold Generator.envelopeStep
  cases h : hasHeadroom G.vol G.volDelta <;> simp

/-- Everything an oscillator step can leave in its generator. -/
theorem oscStep_cases (p : Params) (tick : Bool) (G : Generator) :
    (G.voice = .muted ∧ (oscStep p tick G).2 = G) ∨
    (∃ w, G.voice = .playing w ∧
      ((tick = false ∧ (oscStep p tick G).2 = G.advancePhase) ∨
       (tick = true ∧ hasHeadroom G.vol G.volDelta = true ∧ (oscStep p tick G).2 =
          { G.advancePhase with vol := G.vol + G.volDelta, envAmp := envelopeAmplitude G.env (G.vol + G.volDelta) }) ∨
       (tick = true ∧ hasHeadroom G.vol G.volDelta = false ∧ (oscStep p tick G).2 = G.advancePhase.silence))) := by
  cases h : G.voice with
  | muted => exact .inl ⟨rfl, by rw [oscStep_muted h]⟩
  | playing w =>
    refine .inr ⟨w, rfl, ?_⟩
    rw [oscStep_playing h]
    cases tick with
    | false => exact .inl ⟨rfl, rfl⟩
    | true =>
      rcases envelopeStep_cases G.advancePhase with ⟨h1, h2⟩ | ⟨h1, h2⟩
      · exact .inr (.inl ⟨rfl, h1, h2⟩)
      · exact .inr (.inr ⟨rfl, h1, h2⟩)

/-- A muted generator comes out of a step muted: KEYON is the only way out (10_state.md R37). -/
theorem oscStep_keeps_muted {p : Params} {tick : Bool} {G : Generator} (h : G.voice = .muted) :
    (oscStep p tick G).2.voice = .muted := by
  rw [oscStep_muted h]; exact h

/-- What a generator must satisfy: silent while muted (10_state.md R37), its amplitude an envelope value (R35). -/
def Generator.Ok (G : Generator) : Prop := (G.voice = .muted → G.envAmp = 0) ∧ G.envAmp.toNat ≤ 255

theorem Generator.Ok.oscStep {G : Generator} (h : G.Ok) (p : Params) (tick : Bool) : (oscStep p tick G).2.Ok := by
  rcases oscStep_cases p tick G with ⟨_, e⟩ | ⟨w, hw, ⟨_, e⟩ | ⟨_, _, e⟩ | ⟨_, _, e⟩⟩ <;> rw [e]
  · exact h
  · exact ⟨fun hm => absurd hm (by simp [Generator.advancePhase, hw]), h.2⟩
  · exact ⟨fun hm => absurd hm (by simp [Generator.advancePhase, hw]), envelopeAmplitude_le _ _⟩
  · exact ⟨fun _ => rfl, by simp [Generator.silence]⟩

theorem Generator.silence_ok (G : Generator) : G.silence.Ok := ⟨fun _ => rfl, by simp [Generator.silence]⟩

theorem Generator.keyOn_ok (G : Generator) (w : Waveform) (e : Envelope) : (G.keyOn w e).Ok :=
  ⟨fun h => absurd h (by simp [Generator.keyOn]), envelopeAmplitude_le _ _⟩

/-! ### n samples -/

/-- The mixer before sample n. -/
def State.mixerAt (s : State) (m : Mixer) : Nat → Mixer
  | 0 => m
  | n + 1 => s.mixNext (s.mixerAt m n)

theorem State.mixerAt_shift (s : State) (m : Mixer) (n : Nat) : s.mixerAt (s.mixNext m) n = s.mixerAt m (n + 1) := by
  induction n with
  | zero => rfl
  | succ n ih => simp only [mixerAt, ih]

/-- RENDER_AUDIO leaves the mixer that n samples lead to. -/
theorem State.renderSamples_mixer (s : State) (n : Nat) (m : Mixer) : (s.renderSamples n m).2 = s.mixerAt m n := by
  induction n generalizing m with
  | zero => rfl
  | succ n ih => simp only [renderSamples, ih, mixerAt_shift]

theorem bytesLE_length (v n : Nat) : (bytesLE v n).length = n := by
  induction n generalizing v with
  | zero => rfl
  | succ n ih => simp [bytesLE, ih]

theorem pairBytes_length (sums : Int × Int) : (pairBytes sums).length = 4 := by
  simp [pairBytes, bytesLE_length]

theorem State.renderSamples_length (s : State) (n : Nat) (m : Mixer) : (s.renderSamples n m).1.length = 4 * n := by
  induction n generalizing m with
  | zero => rfl
  | succ n ih => simp only [renderSamples, List.length_append, pairBytes_length, ih]; omega

/-- Byte j of pair k is byte j of the sums at sample k (42_audio_render.md R194). -/
theorem State.renderSamples_getElem? (s : State) (n : Nat) (m : Mixer) {k j : Nat} (hk : k < n) (hj : j < 4) :
    (s.renderSamples n m).1[4 * k + j]? = (pairBytes (s.mixSums (s.mixerAt m k)))[j]? := by
  induction n generalizing m k with
  | zero => omega
  | succ n ih =>
    simp only [renderSamples]
    cases k with
    | zero => rw [List.getElem?_append_left (by rw [pairBytes_length]; omega)]; simp [mixerAt]
    | succ k =>
      rw [List.getElem?_append_right (by rw [pairBytes_length]; omega), pairBytes_length,
        show 4 * (k + 1) + j - 4 = 4 * k + j by omega, ih _ (by omega), mixerAt_shift]

end Sys2Proof.Machine
end

