-- ==== Sys2Proof/Laws/Commands.lean ====
section
/-! SUPPORT. Everything a command can do (`exec_cases`), and where the memory writes of each fall. -/

namespace Sys2Proof.Machine

theorem generatorOperand_some {p : Params} {gen g : Nat} (h : generatorOperand p gen = some g) : g = gen ∧ gen < p.ngen := by
  unfold generatorOperand at h
  split at h <;> simp_all

theorem keyonOperands_some {p : Params} {gen voice env g : Nat} {w : Waveform} {e : Envelope}
    (h : keyonOperands p gen voice env = some (g, w, e)) :
    g = gen ∧ gen < p.ngen ∧ Waveform.ofCode voice = some w ∧ Envelope.ofCode env = some e := by
  unfold keyonOperands at h
  split at h
  · rename_i g' w' e' h1 h2 h3
    simp only [Option.some.injEq, Prod.mk.injEq] at h
    obtain ⟨rfl, rfl, rfl⟩ := h
    obtain ⟨h4, h5⟩ := generatorOperand_some h1
    exact ⟨h4, h5, h2, h3⟩
  · simp at h

/-- Every way a command can end: a recorded fault, or the whole effect of its rule. -/
theorem exec_cases {i : Instr} {s t : State} (h : exec i s = .next t) :
    (∃ code info, t = s.raise code info) ∨
    (i = .nop ∧ t = s) ∨
    (∃ g v e w en, i = .keyon g v e ∧ g < s.params.ngen ∧ Waveform.ofCode v = some w ∧ Envelope.ofCode e = some en ∧
      t = s.modifyGen g fun G => G.keyOn w en) ∨
    (∃ g, i = .mute g ∧ g < s.params.ngen ∧ t = s.modifyGen g Generator.silence) ∨
    (i = .triggerFx ∧ t = { s with fx := s.fx.trigger }) ∨
    (i = .renderAudio ∧ s.gens.findIdx? Generator.wouldDivideByZero = none ∧
      t = s.afterRender (s.renderSamples s.params.frameSamples s.mixer).1 (s.mixerAt s.mixer s.params.frameSamples)) ∨
    (i = .compositeBg ∧ t = s.memWrite Region.fbRam.base s.compositedFrame) ∨
    (i = .drawSprites ∧ s.sprites.findIdx? (·.outOfBounds s.params) = none ∧
      t = s.writeCells (s.sprites.flatMap s.spriteCells)) ∨
    (i = .drawOverlay ∧ s.ovl.outOfBounds s.params = false ∧
      t = s.writeCells ((List.range s.ovl.textLen.toNat).flatMap s.glyphCells)) := by
  cases i with
  | nop => right; left; cases h; exact ⟨rfl, rfl⟩
  | keyon g v e =>
    simp only [exec, execKeyon] at h
    split at h
    · rename_i g' w en hop
      obtain ⟨rfl, h1, h2, h3⟩ := keyonOperands_some hop
      cases h
      exact .inr (.inr (.inl ⟨_, v, e, w, en, rfl, h1, h2, h3, rfl⟩))
    · cases h; exact .inl ⟨_, _, rfl⟩
  | mute g =>
    simp only [exec, execMute] at h
    split at h
    · rename_i g' hop
      obtain ⟨rfl, h1⟩ := generatorOperand_some hop
      cases h
      exact .inr (.inr (.inr (.inl ⟨_, rfl, h1, rfl⟩)))
    · cases h; exact .inl ⟨_, _, rfl⟩
  | triggerFx => cases h; exact .inr (.inr (.inr (.inr (.inl ⟨rfl, rfl⟩))))
  | renderAudio =>
    simp only [exec, execRenderAudio] at h
    split at h
    · cases h; exact .inl ⟨_, _, rfl⟩
    · rename_i hn
      cases h
      exact .inr (.inr (.inr (.inr (.inr (.inl ⟨rfl, hn, by rw [State.renderSamples_mixer]⟩)))))
  | compositeBg => cases h; exact .inr (.inr (.inr (.inr (.inr (.inr (.inl ⟨rfl, rfl⟩))))))
  | drawSprites =>
    simp only [exec, execDrawSprites] at h
    split at h
    · cases h; exact .inl ⟨_, _, rfl⟩
    · rename_i hn
      cases h
      exact .inr (.inr (.inr (.inr (.inr (.inr (.inr (.inl ⟨rfl, hn, rfl⟩)))))))
  | drawOverlay =>
    simp only [exec, execDrawOverlay] at h
    split at h
    · cases h; exact .inl ⟨_, _, rfl⟩
    · rename_i hn
      cases h
      exact .inr (.inr (.inr (.inr (.inr (.inr (.inr (.inr ⟨rfl, by simpa using hn, rfl⟩)))))))

/-- Every command answers a next state: no command stops the machine. -/
theorem exec_answers_next (i : Instr) (s : State) : ∃ t, exec i s = .next t := by
  cases i <;> simp only [exec, execNop, execKeyon, execMute, execTriggerFx, execRenderAudio, execCompositeBg, execDrawSprites,
    execDrawOverlay] <;> (try split) <;> exact ⟨_, rfl⟩

/-! ### Where the video commands write -/

theorem State.compositedFrame_length (s : State) : s.compositedFrame.length = s.params.fbW * s.params.fbH := by
  simp [State.compositedFrame, List.length_flatMap, Nat.mul_comm]

/-- A pixel's offset is inside FB_RAM. -/
theorem fbAddr_in_frame {p : Params} {y x : Nat} (hy : y < p.fbH) (hx : x < p.fbW) : Region.fbRam.Holds p (fbAddr p y x) := by
  have h1 : y * p.fbW + x < p.fbH * p.fbW := by
    calc y * p.fbW + x < y * p.fbW + p.fbW := by omega
      _ = (y + 1) * p.fbW := by ring
      _ ≤ p.fbH * p.fbW := Nat.mul_le_mul_right _ hy
  refine ⟨?_, ?_⟩
  · unfold fbAddr; omega
  · have h2 : Region.fbRam.size p = p.fbH * p.fbW := Nat.mul_comm _ _
    unfold fbAddr
    omega

/-- Different pixels have different offsets. -/
theorem fbAddr_inj {p : Params} {y x y' x' : Nat} (hx : x < p.fbW) (hx' : x' < p.fbW) (h : fbAddr p y x = fbAddr p y' x') :
    y = y' ∧ x = x' := by
  have e : y * p.fbW + x = y' * p.fbW + x' := by unfold fbAddr at h; omega
  have h1 : (y * p.fbW + x) / p.fbW = y := by
    rw [Nat.mul_comm, Nat.mul_add_div (by omega), Nat.div_eq_of_lt hx]; rfl
  have h2 : (y' * p.fbW + x') / p.fbW = y' := by
    rw [Nat.mul_comm, Nat.mul_add_div (by omega), Nat.div_eq_of_lt hx']; rfl
  have hy : y = y' := by rw [← h1, ← h2, e]
  subst hy
  exact ⟨rfl, by omega⟩

/-- The cells of a sprite: visible, a pixel of its rectangle, not key-coloured (44_sprites.md R235). -/
theorem mem_spriteCells {s : State} {S : Sprite} {c : Host.Cell} :
    c ∈ s.spriteCells S ↔ S.visible = true ∧ ∃ r q, r < S.h.toNat ∧ q < S.w.toNat ∧ s.tilePixel S r q ≠ S.key ∧
      c = (fbAddr s.params (S.y.toNat + r) (S.x.toNat + q), s.tilePixel S r q) := by
  unfold State.spriteCells
  cases hv : S.visible with
  | false => simp
  | true =>
    simp only [if_true, List.mem_flatMap, List.mem_range, List.mem_filterMap, true_and]
    constructor
    · rintro ⟨r, hr, q, hq, h⟩
      split at h
      · simp at h
      · rename_i hk
        exact ⟨r, q, hr, hq, hk, by simpa using h.symm⟩
    · rintro ⟨r, q, hr, hq, hk, rfl⟩
      exact ⟨r, hr, q, hq, by simp [hk]⟩

/-- The cells of a character: its set glyph bits (45_overlay.md R255). -/
theorem mem_glyphCells {s : State} {j : Nat} {c : Host.Cell} :
    c ∈ s.glyphCells j ↔ ∃ r q, r < glyphH ∧ q < glyphW ∧ s.glyphBit j r q = true ∧
      c = (fbAddr s.params (s.ovl.y.toNat + r) (s.ovl.x.toNat + glyphW * j + q), s.ovl.fgColor) := by
  unfold State.glyphCells
  simp only [List.mem_flatMap, List.mem_range, List.mem_filterMap]
  constructor
  · rintro ⟨r, hr, q, hq, h⟩
    split at h
    · rename_i hb
      exact ⟨r, q, hr, hq, hb, by simpa using h.symm⟩
    · simp at h
  · rintro ⟨r, q, hr, hq, hb, rfl⟩
    exact ⟨r, hr, q, hq, by simp [hb]⟩

/-- A sprite in bounds writes frame pixels only. -/
theorem spriteCells_in_frame {s : State} {S : Sprite} (h : S.outOfBounds s.params = false) {c : Host.Cell}
    (hc : c ∈ s.spriteCells S) : Region.fbRam.Holds s.params c.1 := by
  obtain ⟨hv, r, q, hr, hq, _, rfl⟩ := mem_spriteCells.mp hc
  simp only [Sprite.outOfBounds, hv, Sprite.fits, Bool.true_and, Bool.not_eq_false', Bool.and_eq_true, decide_eq_true_eq] at h
  exact fbAddr_in_frame (by omega) (by omega)

/-- Text in bounds writes frame pixels only. -/
theorem glyphCells_in_frame {s : State} (h : s.ovl.outOfBounds s.params = false) {j : Nat} (hj : j < s.ovl.textLen.toNat)
    {c : Host.Cell} (hc : c ∈ s.glyphCells j) : Region.fbRam.Holds s.params c.1 := by
  obtain ⟨r, q, hr, hq, _, rfl⟩ := mem_glyphCells.mp hc
  simp only [Overlay.outOfBounds, show 0 < s.ovl.textLen.toNat by omega, decide_true, Bool.true_and, Bool.not_eq_false',
    Bool.and_eq_true, decide_eq_true_eq] at h
  have : glyphW * j + glyphW ≤ glyphW * s.ovl.textLen.toNat := by
    calc glyphW * j + glyphW = glyphW * (j + 1) := by ring
      _ ≤ glyphW * s.ovl.textLen.toNat := Nat.mul_le_mul_left _ hj
  exact fbAddr_in_frame (by omega) (by omega)

/-- The cells of a whole video command fall in FB_RAM. -/
theorem sprites_in_frame {s : State} (h : s.sprites.findIdx? (·.outOfBounds s.params) = none) {c : Host.Cell}
    (hc : c ∈ s.sprites.flatMap s.spriteCells) : Region.fbRam.Holds s.params c.1 := by
  obtain ⟨S, hS, hc⟩ := List.mem_flatMap.mp hc
  exact spriteCells_in_frame (by simpa using List.findIdx?_eq_none_iff.mp h S hS) hc

theorem text_in_frame {s : State} (h : s.ovl.outOfBounds s.params = false) {c : Host.Cell}
    (hc : c ∈ (List.range s.ovl.textLen.toNat).flatMap s.glyphCells) : Region.fbRam.Holds s.params c.1 := by
  obtain ⟨j, hj, hc⟩ := List.mem_flatMap.mp hc
  exact glyphCells_in_frame h (List.mem_range.mp hj) hc

end Sys2Proof.Machine
end

