-- ==== Sys2Proof/Laws/Registers.lean ====
section
/-! SUPPORT. The register map, register reads and writes, and reads of several bytes. -/

namespace Sys2Proof.Machine

/-! ### The map -/

theorem mem_of_lookup {β : Type} (l : List (Nat × β)) {k : Nat} {v : β} (h : l.lookup k = some v) : (k, v) ∈ l := by
  induction l with
  | nil => simp at h
  | cons c l ih =>
    rw [List.lookup_cons] at h
    split at h
    · rename_i e
      simp only [beq_iff_eq] at e
      subst e
      cases h
      simp
    · exact List.mem_cons_of_mem _ (ih h)

/-- Every register that exists, with its offset (10_state.md R22, R30, R38). -/
theorem regAt_cases {p : Params} {off : Nat} {r : Reg} (h : regAt p off = some r) :
    (off, r) ∈ globalMap ∨
    (∃ g q k, r = .gen g q ∧ g < p.ngen ∧ off = 0x100 + 0x20 * g + k ∧ (k, q) ∈ genMap) ∨
    (∃ i q k, r = .spr i q ∧ i < p.nspr ∧ off = 0x300 + 0x20 * i + k ∧ (k, q) ∈ sprMap) := by
  unfold regAt at h
  split at h
  · exact .inl (mem_of_lookup _ h)
  · split at h
    · simp only [Option.map_eq_some_iff] at h
      obtain ⟨q, h, rfl⟩ := h
      exact .inr (.inl ⟨_, q, _, rfl, by omega, by omega, mem_of_lookup _ h⟩)
    · split at h
      · simp only [Option.map_eq_some_iff] at h
        obtain ⟨q, h, rfl⟩ := h
        exact .inr (.inr ⟨_, q, _, rfl, by omega, by omega, mem_of_lookup _ h⟩)
      · cases h

/-- A register lies in REGS at a multiple of four (10_state.md R21). -/
theorem regAt_in_regs {p : Params} (hl : p.Legal) {off : Nat} {r : Reg} (h : regAt p off = some r) : off < 0x1000 ∧ off % 4 = 0 := by
  have hg := hl.2.2.1
  have hs := hl.2.2.2.1
  rcases regAt_cases h with hm | ⟨g, q, k, -, hb, ho, hq⟩ | ⟨i, q, k, -, hb, ho, hq⟩
  · simp only [globalMap, List.cons_append, List.nil_append, List.mem_cons, Prod.mk.injEq, List.not_mem_nil, or_false] at hm
    omega
  · have : k % 4 = 0 ∧ k < 32 := by simp [genMap] at hq; omega
    omega
  · have : k % 4 = 0 ∧ k < 32 := by simp [sprMap] at hq; omega
    omega

theorem regionOf_regs {p : Params} (hl : p.Legal) (a : Nat) : regionOf p a = some .regs ↔ a < 0x1000 := by
  rw [regionOf_eq_some hl]
  simp [Region.Holds, Region.base, Region.size]

theorem regOfOffset_eq {p : Params} (hl : p.Legal) {a : Nat} : regOfOffset p a = if a < 0x1000 then regAt p a else none := by
  unfold regOfOffset
  simp only [regionOf_regs hl]

/-! ### Performed reads and writes -/

theorem State.hostRead_register {s : State} {off : Nat} {n : Width} {r : Reg} (hl : s.params.Legal) (h : regAt s.params off = some r) :
    s.hostRead off n = s.readReg r := by
  unfold State.hostRead
  rw [regOfOffset_eq hl, if_pos (regAt_in_regs hl h).1, h]

theorem State.hostRead_memory {s : State} {off : Nat} {n : Width} (hl : s.params.Legal) (h : 0x1000 ≤ off) :
    s.hostRead off n = BitVec.ofNat 32 (s.memRead off n.bytes) := by
  unfold State.hostRead
  rw [regOfOffset_eq hl, if_neg (by omega)]

theorem State.hostWrite_register {s : State} {off : Nat} {n : Width} {v : Word} {r : Reg} (hl : s.params.Legal)
    (h : regAt s.params off = some r) (hc : r ≠ .cmd) : s.hostWrite off n v = s.writeReg v r := by
  have e : regOfOffset s.params off = some r := by rw [regOfOffset_eq hl, if_pos (regAt_in_regs hl h).1, h]
  unfold State.hostWrite
  rw [e]
  split
  · rename_i e
    cases e
    exact absurd rfl hc
  · rename_i e
    cases e
    rfl
  · rename_i e
    cases e

theorem State.hostWrite_memory {s : State} {off : Nat} {n : Width} {v : Word} (hl : s.params.Legal) (h : 0x1000 ≤ off) :
    s.hostWrite off n v = s.memWrite off (bytesLE v.toNat n.bytes) := by
  unfold State.hostWrite
  rw [regOfOffset_eq hl, if_neg (by omega)]

/-! ### What a register write leaves alone -/

/-- A write to a register other than CMD changes no memory, no command, no fault and no parameter. -/
theorem State.writeReg_frame (s : State) (v : Word) (r : Reg) :
    (s.writeReg v r).params = s.params ∧ (s.writeReg v r).mem = s.mem ∧ (s.writeReg v r).ramEpoch = s.ramEpoch ∧
    (s.writeReg v r).pending = s.pending ∧ (s.writeReg v r).faultRec = s.faultRec ∧ (s.writeReg v r).inputs = s.inputs ∧
    (s.writeReg v r).hostData = s.hostData := by
  cases r <;> exact ⟨rfl, rfl, rfl, rfl, rfl, rfl, rfl⟩

theorem Generator.write_other (G : Generator) (v : Word) {q q' : GenReg} (h : q' ≠ q) : (G.write v q).read q' = G.read q' := by
  cases q <;> cases q' <;> first | exact absurd rfl h | rfl

theorem Sprite.write_other (S : Sprite) (v : Word) {q q' : SprReg} (h : q' ≠ q) : (S.write v q).read q' = S.read q' := by
  cases q <;> cases q' <;> first | exact absurd rfl h | rfl

/-- A write to a register changes no other. -/
theorem State.writeReg_other (s : State) (v : Word) {r q : Reg} (h : q ≠ r) : (s.writeReg v r).readReg q = s.readReg q := by
  cases r
  case gen g r =>
    cases q <;> first | rfl | skip
    case gen g' q =>
      simp only [State.writeReg, State.readReg, State.modifyGen, List.getElem?_modify]
      by_cases e : g = g'
      · subst e
        have hq : q ≠ r := fun e => h (by rw [e])
        cases s.gens[g]? with
        | none => rfl
        | some G => simpa using G.write_other v hq
      · simp [e]
  case spr i r =>
    cases q <;> first | rfl | skip
    case spr i' q =>
      simp only [State.writeReg, State.readReg, List.getElem?_modify]
      by_cases e : i = i'
      · subst e
        have hq : q ≠ r := fun e => h (by rw [e])
        cases s.sprites[i]? with
        | none => rfl
        | some S => simpa using S.write_other v hq
      · simp [e]
  all_goals cases q <;> first | exact absurd rfl h | rfl

/-! ### What the other shared operations leave of the registers -/

/-- Recording a fault shows in STATUS and FAULT_INFO only. -/
theorem State.raise_readReg {s : State} {c : FaultCode} {i : Word} {r : Reg} (h : r ≠ .status) (h' : r ≠ .faultInfo) :
    (s.raise c i).readReg r = s.readReg r := by
  unfold State.raise
  split
  · cases r <;> first | rfl | exact absurd rfl h | exact absurd rfl h'
  · rfl

/-- Changing generator g shows in the registers of g that the change moves, and in no other. -/
theorem State.modifyGen_readReg {s : State} {g : Nat} {f : Generator → Generator} {r : Reg}
    (h : ∀ q, r = .gen g q → ∀ G, (f G).read q = G.read q) : (s.modifyGen g f).readReg r = s.readReg r := by
  cases r <;> try rfl
  rename_i g' q
  simp only [State.readReg, State.modifyGen, List.getElem?_modify]
  by_cases e : g = g'
  · subst e
    cases s.gens[g]? with
    | none => rfl
    | some G => simpa using h q rfl G
  · simp [e]

/-- The oscillator step never moves PHASE_DDELTA, VOL_DELTA, GAIN or ENV. -/
theorem oscStep_frame (p : Params) (tick : Bool) (G : Generator) :
    (oscStep p tick G).2.env = G.env ∧ (oscStep p tick G).2.phaseDDelta = G.phaseDDelta ∧
    (oscStep p tick G).2.volDelta = G.volDelta ∧ (oscStep p tick G).2.divL = G.divL ∧ (oscStep p tick G).2.divR = G.divR := by
  rcases oscStep_cases p tick G with ⟨_, e⟩ | ⟨w, _, ⟨_, e⟩ | ⟨_, _, e⟩ | ⟨_, _, e⟩⟩ <;> rw [e] <;> exact ⟨rfl, rfl, rfl, rfl, rfl⟩

/-! ### Bytes -/

theorem bytesLE_getElem? (v n i : Nat) (h : i < n) : (bytesLE v n)[i]? = some (BitVec.ofNat 8 (v / 256 ^ i)) := by
  induction n generalizing v i with
  | zero => omega
  | succ n ih =>
    cases i with
    | zero => simp [bytesLE]
    | succ i =>
      simp only [bytesLE, List.getElem?_cons_succ]
      rw [ih _ _ (by omega), Nat.div_div_eq_div_mul, Nat.pow_succ']

/-- A read of n bytes that are those of v gives the low bytes of v. -/
theorem State.memRead_of_bytes {s : State} (n a v : Nat) (h : ∀ i, i < n → (s.readByte (a + i)).toNat = v / 256 ^ i % 256) :
    s.memRead a n = v % 256 ^ n := by
  induction n generalizing a v with
  | zero => simp [State.memRead, Nat.mod_one]
  | succ n ih =>
    rw [State.memRead, ih (a + 1) (v / 256)]
    · have h0 := h 0 (by omega)
      simp only [Nat.add_zero, Nat.pow_zero, Nat.div_one] at h0
      rw [h0, Nat.pow_succ', Nat.mod_mul]
    · intro i hi
      have hs := h (i + 1) (by omega)
      rw [show a + 1 + i = a + (i + 1) by omega, hs, Nat.pow_succ', Nat.div_div_eq_div_mul]

/-- Equal bytes read equal. -/
theorem State.memRead_congr {s t : State} {n a : Nat} (h : ∀ i, i < n → t.readByte (a + i) = s.readByte (a + i)) :
    t.memRead a n = s.memRead a n := by
  induction n generalizing a with
  | zero => rfl
  | succ n ih =>
    rw [State.memRead, State.memRead, ih fun i hi => by rw [Nat.add_right_comm]; exact h (i + 1) (by omega)]
    rw [show t.readByte a = s.readByte a from h 0 (by omega)]

/-- A byte read depends on the parameters, the RAM list and its draw only. -/
theorem State.readByte_congr {s t : State} (h1 : t.params = s.params) (h2 : t.mem = s.mem) (h3 : t.ramEpoch = s.ramEpoch) (a : Nat) :
    t.readByte a = s.readByte a := by
  unfold State.readByte
  rw [h1, h2, h3]

end Sys2Proof.Machine
end

