-- ==== Sys2Proof/Laws/Steps.lean ====
section
/-! SUPPORT. Everything a host access and a step can do: one inversion lemma each, and the cases in which a step goes on. -/

namespace Sys2Proof.Machine

/-- The engine moves next; `rest` is what the host still has to do after that. -/
def State.EngineNext (s : State) (rest : List Event) : Prop := (s.inputs = [] ∧ rest = []) ∨ s.inputs = .engineTurn :: rest

/-- With the engine next to move, a step of a legal block is the engine's turn. -/
theorem step_engine {s : State} {rest : List Event} (hl : s.params.Legal) (h : s.EngineNext rest) :
    step s = ({ s with inputs := rest } : State).engineTurn := by
  unfold step State.advance State.takeEvent
  rw [if_pos hl]
  rcases h with ⟨h, rfl⟩ | h
  · rw [h]
    show s.engineTurn = _
    congr 1
    rw [← h]
  · rw [h]

/-- With a host access next, a step of a legal block performs it. -/
theorem step_access {s : State} {a : HostAccess} {rest : List Event} (hl : s.params.Legal) (h : s.inputs = .access a :: rest) :
    step s = .next (({ s with inputs := rest } : State).hostAccess a) := by
  unfold step State.advance State.takeEvent
  rw [if_pos hl, h]

/-- With a reset next, a step of a legal block resets it. -/
theorem step_reset {s : State} {rest : List Event} (hl : s.params.Legal) (h : s.inputs = .reset :: rest) :
    step s = .next ({ s with inputs := rest } : State).platformReset := by
  unfold step State.advance State.takeEvent
  rw [if_pos hl, h]

theorem engineTurn_idle {s : State} (hp : s.pending = none) : s.engineTurn = .next s := by
  unfold State.engineTurn
  rw [hp]

theorem engineTurn_faulted {s : State} {w : Word} {f : FaultRecord} (hp : s.pending = some w) (hf : s.faultRec = some f) :
    s.engineTurn = .next s.clearBusy := by
  unfold State.engineTurn
  rw [hp]
  dsimp only
  rw [if_pos (by simp [State.faulted, hf])]

theorem engineTurn_command {s t : State} {w : Word} {i : Instr} (hp : s.pending = some w) (hf : s.faultRec = none)
    (hd : decode w = .ok i) (he : exec i s = .next t) : s.engineTurn = .next t.clearBusy := by
  unfold State.engineTurn
  rw [hp]
  dsimp only
  rw [if_neg (by simp [State.faulted, hf])]
  unfold State.runCommand
  rw [hd]
  dsimp only
  rw [he]
  rfl

theorem engineTurn_illegal {s : State} {w : Word} {e : DecodeError} (hp : s.pending = some w) (hf : s.faultRec = none)
    (hd : decode w = .error e) : s.engineTurn = .next (s.raise .illegalCmd w).clearBusy := by
  unfold State.engineTurn
  rw [hp]
  dsimp only
  rw [if_neg (by simp [State.faulted, hf])]
  unfold State.runCommand
  rw [hd]

/-- Everything an engine turn can do (46_control.md R281). -/
theorem engineTurn_cases {s t : State} (h : s.engineTurn = .next t) :
    (s.pending = none ∧ t = s) ∨
    (∃ w f, s.pending = some w ∧ s.faultRec = some f ∧ t = s.clearBusy) ∨
    (∃ w e, s.pending = some w ∧ s.faultRec = none ∧ decode w = .error e ∧ t = (s.raise .illegalCmd w).clearBusy) ∨
    (∃ w i u, s.pending = some w ∧ s.faultRec = none ∧ decode w = .ok i ∧ exec i s = .next u ∧ t = u.clearBusy) := by
  unfold State.engineTurn at h
  cases hp : s.pending with
  | none => rw [hp] at h; cases h; exact .inl ⟨rfl, rfl⟩
  | some w =>
    rw [hp] at h
    dsimp only at h
    cases hf : s.faultRec with
    | some f =>
      rw [if_pos (by simp [State.faulted, hf])] at h
      cases h
      exact .inr (.inl ⟨w, f, rfl, rfl, rfl⟩)
    | none =>
      rw [if_neg (by simp [State.faulted, hf])] at h
      unfold State.runCommand at h
      cases hd : decode w with
      | error e => rw [hd] at h; cases h; exact .inr (.inr (.inl ⟨w, e, rfl, rfl, hd, rfl⟩))
      | ok i =>
        rw [hd] at h
        obtain ⟨u, hu⟩ := exec_answers_next i s
        simp only [hu, finishCommand, Host.Outcome.next.injEq] at h
        exact .inr (.inr (.inr ⟨w, i, u, rfl, rfl, hd, hu, h.symm⟩))

/-- Everything a step can do. -/
theorem step_cases {s t : State} (h : step s = .next t) :
    s.params.Legal ∧
    ((∃ a rest, s.inputs = .access a :: rest ∧ t = ({ s with inputs := rest } : State).hostAccess a) ∨
     (∃ rest, s.inputs = .reset :: rest ∧ t = ({ s with inputs := rest } : State).platformReset) ∨
     (∃ rest, s.EngineNext rest ∧ ({ s with inputs := rest } : State).engineTurn = .next t)) := by
  have hl : s.params.Legal := by
    by_contra hn
    unfold step State.advance at h
    rw [if_neg hn] at h
    cases h
  refine ⟨hl, ?_⟩
  match hi : s.inputs with
  | [] => exact .inr (.inr ⟨[], .inl ⟨hi, rfl⟩, by rw [← step_engine hl (.inl ⟨hi, rfl⟩)]; exact h⟩)
  | .engineTurn :: rest => exact .inr (.inr ⟨rest, .inr hi, by rw [← step_engine hl (.inr hi)]; exact h⟩)
  | .access a :: rest =>
    rw [step_access hl hi] at h
    cases h
    exact .inl ⟨a, rest, rfl, rfl⟩
  | .reset :: rest =>
    rw [step_reset hl hi] at h
    cases h
    exact .inr (.inl ⟨rest, rfl, rfl⟩)

/-- Every engine turn answers a next state. -/
theorem engineTurn_answers_next (s : State) : ∃ t, s.engineTurn = .next t := by
  unfold State.engineTurn
  split
  · exact ⟨_, rfl⟩
  · split
    · exact ⟨_, rfl⟩
    · unfold State.runCommand
      split
      · rename_i i _
        obtain ⟨u, hu⟩ := exec_answers_next i s
        exact ⟨_, by rw [hu]; rfl⟩
      · exact ⟨_, rfl⟩

/-- Everything a write to CMD can do (46_control.md R280). -/
theorem writeCmd_cases (s : State) (v : Word) :
    s.writeCmd v = s ∨ s.writeCmd v = s.raise .busyAccess 0x004 ∨
      (s.faultRec = none ∧ s.pending = none ∧ s.writeCmd v = { s with pending := some v }) := by
  unfold State.writeCmd
  split
  · exact .inl rfl
  · rename_i hf
    split
    · exact .inr (.inl rfl)
    · rename_i hb
      exact .inr (.inr ⟨by simpa [State.faulted] using hf, by simpa [State.busy] using hb, rfl⟩)

/-- Everything a host access can do (46_control.md R285). -/
theorem hostAccess_cases (s : State) (a : HostAccess) :
    (∃ code off n, s.accessFault a = some code ∧ a = .read off n ∧ s.hostAccess a = { s.raise code off with hostData := 0 }) ∨
    (∃ code off n v, s.accessFault a = some code ∧ a = .write off n v ∧ s.hostAccess a = s.raise code off) ∨
    (∃ off n, s.accessFault a = none ∧ a = .read off n ∧ s.hostAccess a = { s with hostData := s.hostRead off.toNat n }) ∨
    (∃ off n v, s.accessFault a = none ∧ a = .write off n v ∧ regOfOffset s.params off.toNat = some .cmd ∧
      s.hostAccess a = s.writeCmd v) ∨
    (∃ off n v r, s.accessFault a = none ∧ a = .write off n v ∧ regOfOffset s.params off.toNat = some r ∧ r ≠ .cmd ∧
      s.hostAccess a = s.writeReg v r) ∨
    (∃ off n v, s.accessFault a = none ∧ a = .write off n v ∧ regOfOffset s.params off.toNat = none ∧
      s.hostAccess a = s.memWrite off.toNat (bytesLE v.toNat n.bytes)) := by
  cases hf : s.accessFault a with
  | some code =>
    cases a with
    | read off n => exact .inl ⟨code, off, n, rfl, rfl, by unfold State.hostAccess; rw [hf]⟩
    | write off n v => exact .inr (.inl ⟨code, off, n, v, rfl, rfl, by unfold State.hostAccess; rw [hf]⟩)
  | none =>
    cases a with
    | read off n => exact .inr (.inr (.inl ⟨off, n, rfl, rfl, by unfold State.hostAccess; rw [hf]⟩))
    | write off n v =>
      have e : s.hostAccess (.write off n v) = s.hostWrite off.toNat n v := by unfold State.hostAccess; rw [hf]
      rw [e]
      unfold State.hostWrite
      split
      · rename_i hr
        exact .inr (.inr (.inr (.inl ⟨off, n, v, rfl, rfl, hr, rfl⟩)))
      · rename_i r hne hr
        exact .inr (.inr (.inr (.inr (.inl ⟨off, n, v, r, rfl, rfl, hr, fun h => hne (by rw [← h]), rfl⟩))))
      · rename_i hr
        exact .inr (.inr (.inr (.inr (.inr ⟨off, n, v, rfl, rfl, hr, rfl⟩))))

/-- A byte at most three above a RAM byte, in any region, is a RAM byte. -/
theorem isRam_of_near {p : Params} (hl : p.Legal) {r q : Region} {a i : Nat} (hr : r.isRam = true) (ha : r.Holds p a)
    (hb : q.Holds p (a + i)) (hi : i < 4) : q.isRam = true := by
  have w1 := Region.size_le_window hl r
  have w2 := Region.size_le_window hl q
  obtain ⟨a1, a2⟩ := ha
  obtain ⟨b1, b2⟩ := hb
  have hr0 : Region.audRam.base ≤ r.base := by cases r <;> simp [Region.isRam, Region.isRom] at hr <;> simp [Region.base]
  have hq : ¬ (q.base + q.window ≤ Region.audRam.base) := by omega
  cases q <;> simp [Region.base, Region.window, Region.isRam, Region.isRom] at hq ⊢

/-- A byte that exists lies in a region, and in REGS belongs to a register. -/
theorem mappedByte_cases {p : Params} {a : Nat} (h : mappedByte p a = true) :
    ∃ r, regionOf p a = some r ∧ (r = .regs → ∃ q, regAt p (a / 4 * 4) = some q) := by
  unfold mappedByte at h
  split at h
  · rename_i e
    exact ⟨_, e, fun _ => Option.isSome_iff_exists.mp h⟩
  · rename_i r hne e
    exact ⟨r, e, fun h => absurd h hne⟩
  · cases h

/-- The checks that an access without an address error passes (46_control.md R285). -/
theorem addressError_false {p : Params} {a : HostAccess} (h : a.addressError p = false) :
    (regionOf p a.offset.toNat = some .regs → a.width.bytes = 4) ∧ a.offset.toNat % a.width.bytes = 0 ∧
    (∀ i, i < a.width.bytes → mappedByte p (a.offset.toNat + i) = true) ∧
    (a.isWrite = true → inRom p a.offset.toNat = false) := by
  simp only [HostAccess.addressError, Bool.or_eq_false_iff, Bool.and_eq_false_iff, List.any_eq_false, List.mem_range,
    bne_eq_false_iff_eq, decide_eq_false_iff_not] at h
  obtain ⟨⟨⟨h1, h2⟩, h3⟩, h4⟩ := h
  refine ⟨fun e => h1.resolve_left (fun n => n e), h2, fun i hi => ?_, fun w => h4.resolve_left (by simp [w])⟩
  simpa using h3 i hi

/-- A write that passes the address checks outside REGS falls in RAM (20_memory.md R71, R75, R77). -/
theorem accessFault_none_write {s : State} {off : Word} {n : Width} {v : Word} (hl : s.params.Legal)
    (h : s.accessFault (.write off n v) = none) (hr : regOfOffset s.params off.toNat = none) :
    ∀ i, i < n.bytes → ∃ r : Region, r.isRam = true ∧ r.Holds s.params (off.toNat + i) := by
  intro i hi
  have ha : (HostAccess.write off n v).addressError s.params = false := by
    unfold State.accessFault at h
    split at h
    · simp at h
    · rename_i hn; simpa using hn
  obtain ⟨h1, h2, h3, h4⟩ := addressError_false ha
  obtain ⟨R, hR, -⟩ := mappedByte_cases (h3 i hi)
  obtain ⟨R0, hR0, hq⟩ := mappedByte_cases (h3 0 (Nat.zero_lt_of_lt hi))
  rw [Nat.add_zero] at hR0 hq
  change regionOf s.params off.toNat = some R0 at hR0
  change R0 = .regs → ∃ q, regAt s.params (off.toNat / 4 * 4) = some q at hq
  change off.toNat % n.bytes = 0 at h2
  have hrom0 : R0.isRom = false := by
    have h5 : inRom s.params off.toNat = false := h4 rfl
    unfold inRom at h5
    rwa [hR0] at h5
  have hregs0 : R0 ≠ .regs := by
    intro e
    obtain ⟨q, hq⟩ := hq e
    have h5 : n.bytes = 4 := h1 (e ▸ hR0)
    rw [h5] at h2
    rw [show off.toNat / 4 * 4 = off.toNat by omega] at hq
    unfold regOfOffset at hr
    rw [if_pos (e ▸ hR0), hq] at hr
    cases hr
  have hb : n.bytes ≤ 4 := by cases n <;> simp [Width.bytes]
  exact ⟨R, isRam_of_near hl (by simp [Region.isRam, hrom0, hregs0]) ((regionOf_eq_some hl).mp hR0)
    ((regionOf_eq_some hl).mp hR) (by omega), (regionOf_eq_some hl).mp hR⟩

end Sys2Proof.Machine
end

