-- ==== Sys2Proof/Laws/HostProgram.lean ====
section
/-! SUPPORT. Runs of a host program event by event, what a read of STATUS does, and that commands do not depend on what the host still
has to do or has last read. -/

namespace Sys2Proof.Machine

/-! ### Runs, one event at a time -/

theorem Program.runsOf_nil {ops : List Op} {s : State} : RunsOf ops s [] ↔ ops = [] := Iff.rfl

theorem Program.runsOf_engineTurn {ops : List Op} {s : State} {es : List Event} :
    RunsOf ops s (.engineTurn :: es) ↔ ∃ t, ({ s with inputs := es } : State).engineTurn = .next t ∧ RunsOf ops t es := Iff.rfl

theorem Program.runsOf_access {b a : HostAccess} {rest : List Op} {s : State} {es : List Event} :
    RunsOf (.access b :: rest) s (.access a :: es) ↔ a = b ∧ RunsOf rest (({ s with inputs := es } : State).hostAccess a) es := Iff.rfl

theorem Program.not_runsOf_reset {ops : List Op} {s : State} {es : List Event} : ¬ RunsOf ops s (.reset :: es) := fun h => h

/-! ### Reading STATUS -/

/-- Bit 0 of STATUS is BUSY (10_state.md R22). -/
theorem State.status_bit0 (s : State) : (s.readReg .status).getLsbD 0 = s.busy := by
  simp only [State.readReg, State.status]
  rw [BitVec.getLsbD_append]
  cases s.busy <;> simp

/-- A read of STATUS returns it, busy or not, and changes nothing else (46_control.md R282). -/
theorem State.hostAccess_statusRead {s : State} (hl : s.params.Legal) :
    s.hostAccess Program.statusRead = { s with hostData := s.readReg .status } := by
  have hreg : regOfOffset s.params Program.statusRead.offset.toNat = some .status := by
    rw [regOfOffset_eq hl]
    rfl
  have hmap : ∀ i, i < 4 → mappedByte s.params (8 + i) = true := by
    intro i hi
    unfold mappedByte
    rw [(regionOf_regs hl _).mpr (by omega), show (8 + i) / 4 * 4 = 8 by omega]
    rfl
  have haddr : Program.statusRead.addressError s.params = false := by
    simp only [HostAccess.addressError, Program.statusRead, HostAccess.offset, HostAccess.width, HostAccess.isWrite, Width.bytes,
      Bool.or_eq_false_iff]
    refine ⟨⟨⟨by simp, by decide⟩, ?_⟩, rfl⟩
    rw [List.any_eq_false]
    intro i hi
    simp [hmap i (List.mem_range.mp hi)]
  have hbusy : Program.statusRead.allowedWhileBusy s.params = true := by
    unfold HostAccess.allowedWhileBusy
    rw [hreg]
    rfl
  have hfault : s.accessFault Program.statusRead = none := by
    unfold State.accessFault
    rw [if_neg (by simp [haddr]), if_neg (by simp [hbusy])]
  unfold State.hostAccess
  rw [hfault]
  show { s with hostData := s.hostRead _ _ } = _
  rw [State.hostRead_register (r := .status) hl rfl]

/-- While BUSY = 1 a WAIT reads STATUS and is still to be done. -/
theorem Program.runsOf_wait_busy {rest : List Op} {s : State} {es : List Event} {w : Word} (hl : s.params.Legal)
    (hp : s.pending = some w) :
    RunsOf (.wait :: rest) s (.access statusRead :: es) ↔
      RunsOf (.wait :: rest) { s with inputs := es, hostData := s.readReg .status } es := by
  have hb : afterPoll (({ s with inputs := es } : State).readReg .status) rest = .wait :: rest := by
    unfold afterPoll
    rw [State.status_bit0, if_pos (by simp [State.busy, hp])]
  show (_ ∧ RunsOf _ _ es) ↔ _
  rw [State.hostAccess_statusRead (s := { s with inputs := es }) hl]
  simp only [hb, true_and]
  rfl

/-- With BUSY = 0 a WAIT reads STATUS once and is done. -/
theorem Program.runsOf_wait_idle {rest : List Op} {s : State} {es : List Event} (hl : s.params.Legal) (hp : s.pending = none) :
    RunsOf (.wait :: rest) s (.access statusRead :: es) ↔ RunsOf rest { s with inputs := es, hostData := s.readReg .status } es := by
  have hb : afterPoll (({ s with inputs := es } : State).readReg .status) rest = rest := by
    unfold afterPoll
    rw [State.status_bit0, if_neg (by simp [State.busy, hp])]
  show (_ ∧ RunsOf _ _ es) ↔ _
  rw [State.hostAccess_statusRead (s := { s with inputs := es }) hl]
  simp only [hb, true_and]
  rfl

/-! ### The engine and the host's own fields -/

/-- The state with another list of events to come and another last reply. -/
def State.withHost (s : State) (inputs : List Event) (hostData : Word) : State := { s with inputs := inputs, hostData := hostData }

theorem State.raise_withHost (s : State) (c : FaultCode) (i : Word) (es : List Event) (d : Word) :
    (s.withHost es d).raise c i = (s.raise c i).withHost es d := by
  cases h : s.faultRec <;> simp [State.raise, State.withHost, h]

theorem State.renderSamples_withHost (s : State) (es : List Event) (d : Word) (n : Nat) (m : Mixer) :
    (s.withHost es d).renderSamples n m = s.renderSamples n m := by
  have hfx : ∀ m, (s.withHost es d).effectValue m = s.effectValue m := by
    intro m
    unfold State.effectValue State.fxSample
    rw [State.memRead_congr (s := s) (t := s.withHost es d) fun _ _ => rfl]
    rfl
  have hsum : ∀ m, (s.withHost es d).mixSums m = s.mixSums m := by
    intro m
    unfold State.mixSums
    rw [hfx]
    rfl
  induction n generalizing m with
  | zero => rfl
  | succ n ih =>
    unfold State.renderSamples
    rw [show (s.withHost es d).mixNext m = s.mixNext m from rfl, hsum, ih]

/-- A command neither reads nor writes what the host still has to do or has last read. -/
theorem exec_withHost {i : Instr} {s t : State} (h : exec i s = .next t) (es : List Event) (d : Word) :
    exec i (s.withHost es d) = .next (t.withHost es d) := by
  cases i with
  | nop => cases h; rfl
  | keyon g v e =>
    simp only [exec, execKeyon] at h ⊢
    rw [show (s.withHost es d).params = s.params from rfl]
    split at h <;> cases h
    · rfl
    · rw [State.raise_withHost]
  | mute g =>
    simp only [exec, execMute] at h ⊢
    rw [show (s.withHost es d).params = s.params from rfl]
    split at h <;> cases h
    · rfl
    · rw [State.raise_withHost]
  | triggerFx => cases h; rfl
  | renderAudio =>
    simp only [exec, execRenderAudio] at h ⊢
    rw [show (s.withHost es d).gens = s.gens from rfl]
    split at h <;> cases h
    · rw [State.raise_withHost]
    · rw [State.renderSamples_withHost]
      rfl
  | compositeBg => cases h; rfl
  | drawSprites =>
    simp only [exec, execDrawSprites] at h ⊢
    rw [show (s.withHost es d).params = s.params from rfl, show (s.withHost es d).sprites = s.sprites from rfl]
    split at h <;> cases h
    · rw [State.raise_withHost]
    · rfl
  | drawOverlay =>
    simp only [exec, execDrawOverlay] at h ⊢
    rw [show (s.withHost es d).params = s.params from rfl, show (s.withHost es d).ovl = s.ovl from rfl]
    by_cases hb : s.ovl.outOfBounds s.params = true
    · rw [if_pos hb] at h ⊢
      cases h
      rw [State.raise_withHost]
    · rw [if_neg hb] at h ⊢
      cases h
      rfl

theorem engineTurn_withHost {s t : State} (h : s.engineTurn = .next t) (es : List Event) (d : Word) :
    (s.withHost es d).engineTurn = .next (t.withHost es d) := by
  rcases engineTurn_cases h with ⟨hp, rfl⟩ | ⟨w, f, hp, hf, rfl⟩ | ⟨w, e, hp, hf, hd, rfl⟩ | ⟨w, i, u, hp, hf, hd, he, rfl⟩
  · exact engineTurn_idle hp
  · exact engineTurn_faulted (s := s.withHost es d) hp hf
  · rw [engineTurn_illegal (s := s.withHost es d) hp hf hd, State.raise_withHost]
    rfl
  · rw [engineTurn_command (s := s.withHost es d) hp hf hd (exec_withHost he es d)]
    rfl

theorem exec_frame {i : Instr} {s t : State} (h : exec i s = .next t) :
    t.params = s.params ∧ t.inputs = s.inputs ∧ t.hostData = s.hostData ∧ t.pending = s.pending := by
  rcases exec_cases h with ⟨c, f, rfl⟩ | ⟨-, rfl⟩ | ⟨_, _, _, _, _, -, -, -, -, rfl⟩ | ⟨_, -, -, rfl⟩ | ⟨-, rfl⟩ | ⟨-, -, rfl⟩ |
    ⟨-, rfl⟩ | ⟨-, -, rfl⟩ | ⟨-, -, rfl⟩
  · simp
  all_goals exact ⟨rfl, rfl, rfl, rfl⟩

/-- After its turn the engine is idle, and the host's own fields are as before. -/
theorem engineTurn_frame {s t : State} (h : s.engineTurn = .next t) :
    t.params = s.params ∧ t.inputs = s.inputs ∧ t.hostData = s.hostData ∧ t.pending = none := by
  rcases engineTurn_cases h with ⟨hp, rfl⟩ | ⟨w, f, -, -, rfl⟩ | ⟨w, e, -, -, -, rfl⟩ | ⟨w, i, u, -, -, -, he, rfl⟩
  · exact ⟨rfl, rfl, rfl, hp⟩
  · exact ⟨rfl, rfl, rfl, rfl⟩
  · simp
  · obtain ⟨h1, h2, h3, -⟩ := exec_frame he
    exact ⟨h1, h2, h3, rfl⟩

end Sys2Proof.Machine
end

