-- ==== Sys2Proof/Laws/PerInstr.lean ====
section
/-! SUPPORT. Facts about every command as syntax, one lemma per constructor. -/

namespace Sys2Proof.Laws.OpcodeByte

/-- The opcode of a command (30_encoding.md R103). -/
def opcode : Instr → Nat
  | .nop => 0x00
  | .keyon _ _ _ => 0x01
  | .mute _ => 0x02
  | .triggerFx => 0x03
  | .renderAudio => 0x10
  | .compositeBg => 0x20
  | .drawSprites => 0x21
  | .drawOverlay => 0x22

/-- The top byte of a well-formed command's word is its opcode (30_encoding.md R101). -/
def Statement (i : Instr) : Prop := i.wf = true → bits (encode i) 31 24 = opcode i

theorem nop : Statement .nop := fun _ => by decide

theorem keyon (gen voice env : Nat) : Statement (.keyon gen voice env) := fun h => by
  simp only [Instr.wf, Bool.and_eq_true, decide_eq_true_eq] at h
  simp only [bits, encode, opcode, BitVec.toNat_ofNat]
  omega

theorem mute (gen : Nat) : Statement (.mute gen) := fun h => by
  simp only [Instr.wf, decide_eq_true_eq] at h
  simp only [bits, encode, opcode, BitVec.toNat_ofNat]
  omega

theorem triggerFx : Statement .triggerFx := fun _ => by decide

theorem renderAudio : Statement .renderAudio := fun _ => by decide

theorem compositeBg : Statement .compositeBg := fun _ => by decide

theorem drawSprites : Statement .drawSprites := fun _ => by decide

theorem drawOverlay : Statement .drawOverlay := fun _ => by decide

end Sys2Proof.Laws.OpcodeByte
end

