-- ==== Sys2Proof/Laws/SineError.lean ====
section
/-! SUPPORT. The fixed-point sine of Machine/Tables.lean against the real one: an error bound for every table length, so that the
rounding of 40_tables.md R131 can only differ within 10^-15 of a half-integer. -/
open Filter Topology

namespace Sys2Proof.Machine

/-- The terms of the sine series. -/
noncomputable def sineTerm (x : ℝ) (n : ℕ) : ℝ := x ^ (2 * n + 1) / (2 * n + 1).factorial

theorem sineTerm_antitone {x : ℝ} (h0 : 0 ≤ x) (h2 : x ≤ 2) : Antitone (sineTerm x) := by
  apply antitone_nat_of_succ_le
  intro n
  unfold sineTerm
  have hf : ((2 * (n + 1) + 1).factorial : ℝ) = (2 * n + 3) * ((2 * n + 2) * (2 * n + 1).factorial) := by
    rw [show 2 * (n + 1) + 1 = (2 * n + 2) + 1 by ring, Nat.factorial_succ, Nat.factorial_succ]; push_cast; ring
  have hp : (0 : ℝ) < (2 * n + 1).factorial := by exact_mod_cast Nat.factorial_pos _
  rw [hf, show 2 * (n + 1) + 1 = (2 * n + 1) + 2 by ring, pow_add]
  rw [div_le_div_iff₀ (by positivity) hp]
  have hx : x ^ 2 ≤ (2 * (n:ℝ) + 3) * (2 * n + 2) := by nlinarith [show (0:ℝ) ≤ n by positivity]
  have hq : 0 ≤ x ^ (2 * n + 1) := by positivity
  nlinarith [mul_le_mul_of_nonneg_left hx (mul_nonneg hq hp.le)]

theorem sin_between {x : ℝ} (h0 : 0 ≤ x) (h2 : x ≤ 2) :
    ∑ i ∈ Finset.range 16, (-1) ^ i * sineTerm x i ≤ Real.sin x ∧
    Real.sin x ≤ ∑ i ∈ Finset.range 16, (-1) ^ i * sineTerm x i + x ^ 33 / Nat.factorial 33 := by
  have ht : Tendsto (fun n => ∑ i ∈ Finset.range n, (-1) ^ i * sineTerm x i) atTop (𝓝 (Real.sin x)) := by
    have := (Real.hasSum_sin x).tendsto_sum_nat
    refine this.congr fun n => Finset.sum_congr rfl fun i _ => ?_
    unfold sineTerm; ring
  have ha := sineTerm_antitone h0 h2
  refine ⟨ha.alternating_series_le_tendsto ht 8, ?_⟩
  have := ha.tendsto_le_alternating_series ht 8
  rw [Finset.sum_range_succ, show ((-1 : ℝ)) ^ (2 * 8) = 1 by norm_num, one_mul] at this
  exact this

/-- One step of the Horner form of the sine polynomial. -/
noncomputable def hornerReal (y : ℝ) : ℕ → ℝ
  | 0 => 1
  | j + 1 => 1 - y * hornerReal y j / ((30 - 2 * j : ℕ) * (31 - 2 * j : ℕ))

theorem horner_sum (x : ℝ) : x * hornerReal (x ^ 2) 15 = ∑ i ∈ Finset.range 16, (-1) ^ i * sineTerm x i := by
  simp only [hornerReal, sineTerm, Finset.sum_range_succ, Finset.sum_range_zero, Nat.factorial]
  norm_num
  ring

/-- The same step in fixed point, at scale F. -/
def hornerFix (F xx : Nat) : Nat → Nat
  | 0 => F
  | j + 1 => F - xx * hornerFix F xx j / (F * ((30 - 2 * j) * (31 - 2 * j)))

theorem foldl_eq_hornerFix (F xx : Nat) :
    (List.range 15).foldl (fun h j => F - xx * h / (F * ((30 - 2 * j) * (31 - 2 * j)))) F = hornerFix F xx 15 := rfl

theorem fixSin_eq (x : Nat) : fixSin x = x * hornerFix fixOne (x * x / fixOne) 15 / fixOne := by
  unfold fixSin
  dsimp only
  rw [foldl_eq_hornerFix]

/-- A natural quotient is within 1 below the real one. -/
theorem nat_div_bounds (a b : Nat) (hb : 0 < b) : (a : ℝ) / b - 1 ≤ (a / b : Nat) ∧ ((a / b : Nat) : ℝ) ≤ (a : ℝ) / b := by
  have hb' : (0 : ℝ) < b := by exact_mod_cast hb
  have h1 := Nat.div_add_mod a b
  have h2 := Nat.mod_lt a hb
  constructor
  · rw [sub_le_iff_le_add, div_le_iff₀ hb']
    have : a ≤ (a / b + 1) * b := by nlinarith
    exact_mod_cast this
  · rw [le_div_iff₀ hb']
    have : a / b * b ≤ a := Nat.div_mul_le_self a b
    exact_mod_cast this

/-- The Horner form stays in [0, 1] and its fixed-point value within 3 units of the last place. -/
theorem horner_error {F xx : Nat} {y : ℝ} (hF : 0 < F) (hy0 : 0 ≤ y) (hy : y ≤ 3) (hx : |(xx : ℝ) / F - y| ≤ 1 / F) (hxx : xx ≤ 3 * F)
    (j : Nat) (hj : j ≤ 15) :
    (0 ≤ hornerReal y j ∧ hornerReal y j ≤ 1) ∧ hornerFix F xx j ≤ F ∧ |(hornerFix F xx j : ℝ) / F - hornerReal y j| ≤ 3 / F := by
  have hF' : (0 : ℝ) < F := by exact_mod_cast hF
  induction j with
  | zero =>
    refine ⟨⟨by norm_num [hornerReal], by norm_num [hornerReal]⟩, le_refl _, ?_⟩
    simp only [hornerFix, hornerReal]
    rw [div_self hF'.ne', sub_self, abs_zero]; positivity
  | succ j ih =>
    obtain ⟨⟨r0, r1⟩, f1, e⟩ := ih (by omega)
    obtain ⟨c, hc, hc6⟩ : ∃ c : Nat, c = (30 - 2 * j) * (31 - 2 * j) ∧ 6 ≤ c := by
      refine ⟨_, rfl, ?_⟩
      have : j ≤ 14 := by omega
      interval_cases j <;> norm_num
    have hcr : (6 : ℝ) ≤ c := by exact_mod_cast hc6
    have hc0 : (0 : ℝ) < c := by linarith
    set h := hornerFix F xx j with hh
    set r := hornerReal y j with hr
    have er : hornerReal y (j + 1) = 1 - y * r / c := by
      rw [hornerReal, hc]; push_cast; rfl
    have ef : hornerFix F xx (j + 1) = F - xx * h / (F * c) := by rw [hornerFix, hc]
    have hq : xx * h / (F * c) ≤ F := by
      apply Nat.div_le_of_le_mul
      calc xx * h ≤ (3 * F) * F := Nat.mul_le_mul hxx f1
        _ ≤ F * c * F := by nlinarith [Nat.mul_le_mul_left (F * F) hc6]
    obtain ⟨q1, q2⟩ := nat_div_bounds (xx * h) (F * c) (by positivity)
    rw [er, ef]
    have yr : 0 ≤ y * r / c ∧ y * r / c ≤ 1 := by
      refine ⟨by positivity, ?_⟩
      rw [div_le_one hc0]; nlinarith
    refine ⟨⟨by linarith, by linarith⟩, Nat.sub_le _ _, ?_⟩
    rw [Nat.cast_sub hq]
    have key : |(xx : ℝ) / F * (h / F) - y * r| ≤ 10 / F := by
      have e1 : (xx : ℝ) / F * (h / F) - y * r = ((xx : ℝ) / F - y) * (h / F) + y * (h / F - r) := by ring
      rw [e1]
      have hh1 : |(h : ℝ) / F| ≤ 1 := by
        rw [abs_of_nonneg (by positivity), div_le_one hF']; exact_mod_cast f1
      calc |((xx : ℝ) / F - y) * (h / F) + y * (h / F - r)| ≤ |((xx : ℝ) / F - y) * (h / F)| + |y * (h / F - r)| := abs_add_le _ _
        _ = |(xx : ℝ) / F - y| * |(h : ℝ) / F| + y * |(h : ℝ) / F - r| := by rw [abs_mul, abs_mul, abs_of_nonneg hy0]
        _ ≤ 1 / F * 1 + 3 * (3 / F) := by
          apply add_le_add
          · exact mul_le_mul hx hh1 (abs_nonneg _) (by positivity)
          · exact mul_le_mul hy e (abs_nonneg _) (by norm_num)
        _ = 10 / F := by ring
    have k2 : |((xx * h : Nat) : ℝ) / (F * c : Nat) / F - y * r / c| ≤ (10 / 6) / F := by
      have : ((xx * h : Nat) : ℝ) / (F * c : Nat) / F - y * r / c = ((xx : ℝ) / F * (h / F) - y * r) / c := by
        push_cast; field_simp
      rw [this, abs_div, abs_of_pos hc0, div_le_iff₀ hc0]
      calc _ ≤ 10 / (F : ℝ) := key
        _ = (10 / 6) / F * 6 := by ring
        _ ≤ (10 / 6) / F * c := by apply mul_le_mul_of_nonneg_left hcr; positivity
    have d1 : ((xx * h / (F * c) : Nat) : ℝ) / F ≤ ((xx * h : Nat) : ℝ) / (F * c : Nat) / F := by
      exact div_le_div_of_nonneg_right q2 hF'.le
    have d2 : ((xx * h : Nat) : ℝ) / (F * c : Nat) / F - 1 / F ≤ ((xx * h / (F * c) : Nat) : ℝ) / F := by
      rw [← sub_div]; exact div_le_div_of_nonneg_right q1 hF'.le
    rw [abs_le] at k2
    have u : (1 : ℝ) / F = 3 / F / 3 := by ring
    have v : (10 / 6 : ℝ) / F = 3 / F * (5 / 9) := by ring
    have w : 0 < 3 / (F : ℝ) := by positivity
    rw [sub_div, div_self hF'.ne', abs_le]
    constructor <;> linarith

/-- fixSin is 2^64 times the sine, within 6 units of the last place, up to an angle of 8/5. -/
theorem fixSin_error {x : Nat} (hx : (x : ℝ) / fixOne ≤ 8 / 5) : |(fixSin x : ℝ) / fixOne - Real.sin (x / fixOne)| ≤ 6 / fixOne := by
  rw [fixSin_eq]
  have hF : 0 < fixOne := by unfold fixOne; norm_num
  have hFr : (fixOne : ℝ) = 2 ^ 64 := by unfold fixOne; norm_num
  generalize fixOne = F at *
  have hF' : (0 : ℝ) < F := by exact_mod_cast hF
  have hx0 : (0 : ℝ) ≤ (x : ℝ) / F := by positivity
  set a : ℝ := (x : ℝ) / F with ha
  obtain ⟨p1, p2⟩ := nat_div_bounds (x * x) F hF
  have hsq : ((x * x : Nat) : ℝ) / F / F = a ^ 2 := by rw [ha]; push_cast; field_simp
  have hxx : |((x * x / F : Nat) : ℝ) / F - a ^ 2| ≤ 1 / F := by
    rw [← hsq, abs_le]
    have d1 := div_le_div_of_nonneg_right p2 hF'.le
    have d2 := div_le_div_of_nonneg_right p1 hF'.le
    rw [sub_div] at d2
    have : (0 : ℝ) < 1 / F := by positivity
    constructor <;> linarith
  have ha2 : a ^ 2 ≤ 3 := by nlinarith
  have hle : x * x / F ≤ 3 * F := by
    have : ((x * x / F : Nat) : ℝ) ≤ 3 * F := by
      have h1 := p2
      have h2 : ((x * x : Nat) : ℝ) / F = a ^ 2 * F := by rw [← hsq]; field_simp
      rw [h2] at h1
      nlinarith
    exact_mod_cast this
  obtain ⟨⟨r0, r1⟩, f1, e⟩ := horner_error hF (by positivity) ha2 hxx hle 15 (le_refl _)
  set h := hornerFix F (x * x / F) 15
  have hs := horner_sum a
  set r := hornerReal (a ^ 2) 15
  obtain ⟨s1, s2⟩ := sin_between hx0 (by linarith)
  rw [← hs] at s1 s2
  have tail : a ^ 33 / Nat.factorial 33 ≤ (1 / 5) / F := by
    have h1 : a ^ 33 ≤ 2 ^ 33 := pow_le_pow_left₀ hx0 (by linarith) 33
    rw [hFr, div_le_div_iff₀ (by positivity) (by norm_num)]
    have h2 : (2 : ℝ) ^ 33 * 2 ^ 64 ≤ 1 / 5 * Nat.factorial 33 := by norm_num [Nat.factorial]
    nlinarith
  obtain ⟨q1, q2⟩ := nat_div_bounds (x * h) F hF
  have hprod : ((x * h : Nat) : ℝ) / F / F = a * (h / F) := by rw [ha]; push_cast; field_simp
  have d1 := div_le_div_of_nonneg_right q2 hF'.le
  have d2 := div_le_div_of_nonneg_right q1 hF'.le
  rw [sub_div] at d2
  rw [hprod] at d1 d2
  have e1 : |a * ((h : ℝ) / F) - a * r| ≤ (24 / 5) / F := by
    rw [← mul_sub, abs_mul, abs_of_nonneg hx0]
    calc a * |(h : ℝ) / F - r| ≤ 8 / 5 * (3 / F) := mul_le_mul hx e (abs_nonneg _) (by norm_num)
      _ = (24 / 5) / F := by ring
  rw [abs_le] at e1 ⊢
  have u : (1 : ℝ) / F = 6 / F / 6 := by ring
  have v : (24 / 5 : ℝ) / F = 6 / F * (4 / 5) := by ring
  have w : (1 / 5 : ℝ) / F = 6 / F / 30 := by ring
  have z : 0 < 6 / (F : ℝ) := by positivity
  constructor <;> linarith

/-- fixPi is 2^64 times π, rounded down. -/
theorem fixPi_bounds : (fixPi : ℝ) / fixOne ≤ Real.pi ∧ Real.pi ≤ ((fixPi : ℝ) + 1) / fixOne := by
  have h1 := Real.pi_gt_d20
  have h2 := Real.pi_lt_d20
  have hF : (fixOne : ℝ) = 2 ^ 64 := by unfold fixOne; norm_num
  have hP : (fixPi : ℝ) = 57952155664616982739 := by unfold fixPi; norm_num
  rw [hF, hP]
  constructor
  · refine le_trans ?_ h1.le; norm_num
  · refine le_trans h2.le ?_; norm_num

/-- The value behind a first-quadrant entry: the exact sine, within 8 units of the last place (notes/assumptions/7.md). -/
theorem quarter_angle_error {N i : Nat} (hN : 0 < N) (hi : 4 * i ≤ N) :
    |(fixSin (fixPi * 2 * i / N) : ℝ) / fixOne - Real.sin (2 * Real.pi * i / N)| ≤ 8 / fixOne := by
  have hF : (0 : ℝ) < fixOne := by unfold fixOne; norm_num
  have hN' : (0 : ℝ) < N := by exact_mod_cast hN
  obtain ⟨p1, p2⟩ := fixPi_bounds
  obtain ⟨q1, q2⟩ := nat_div_bounds (fixPi * 2 * i) N hN
  have ht0 : (0 : ℝ) ≤ 2 * i / N := by positivity
  have ht : (2 : ℝ) * i / N ≤ 1 / 2 := by
    rw [div_le_iff₀ hN']
    have : (4 : ℝ) * i ≤ N := by exact_mod_cast hi
    linarith
  have d1 := div_le_div_of_nonneg_right q2 hF.le
  have d2 := div_le_div_of_nonneg_right q1 hF.le
  rw [sub_div] at d2
  have e : ((fixPi * 2 * i : Nat) : ℝ) / N / fixOne = fixPi / fixOne * (2 * i / N) := by push_cast; field_simp
  rw [e] at d1 d2
  have g : 2 * Real.pi * i / N = Real.pi * (2 * i / N) := by ring
  have p3 : Real.pi ≤ (fixPi : ℝ) / fixOne + 1 / fixOne := by rw [← add_div]; exact p2
  have u : (0 : ℝ) < 1 / fixOne := by positivity
  have ang : |((fixPi * 2 * i / N : Nat) : ℝ) / fixOne - 2 * Real.pi * i / N| ≤ 2 / fixOne := by
    rw [g, abs_le]
    have w : (2 : ℝ) / fixOne = 2 * (1 / fixOne) := by ring
    constructor <;> nlinarith
  have small : ((fixPi * 2 * i / N : Nat) : ℝ) / fixOne ≤ 8 / 5 := by
    have := Real.pi_lt_d20
    nlinarith
  have h1 := fixSin_error small
  have h2 : |Real.sin (((fixPi * 2 * i / N : Nat) : ℝ) / fixOne) - Real.sin (2 * Real.pi * i / N)| ≤ 2 / fixOne := by
    refine le_trans ?_ ang
    exact Real.abs_sin_sub_sin_le _ _
  calc _ ≤ _ := abs_sub_le _ (Real.sin (((fixPi * 2 * i / N : Nat) : ℝ) / fixOne)) _
    _ ≤ 6 / fixOne + 2 / fixOne := add_le_add h1 h2
    _ = 8 / fixOne := by ring

end Sys2Proof.Machine
end

