-- ==== Sys2Proof/Tests/Slice0.lean ====
section
/-! SUPPORT. The model's own tests: every expected value is one of the spec's, from the vectors of 95_test_vectors.md, the encodings
of 30_encoding.md and the listings of 40_tables.md; then one witness for every statement with hypotheses. -/

namespace Sys2Proof.Machine.Tests

/-! ### Well-formedness: every field has a bound, and the bound is tight (30_encoding.md R102) -/

theorem test_wf_refuses_keyon_gen : (Instr.keyon 16 0 0).wf = false := by decide

theorem test_wf_refuses_keyon_voice : (Instr.keyon 0 16 0).wf = false := by decide

theorem test_wf_refuses_keyon_env : (Instr.keyon 0 0 16).wf = false := by decide

theorem test_wf_refuses_mute_gen : (Instr.mute 16).wf = false := by decide

theorem test_wf_accepts_widest : (Instr.keyon 15 15 15).wf = true ∧ (Instr.mute 15).wf = true := by decide

/-! ### Decoding: one word of every row, written out from 30_encoding.md R101 and R103 -/

theorem test_decode_nop : decode 0b00000000000000000000000000000000 = .ok .nop := by decide

/-- KEYON 2, SAWTOOTH, TREMOLO: OPC 0x01, ENV 5, VOICE 3, GEN 2 (R112). -/
theorem test_decode_keyon : decode 0b00000001000000000000010100110010 = .ok (.keyon 2 3 5) := by decide

/-- MUTE 3: OPC 0x02, GEN 3 (R112). -/
theorem test_decode_mute : decode 0b00000010000000000000000000000011 = .ok (.mute 3) := by decide

theorem test_decode_trigger_fx : decode 0b00000011000000000000000000000000 = .ok .triggerFx := by decide

theorem test_decode_render_audio : decode 0b00010000000000000000000000000000 = .ok .renderAudio := by decide

theorem test_decode_composite_bg : decode 0b00100000000000000000000000000000 = .ok .compositeBg := by decide

theorem test_decode_draw_sprites : decode 0b00100001000000000000000000000000 = .ok .drawSprites := by decide

theorem test_decode_draw_overlay : decode 0b00100010000000000000000000000000 = .ok .drawOverlay := by decide

/-- L2.1 rows 10 to 15. -/
theorem test_decode_refuses_illegal :
    decode 0x00000001 = .error .reservedBits ∧ decode 0x01001000 = .error .reservedBits ∧
    decode 0x02000010 = .error .reservedBits ∧ decode 0x10000001 = .error .reservedBits ∧
    decode 0x04000000 = .error .unassignedOpcode ∧ decode 0xFF000000 = .error .unassignedOpcode := by decide

theorem test_table_words :
    decodeTableWord 32 0x01000532 = some (.keyon 2 3 5) ∧ decodeTableWord 32 0x22000000 = some .drawOverlay ∧
    decodeTableWord 32 0x23000000 = none := by decide

/-! ### The table listings (40_tables.md sections 4 and 5), and R131 to R137 at their named indices -/

/-- Indices 0 to 255 of the listing. -/
def sineListing0 : List Int :=
   [0, 3, 6, 9, 13, 16, 19, 22, 25, 28, 31, 35, 38, 41, 44, 47, 50, 53, 57, 60, 63, 66, 69, 72, 75, 78, 82, 85, 88, 91, 94,
    97] ++
   [100, 104, 107, 110, 113, 116, 119, 122, 126, 129, 132, 135, 138, 141, 144, 147, 151, 154, 157, 160, 163, 166, 169, 172,
    176, 179, 182, 185, 188, 191, 194, 198] ++
   [201, 204, 207, 210, 213, 216, 219, 223, 226, 229, 232, 235, 238, 241, 244, 247, 251, 254, 257, 260, 263, 266, 269, 272,
    275, 279, 282, 285, 288, 291, 294, 297] ++
   [300, 303, 307, 310, 313, 316, 319, 322, 325, 328, 331, 334, 338, 341, 344, 347, 350, 353, 356, 359, 362, 365, 369, 372,
    375, 378, 381, 384, 387, 390, 393, 396] ++
   [399, 402, 406, 409, 412, 415, 418, 421, 424, 427, 430, 433, 436, 439, 442, 445, 449, 452, 455, 458, 461, 464, 467, 470,
    473, 476, 479, 482, 485, 488, 491, 494] ++
   [497, 500, 503, 507, 510, 513, 516, 519, 522, 525, 528, 531, 534, 537, 540, 543, 546, 549, 552, 555, 558, 561, 564, 567,
    570, 573, 576, 579, 582, 585, 588, 591] ++
   [594, 597, 600, 603, 606, 609, 612, 615, 618, 621, 624, 627, 630, 633, 636, 639, 642, 645, 648, 651, 654, 657, 660, 663,
    666, 669, 672, 675, 678, 681, 684, 687] ++
   [690, 693, 696, 698, 701, 704, 707, 710, 713, 716, 719, 722, 725, 728, 731, 734, 737, 740, 743, 745, 748, 751, 754, 757,
    760, 763, 766, 769, 772, 775, 778, 780]

theorem test_sine_listing_0 : (List.range 256).map (fun i => sineEntry 4096 2047 (0 + i)) = sineListing0 := by
  decide +kernel

/-- Indices 256 to 511 of the listing. -/
def sineListing1 : List Int :=
   [783, 786, 789, 792, 795, 798, 801, 804, 807, 809, 812, 815, 818, 821, 824, 827, 830, 832, 835, 838, 841, 844, 847, 850,
    852, 855, 858, 861, 864, 867, 870, 872] ++
   [875, 878, 881, 884, 887, 889, 892, 895, 898, 901, 903, 906, 909, 912, 915, 918, 920, 923, 926, 929, 932, 934, 937, 940,
    943, 946, 948, 951, 954, 957, 959, 962] ++
   [965, 968, 970, 973, 976, 979, 982, 984, 987, 990, 993, 995, 998, 1001, 1003, 1006, 1009, 1012, 1014, 1017, 1020, 1023,
    1025, 1028, 1031, 1033, 1036, 1039, 1042, 1044, 1047, 1050] ++
   [1052, 1055, 1058, 1060, 1063, 1066, 1068, 1071, 1074, 1077, 1079, 1082, 1085, 1087, 1090, 1092, 1095, 1098, 1100, 1103,
    1106, 1108, 1111, 1114, 1116, 1119, 1122, 1124, 1127, 1129, 1132, 1135] ++
   [1137, 1140, 1142, 1145, 1148, 1150, 1153, 1155, 1158, 1161, 1163, 1166, 1168, 1171, 1174, 1176, 1179, 1181, 1184, 1186,
    1189, 1191, 1194, 1197, 1199, 1202, 1204, 1207, 1209, 1212, 1214, 1217] ++
   [1219, 1222, 1224, 1227, 1229, 1232, 1234, 1237, 1239, 1242, 1244, 1247, 1249, 1252, 1254, 1257, 1259, 1262, 1264, 1267,
    1269, 1272, 1274, 1277, 1279, 1282, 1284, 1286, 1289, 1291, 1294, 1296] ++
   [1299, 1301, 1303, 1306, 1308, 1311, 1313, 1316, 1318, 1320, 1323, 1325, 1328, 1330, 1332, 1335, 1337, 1339, 1342, 1344,
    1347, 1349, 1351, 1354, 1356, 1358, 1361, 1363, 1365, 1368, 1370, 1372] ++
   [1375, 1377, 1379, 1382, 1384, 1386, 1389, 1391, 1393, 1395, 1398, 1400, 1402, 1405, 1407, 1409, 1411, 1414, 1416, 1418,
    1421, 1423, 1425, 1427, 1430, 1432, 1434, 1436, 1439, 1441, 1443, 1445]

theorem test_sine_listing_1 : (List.range 256).map (fun i => sineEntry 4096 2047 (256 + i)) = sineListing1 := by
  decide +kernel

/-- Indices 512 to 767 of the listing. -/
def sineListing2 : List Int :=
   [1447, 1450, 1452, 1454, 1456, 1459, 1461, 1463, 1465, 1467, 1469, 1472, 1474, 1476, 1478, 1480, 1483, 1485, 1487, 1489,
    1491, 1493, 1495, 1498, 1500, 1502, 1504, 1506, 1508, 1510, 1513, 1515] ++
   [1517, 1519, 1521, 1523, 1525, 1527, 1529, 1531, 1533, 1536, 1538, 1540, 1542, 1544, 1546, 1548, 1550, 1552, 1554, 1556,
    1558, 1560, 1562, 1564, 1566, 1568, 1570, 1572, 1574, 1576, 1578, 1580] ++
   [1582, 1584, 1586, 1588, 1590, 1592, 1594, 1596, 1598, 1600, 1602, 1604, 1606, 1608, 1610, 1612, 1614, 1616, 1618, 1620,
    1621, 1623, 1625, 1627, 1629, 1631, 1633, 1635, 1637, 1639, 1640, 1642] ++
   [1644, 1646, 1648, 1650, 1652, 1653, 1655, 1657, 1659, 1661, 1663, 1665, 1666, 1668, 1670, 1672, 1674, 1675, 1677, 1679,
    1681, 1683, 1684, 1686, 1688, 1690, 1691, 1693, 1695, 1697, 1699, 1700] ++
   [1702, 1704, 1705, 1707, 1709, 1711, 1712, 1714, 1716, 1718, 1719, 1721, 1723, 1724, 1726, 1728, 1729, 1731, 1733, 1734,
    1736, 1738, 1739, 1741, 1743, 1744, 1746, 1748, 1749, 1751, 1753, 1754] ++
   [1756, 1757, 1759, 1761, 1762, 1764, 1765, 1767, 1769, 1770, 1772, 1773, 1775, 1776, 1778, 1780, 1781, 1783, 1784, 1786,
    1787, 1789, 1790, 1792, 1793, 1795, 1796, 1798, 1799, 1801, 1802, 1804] ++
   [1805, 1807, 1808, 1810, 1811, 1813, 1814, 1816, 1817, 1818, 1820, 1821, 1823, 1824, 1826, 1827, 1828, 1830, 1831, 1833,
    1834, 1835, 1837, 1838, 1840, 1841, 1842, 1844, 1845, 1846, 1848, 1849] ++
   [1850, 1852, 1853, 1854, 1856, 1857, 1858, 1860, 1861, 1862, 1864, 1865, 1866, 1868, 1869, 1870, 1871, 1873, 1874, 1875,
    1876, 1878, 1879, 1880, 1881, 1883, 1884, 1885, 1886, 1888, 1889, 1890]

theorem test_sine_listing_2 : (List.range 256).map (fun i => sineEntry 4096 2047 (512 + i)) = sineListing2 := by
  decide +kernel

/-- Indices 768 to 1024 of the listing. -/
def sineListing3 : List Int :=
   [1891, 1892, 1894, 1895, 1896, 1897, 1898, 1899, 1901, 1902, 1903, 1904, 1905, 1906, 1908, 1909, 1910, 1911, 1912, 1913,
    1914, 1915, 1917, 1918, 1919, 1920, 1921, 1922, 1923, 1924, 1925, 1926] ++
   [1927, 1928, 1929, 1930, 1932, 1933, 1934, 1935, 1936, 1937, 1938, 1939, 1940, 1941, 1942, 1943, 1944, 1945, 1946, 1947,
    1948, 1949, 1950, 1950, 1951, 1952, 1953, 1954, 1955, 1956, 1957, 1958] ++
   [1959, 1960, 1961, 1962, 1962, 1963, 1964, 1965, 1966, 1967, 1968, 1969, 1969, 1970, 1971, 1972, 1973, 1974, 1975, 1975,
    1976, 1977, 1978, 1979, 1979, 1980, 1981, 1982, 1983, 1983, 1984, 1985] ++
   [1986, 1986, 1987, 1988, 1989, 1989, 1990, 1991, 1992, 1992, 1993, 1994, 1994, 1995, 1996, 1997, 1997, 1998, 1999, 1999,
    2000, 2001, 2001, 2002, 2003, 2003, 2004, 2005, 2005, 2006, 2006, 2007] ++
   [2008, 2008, 2009, 2009, 2010, 2011, 2011, 2012, 2012, 2013, 2014, 2014, 2015, 2015, 2016, 2016, 2017, 2017, 2018, 2018,
    2019, 2019, 2020, 2021, 2021, 2022, 2022, 2022, 2023, 2023, 2024, 2024] ++
   [2025, 2025, 2026, 2026, 2027, 2027, 2028, 2028, 2028, 2029, 2029, 2030, 2030, 2030, 2031, 2031, 2032, 2032, 2032, 2033,
    2033, 2033, 2034, 2034, 2035, 2035, 2035, 2036, 2036, 2036, 2037, 2037] ++
   [2037, 2037, 2038, 2038, 2038, 2039, 2039, 2039, 2039, 2040, 2040, 2040, 2040, 2041, 2041, 2041, 2041, 2042, 2042, 2042,
    2042, 2043, 2043, 2043, 2043, 2043, 2044, 2044, 2044, 2044, 2044, 2044] ++
   [2045, 2045, 2045, 2045, 2045, 2045, 2045, 2045, 2046, 2046, 2046, 2046, 2046, 2046, 2046, 2046, 2046, 2046, 2047, 2047,
    2047, 2047, 2047, 2047, 2047, 2047, 2047, 2047, 2047, 2047, 2047, 2047] ++
   [2047]

theorem test_sine_listing_3 : (List.range 257).map (fun i => sineEntry 4096 2047 (768 + i)) = sineListing3 := by
  decide +kernel

/-- 40_tables.md section 5. -/
def expDecayListing : List Int :=
   [255, 249, 244, 238, 233, 228, 223, 218, 214, 209, 205, 200, 196, 192, 188, 183, 180, 176, 172, 168, 164, 161, 157, 154,
    151, 147, 144, 141, 138, 135, 132, 129] ++
   [127, 124, 121, 118, 116, 113, 111, 108, 106, 104, 102, 99, 97, 95, 93, 91, 89, 87, 85, 83, 81, 80, 78, 76, 75, 73, 71,
    70, 68, 67, 65, 64] ++
   [63, 61, 60, 58, 57, 56, 55, 53, 52, 51, 50, 49, 48, 47, 46, 45, 44, 43, 42, 41, 40, 39, 38, 37, 37, 36, 35, 34, 33, 33,
    32, 31] ++
   [31, 30, 29, 28, 28, 27, 27, 26, 25, 25, 24, 24, 23, 23, 22, 22, 21, 21, 20, 20, 19, 19, 18, 18, 18, 17, 17, 16, 16, 16,
    15, 15] ++
   [15, 14, 14, 13, 13, 13, 13, 12, 12, 12, 11, 11, 11, 11, 10, 10, 10, 10, 9, 9, 9, 9, 8, 8, 8, 8, 8, 7, 7, 7, 7, 7] ++
   [7, 6, 6, 6, 6, 6, 6, 5, 5, 5, 5, 5, 5, 5, 4, 4, 4, 4, 4, 4, 4, 4, 3, 3, 3, 3, 3, 3, 3, 3, 3, 3] ++
   [3, 2, 2, 2, 2, 2, 2, 2, 2, 2, 2, 2, 2, 2, 1, 1, 1, 1, 1, 1, 1, 1, 1, 1, 1, 1, 1, 1, 1, 1, 1, 1] ++
   [1, 0, 0, 0, 0, 0, 0, 0, 0, 0, 0, 0, 0, 0, 0, 0, 0, 0, 0, 0, 0, 0, 0, 0, 0, 0, 0, 0, 0, 0, 0, 0]

theorem test_expDecay_listing : (List.range 256).map (envEntry .expDecay) = expDecayListing := by decide +kernel

/-- 40_tables.md section 5. -/
def adsrListing : List Int :=
   [0, 0, 0, 1, 1, 1, 2, 3, 3, 4, 5, 7, 8, 10, 12, 15, 18, 21, 25, 31, 37, 44, 52, 63, 75, 89, 106, 127, 151, 180, 214, 255] ++
   [255, 255, 255, 255, 255, 255, 255, 255, 255, 255, 255, 255, 255, 255, 255, 255, 255, 255, 255, 255, 255, 255, 255, 255,
    255, 255, 255, 255, 255, 255, 255, 255] ++
   [255, 255, 255, 255, 255, 255, 255, 255, 255, 255, 255, 255, 255, 255, 255, 255, 255, 255, 255, 255, 255, 255, 255, 255,
    255, 255, 255, 255, 255, 255, 255, 255] ++
   [255, 255, 255, 255, 255, 255, 255, 255, 255, 255, 255, 255, 255, 255, 255, 255, 255, 255, 255, 255, 255, 255, 255, 255,
    255, 255, 255, 255, 255, 255, 255, 255] ++
   [255, 255, 255, 255, 255, 255, 255, 255, 255, 255, 255, 255, 255, 255, 255, 255, 255, 255, 255, 255, 255, 255, 255, 255,
    255, 255, 255, 255, 255, 255, 255, 255] ++
   [255, 255, 255, 255, 255, 255, 255, 255, 255, 255, 255, 255, 255, 255, 255, 255, 255, 255, 255, 255, 255, 255, 255, 255,
    255, 255, 255, 255, 255, 255, 255, 255] ++
   [255, 233, 214, 196, 180, 164, 151, 138, 127, 116, 106, 97, 89, 81, 75, 68, 63, 57, 52, 48, 44, 40, 37, 33, 31, 28, 25,
    23, 21, 19, 18, 16] ++
   [15, 13, 12, 11, 10, 9, 8, 7, 7, 6, 5, 5, 4, 4, 3, 3, 3, 2, 2, 2, 1, 1, 1, 1, 1, 0, 0, 0, 0, 0, 0, 0]

theorem test_adsr_listing : (List.range 256).map (envEntry .adsr) = adsrListing := by decide +kernel

/-- 40_tables.md section 5. -/
def sustainListing : List Int :=
   [0, 1, 1, 3, 4, 7, 10, 15, 21, 31, 44, 63, 89, 127, 180, 255, 255, 255, 255, 255, 255, 255, 255, 255, 255, 255, 255, 255,
    255, 255, 255, 255] ++
   [255, 255, 255, 255, 255, 255, 255, 255, 255, 255, 255, 255, 255, 255, 255, 255, 255, 255, 255, 255, 255, 255, 255, 255,
    255, 255, 255, 255, 255, 255, 255, 255] ++
   [255, 255, 255, 255, 255, 255, 255, 255, 255, 255, 255, 255, 255, 255, 255, 255, 255, 255, 255, 255, 255, 255, 255, 255,
    255, 255, 255, 255, 255, 255, 255, 255] ++
   [255, 255, 255, 255, 255, 255, 255, 255, 255, 255, 255, 255, 255, 255, 255, 255, 255, 255, 255, 255, 255, 255, 255, 255,
    255, 255, 255, 255, 255, 255, 255, 255] ++
   [255, 255, 255, 255, 255, 255, 255, 255, 255, 255, 255, 255, 255, 255, 255, 255, 255, 255, 255, 255, 255, 255, 255, 255,
    255, 255, 255, 255, 255, 255, 255, 255] ++
   [255, 255, 255, 255, 255, 255, 255, 255, 255, 255, 255, 255, 255, 255, 255, 255, 255, 255, 255, 255, 255, 255, 255, 255,
    255, 255, 255, 255, 255, 255, 255, 255] ++
   [255, 255, 255, 255, 255, 255, 255, 255, 255, 255, 255, 255, 255, 255, 255, 255, 255, 255, 255, 255, 255, 255, 255, 255,
    255, 255, 255, 255, 255, 255, 255, 255] ++
   [255, 214, 180, 151, 127, 106, 89, 75, 63, 52, 44, 37, 31, 25, 21, 18, 15, 12, 10, 8, 7, 5, 4, 3, 3, 2, 1, 1, 1, 0, 0, 0]

theorem test_sustain_listing : (List.range 256).map (envEntry .sustain) = sustainListing := by decide +kernel

/-- 40_tables.md section 5. -/
def tremoloListing : List Int :=
   [0, 0, 0, 0, 0, 0, 1, 1, 1, 1, 2, 2, 2, 3, 3, 4, 4, 5, 5, 6, 7, 8, 9, 10, 11, 12, 14, 15, 17, 19, 21, 24] ++
   [27, 30, 33, 37, 41, 45, 50, 56, 62, 68, 76, 84, 93, 103, 114, 127, 127, 139, 151, 163, 172, 180, 186, 190, 191, 190, 186,
    180, 172, 163, 151, 139] ++
   [127, 115, 103, 91, 82, 74, 68, 64, 63, 64, 68, 74, 82, 91, 103, 115, 127, 139, 151, 163, 172, 180, 186, 190, 191, 190,
    186, 180, 172, 163, 151, 139] ++
   [127, 115, 103, 91, 82, 74, 68, 64, 63, 64, 68, 74, 82, 91, 103, 115, 127, 139, 151, 163, 172, 180, 186, 190, 191, 190,
    186, 180, 172, 163, 151, 139] ++
   [127, 115, 103, 91, 82, 74, 68, 64, 63, 64, 68, 74, 82, 91, 103, 115, 127, 139, 151, 163, 172, 180, 186, 190, 191, 190,
    186, 180, 172, 163, 151, 139] ++
   [127, 115, 103, 91, 82, 74, 68, 64, 63, 64, 68, 74, 82, 91, 103, 115, 127, 139, 151, 163, 172, 180, 186, 190, 191, 190,
    186, 180, 172, 163, 151, 139] ++
   [127, 115, 103, 91, 82, 74, 68, 64, 63, 64, 68, 74, 82, 91, 103, 115, 127, 114, 103, 93, 84, 76, 68, 62, 56, 50, 45, 41,
    37, 33, 30, 27] ++
   [24, 21, 19, 17, 15, 14, 12, 11, 10, 9, 8, 7, 6, 5, 5, 4, 4, 3, 3, 2, 2, 2, 1, 1, 1, 1, 0, 0, 0, 0, 0, 0]

theorem test_tremolo_listing : (List.range 256).map (envEntry .tremolo) = tremoloListing := by decide +kernel

/-- R131's checks in the other quadrants, and R132 to R134 at their ends. -/
theorem test_wave_checks :
    sineEntry 4096 2047 2048 = 0 ∧ sineEntry 4096 2047 3072 = -2047 ∧ sineEntry 4096 2047 4095 = -3 ∧
    squareEntry 4096 2047 2047 = -2047 ∧ squareEntry 4096 2047 2048 = 2047 ∧
    triangleEntry 4096 2047 0 = -2047 ∧ triangleEntry 4096 2047 2048 = 2047 ∧ triangleEntry 4096 2047 4095 = -2047 ∧
    sawtoothEntry 4096 2047 0 = -2047 ∧ sawtoothEntry 4096 2047 4095 = 2048 := by decide +kernel

/-! ### Commands, from the vectors of 95_test_vectors.md -/

/-- The small parameters of L2.6 and L2.7. -/
def small (bgW frameSamples : Nat) : Params :=
  { Params.atReset with fbW := 4, fbH := 4, bgW := bgW, bgH := 4, tileCap := 16, frameSamples := frameSamples }

/-- A block with generator 0 set up and nothing else. -/
def withGen (p : Params) (f : Generator → Generator) : State := (State.resetWith p 0).modifyGen 0 f

/-- A playing generator: voice, envelope, amplitude, phase, gains. -/
def playing (w : Waveform) (e : Envelope) (amp : Half) (phase : Word) (l r : Half) (G : Generator) : Generator :=
  { G with voice := .playing w, env := e, envAmp := amp, phase := phase, divL := l, divR := r }

/-- The next state of an outcome. -/
def got : Host.Outcome State Fault Refusal → State
  | .next t => t
  | .fault _ => State.reset
  | .refused _ => State.reset

/-- The left and right samples of n pairs. -/
def pairs (s : State) (n : Nat) : List (Int × Int) := (List.range n).map fun k => (s.aud (2 * k), s.aud (2 * k + 1))

/-- Row y of a frame of width 4. -/
def row (s : State) (y : Nat) : List Nat := (List.range 4).map fun x => (s.fb y x).toNat

/-- BG[y][x] = 10*y + x, as L2.6 has it. -/
def loadedBg (bgW : Nat) : State :=
  (State.resetWith (small bgW 1) 0).memWrite 0x01000000
    ((List.range 4).flatMap fun y => (List.range bgW).map fun x => BitVec.ofNat 8 (10 * y + x))

theorem test_nop : exec .nop State.reset = .next State.reset := rfl

/-- L2.2 row 1. -/
theorem test_keyon_loads_amplitude :
    let t := got (exec (.keyon 1 0 0) (State.reset.modifyGen 1 fun G => { G with vol := 0x1234 }))
    t.readReg (.gen 1 .genCtrl) = 0 ∧ t.readReg (.gen 1 .envAmp) = 237 ∧ t.readReg (.gen 1 .vol) = 0x1234 := by
  decide +kernel

/-- L2.1 rows 17 and 18: status and info through the registers. -/
theorem test_keyon_bad_operand :
    let t := got (exec (.keyon 15 1 3) State.reset)
    let u := got (exec (.keyon 0 0xF 0) State.reset)
    t.readReg .status = 0x0202 ∧ t.readReg .faultInfo = 0x0100031F ∧
    u.readReg .status = 0x0202 ∧ u.readReg .faultInfo = 0x010000F0 := by decide +kernel

/-- L2.3 row 1. -/
theorem test_mute :
    let t := got (exec (.mute 0) (withGen (small 6 1) (playing .square .adsr 255 0x40000000 1 1)))
    t.readReg (.gen 0 .genCtrl) = 0x30F ∧ t.readReg (.gen 0 .envAmp) = 0 ∧ t.readReg (.gen 0 .phase) = 0x40000000 := by
  decide +kernel

/-- L2.1 row 21. -/
theorem test_mute_bad_operand :
    let t := got (exec (.mute 4) State.reset)
    t.readReg .status = 0x0202 ∧ t.readReg .faultInfo = 0x02000004 := by decide +kernel

/-- L2.5.1: TRIGGER_FX and then RENDER_AUDIO. -/
theorem test_trigger_fx :
    let s : State := (State.resetWith (small 6 4) 0).memWrite 0x00200000 [0x64, 0x00, 0x38, 0xFF, 0x2C, 0x01]
    let t := got (exec .renderAudio (got (exec .triggerFx { s with fx := { s.fx with len := 3 } })))
    pairs t 4 = [(100, 0), (-200, 0), (300, 0), (0, 0)] ∧ t.readReg .fxPos = 3 ∧ t.readReg .fxCtrl = 1 := by
  decide +kernel

/-- L2.4.4, the glide. -/
theorem test_render_glide :
    let t := got (exec .renderAudio (withGen (small 6 5) fun G =>
      { playing .sawtooth .gate 255 0 255 255 G with phaseDDelta := 0x00100000 }))
    pairs t 5 = [(-2047, -2047), (-2047, -2047), (-2046, -2046), (-2044, -2044), (-2041, -2041)] ∧
    t.readReg (.gen 0 .phase) = 0x00A00000 ∧ t.readReg (.gen 0 .phaseDelta) = 0x00500000 := by decide +kernel

/-- L2.4.11, frame 3: the tick in the middle of a frame. -/
theorem test_render_tick :
    let s := withGen (small 6 100) fun G => { playing .square .linear 255 0 255 255 G with volDelta := 0x0100 }
    let t := got (exec .renderAudio { s with subcnt := 200 })
    ((pairs t 100)[55]? = some (-2047, -2047) ∧ (pairs t 100)[56]? = some (-2038, -2038)) ∧
    t.readReg .subcnt = 44 ∧ t.readReg (.gen 0 .vol) = 0x0100 ∧ t.readReg (.gen 0 .envAmp) = 254 := by decide +kernel

/-- L2.6 row 5: exact arithmetic at f = 0xFFFFFFFF. -/
theorem test_composite_bg :
    let s := loadedBg 7
    let t := got (exec .compositeBg { s with frameIndex := 0xFFFFFFFF })
    [row t 0, row t 1, row t 2, row t 3] = [[3, 4, 5, 6], [16, 10, 11, 12], [22, 23, 24, 25], [35, 36, 30, 31]] := by
  decide +kernel

/-- The sprites of L2.7 row 3 over the composited frame of L2.6 row 1. -/
def spriteBlock : State :=
  let s : State := (got (exec .compositeBg (loadedBg 6))).memWrite 0x02000000 [0, 7, 8, 0, 9]
  { s with sprites := [{ Sprite.reset with visible := true, x := 1, y := 1, w := 2, h := 2 },
    { Sprite.reset with visible := true, key := 5, x := 2, y := 1, w := 1, h := 1, tileBase := 4 }] }

/-- L2.7 row 3. -/
theorem test_draw_sprites :
    let t := got (exec .drawSprites spriteBlock)
    [row t 0, row t 1, row t 2, row t 3] = [[0, 1, 2, 3], [10, 11, 9, 13], [20, 8, 22, 23], [30, 31, 32, 33]] := by
  decide +kernel

/-- L2.7 row 7: slot 1 is out of the frame, and slot 0 is not drawn either. -/
theorem test_draw_sprites_bounds :
    let s := { spriteBlock with sprites := spriteBlock.sprites.set 1 { Sprite.reset with visible := true, y := 4, w := 1, h := 1 } }
    let t := got (exec .drawSprites s)
    t.readReg .status = 0x0402 ∧ t.readReg .faultInfo = 1 ∧ row t 1 = [10, 11, 12, 13] := by decide +kernel

/-- The glyphs of L2.8 in a frame of width 16, all 0x22. -/
def textBlock (text : Word) (len : BitVec 5) : State :=
  let p : Params := { Params.atReset with
    font := (List.range 16).map (fun r => (16 * 0x30 + r, (0x18 : Byte))) ++
      (List.range 16).map (fun r => (16 * 0x31 + r, if r = 0 then (0x01 : Byte) else if r = 1 then 0x81 else if r = 2 then 0xFF else 0)) }
  let s : State := (State.resetWith p 0).memWrite 0x03000000 (List.replicate 256 0x22)
  { s with ovl := { s.ovl with fgColor := 15, textLen := len, text0 := text } }

/-- L2.8 row 4: "01", rows 0 to 3 as the columns that are set. -/
theorem test_draw_overlay :
    let t := got (exec .drawOverlay (textBlock 0x00003130 2))
    (List.range 4).map (fun y => (List.range 16).filter fun x => t.fb y x == 15) =
      [[3, 4, 8], [3, 4, 8, 15], [3, 4, 8, 9, 10, 11, 12, 13, 14, 15], [3, 4]] ∧ t.fb 0 1 = 0x22 := by decide +kernel

/-- L2.8 row 6. -/
theorem test_draw_overlay_bounds :
    let s := textBlock 0x00000031 1
    let t := got (exec .drawOverlay { s with ovl := { s.ovl with y := 1 } })
    t.readReg .status = 0x0502 ∧ t.readReg .faultInfo = 0 ∧ t.fb 1 0 = 0x22 := by decide +kernel

/-! ### The host interface (L2.9, L2.10) -/

/-- What the host reads at an offset after one access from reset. -/
def readAfter (a : HostAccess) (off : Word) : Word := ((State.reset.hostAccess a).hostAccess (.read off .w32)).hostData

/-- L2.10 rows 2, 5, 6, 8, 9 and 10. -/
theorem test_register_writes :
    readAfter (.write 0x000 .w32 5) 0x000 = 0x57544F31 ∧ readAfter (.write 0x100 .w32 0x301) 0x100 = 0xF ∧
    readAfter (.write 0x110 .w32 0xFFFF1234) 0x110 = 0x1234 ∧ readAfter (.write 0x028 .w32 0x001F00AB) 0x028 = 0x001000AB ∧
    readAfter (.write 0x300 .w32 0xFFFFFFFF) 0x300 = 0xFF01 ∧ readAfter (.write 0x014 .w32 7) 0x014 = 0 := by decide +kernel

/-- L2.10 rows 11 to 17: the first fault of each access from reset. -/
theorem test_address_errors :
    ([.read 0x03C .w32, .read 0x008 .w16, .read 0x180 .w32, .read 0x310 .w32, .write 0x100001 .w16 0, .write 0x10000 .w8 0,
      .read 0x100010 .w16] : List HostAccess).all
      (fun a => (State.reset.hostAccess a).faultRec == some ⟨.addrError, a.offset⟩) = true := by decide +kernel

/-- L2.10 row 20: little-endian. -/
theorem test_little_endian :
    let s := State.reset.hostAccess (.write 0x200000 .w32 0x12345678)
    (s.hostAccess (.read 0x200000 .w16)).hostData = 0x5678 ∧ (s.hostAccess (.read 0x200002 .w16)).hostData = 0x1234 := by
  decide +kernel

/-- L2.9 row 3: a CMD write to a busy block faults, and the step discards the command. -/
theorem test_busy_access :
    let s := (State.reset.hostAccess (.write 0x004 .w32 0x10000000)).hostAccess (.write 0x004 .w32 0)
    let t := got (step s)
    s.readReg .status = 0x0703 ∧ t.readReg .status = 0x0702 ∧ t.readReg .faultInfo = 0x4 ∧ t.readReg .subcnt = 0 := by
  decide +kernel

/-- L2.9 row 6: the first fault stays, and the next command is ignored. -/
theorem test_first_fault_wins :
    let s := got (step (State.reset.hostAccess (.write 0x004 .w32 0x04000000)))
    let t := got (step (s.hostAccess (.write 0x004 .w32 0x10000000)))
    t.readReg .status = 0x0102 ∧ t.readReg .faultInfo = 0x04000000 ∧ t.readReg .subcnt = 0 := by decide +kernel

/-! ### A placed command is the one the next step runs -/

theorem test_placed_keyon_runs :
    (got (step (State.reset.withFetchWord 32 0x01000532))).readReg (.gen 2 .genCtrl) = 0x0503 := by decide +kernel

theorem test_placed_render_runs : (got (step (State.reset.withFetchWord 32 0x10000000))).readReg .subcnt = 4 := by
  decide +kernel

/-! ### Witnesses: for every statement with hypotheses, data that meet all of them, at the bounds of their ranges -/

open Sys2Proof.Machine.Claims

/-- The reset block with events to come and a latched word. -/
def driven (evs : List Event) (w : Option Word) : State := { State.reset with inputs := evs, pending := w }

theorem legal_at_reset : Params.atReset.Legal := by decide

theorem driven_inv (evs : List Event) (w : Option Word) : (driven evs w).Inv where
  legal := legal_at_reset
  gens_length := rfl
  sprites_length := rfl
  muted_silent := (by decide : ∀ G ∈ State.reset.gens, G.voice = .muted → G.envAmp = 0)
  amp_range := (by decide : ∀ G ∈ State.reset.gens, G.envAmp.toNat ≤ 255)
  fx_len := (by decide : State.reset.fx.len.toNat ≤ State.reset.params.fxCap)
  fx_idle := fun _ => rfl
  text_len := (by decide : State.reset.ovl.textLen.toNat ≤ textMax)
  mem_wf := List.Pairwise.nil
  mem_ram := by intro c h; cases h

theorem witness_encoding :
    (Instr.keyon 15 15 15).wf = true ∧ (Instr.mute 15).wf = true ∧ decode 0x01000FFF = .ok (.keyon 15 15 15) ∧
    ∃ row ∈ rows, (0x01000FFF : Word) &&& row.mask = row.pattern := by decide

theorem witness_meaningless :
    (State.reset.faultRec = none) ∧
    (∀ i ∈ [Instr.keyon 4 0 0, .keyon 0 4 0, .keyon 0 0 6, .mute 4], i.wf = true) ∧
    meaningless Params.atReset (.keyon 4 0 0) ∧ meaningless Params.atReset (.keyon 0 4 0) ∧
    meaningless Params.atReset (.keyon 0 0 6) ∧ meaningless Params.atReset (.mute 4) ∧ decode 0x01000600 = .ok (.keyon 0 0 6) :=
  ⟨rfl, by decide, .inl (by decide), .inr (.inl (by decide)), .inr (.inr (by decide)), by show 4 ≤ 4; decide, by decide⟩

theorem witness_reset_registers :
    Params.atReset.Legal ∧ regAt Params.atReset 0x000 = some .id ∧ regAt Params.atReset 0x17C = some (.gen 3 .gain) ∧
    regAt Params.atReset 0x32C = some (.spr 1 .sprTile) ∧ regAt Params.atReset 0x180 = none := by decide

theorem witness_every_step :
    (driven [] (some 0x01000000)).Inv ∧ (∃ t, step (driven [] (some 0x01000000)) = .next t) ∧
    (driven [.access (.write 0x104 .w32 7)] none).Inv ∧ (∃ t, step (driven [.access (.write 0x104 .w32 7)] none) = .next t) ∧
    (driven [.reset] none).Inv ∧ (∃ t, step (driven [.reset] none) = .next t) :=
  ⟨driven_inv _ _, ⟨_, rfl⟩, driven_inv _ _, ⟨_, rfl⟩, driven_inv _ _, ⟨_, rfl⟩⟩

theorem witness_platform_reset :
    (driven [.reset, .engineTurn] (some 0)).params.Legal ∧ (driven [.reset, .engineTurn] (some 0)).inputs = .reset :: [.engineTurn] ∧
    regAt Params.atReset 0x11C = some (.gen 0 .gain) ∧ ramRange Params.atReset 0x00100000 ∧ ramRange Params.atReset 0x030000FF ∧
    romRange Params.atReset 0x00010000 ∧ romRange Params.atReset 0x00030FFF := by
  refine ⟨legal_at_reset, rfl, by decide, ?_, ?_, ?_, ?_⟩ <;> simp [ramRange, romRange, Params.atReset, Params.waveLen]

/-- One witness a clause of the engine step: idle, a fault recorded, a command, an illegal word. -/
theorem witness_engine_step :
    engineNext (driven [] none) [] ∧ (driven [] none).pending = none ∧
    engineNext (driven [.engineTurn, .reset] (some 0)) [.reset] ∧
    ({ driven [.engineTurn] (some 0) with faultRec := some ⟨.busyAccess, 4⟩ } : State).faultRec = some ⟨.busyAccess, 4⟩ ∧
    decode 0x03000000 = .ok .triggerFx ∧ (∃ t, exec .triggerFx { driven [] (some 0x03000000) with inputs := [] } = .next t) ∧
    decode 0x10000001 = .error .reservedBits :=
  ⟨.inl ⟨rfl, rfl⟩, rfl, .inr rfl, rfl, by decide, ⟨_, rfl⟩, by decide⟩

theorem witness_unmatched_word :
    engineNext (driven [] (some 0x23000000)) [] ∧ (∀ row ∈ rows, (0x23000000 : Word) &&& row.mask ≠ row.pattern) ∧
    ∀ row ∈ rows, (0x02000010 : Word) &&& row.mask ≠ row.pattern := ⟨.inl ⟨rfl, rfl⟩, by decide, by decide⟩

theorem witness_commands :
    (∃ t, exec (.keyon 3 3 5) State.reset = .next t ∧ t.faultRec = State.reset.faultRec) ∧
    ∃ t, exec (.mute 4) State.reset = .next t ∧ t.faultRec ≠ State.reset.faultRec :=
  ⟨⟨_, rfl, rfl⟩, ⟨_, rfl, by decide⟩⟩

theorem witness_engine_and_host_registers :
    engineNext (driven [] (some 0x03000000)) [] ∧ (∃ t, step (driven [] (some 0x03000000)) = .next t) ∧ hostOwned .fxLen ∧
    hostOwned (.gen 3 .gain) ∧ hostOwned (.spr 1 .sprTile) ∧ engineOwned .fxPos ∧ engineOwned (.gen 3 .envAmp) :=
  ⟨.inl ⟨rfl, rfl⟩, ⟨_, rfl⟩, trivial, trivial, trivial, trivial, trivial⟩

theorem witness_nop_handshake :
    (driven [Program.cmd .nop, .engineTurn] none).params.Legal ∧ (driven [Program.cmd .nop, .engineTurn] none).pending = none ∧
    (driven [Program.cmd .nop, .engineTurn] none).faultRec = none := ⟨legal_at_reset, rfl, rfl⟩

theorem witness_keyon_and_mute :
    State.reset.Inv ∧ State.reset.gens.length = State.reset.params.ngen ∧ 3 < State.reset.params.ngen ∧
    (State.reset.readReg (.gen 3 .genCtrl)).toNat % 16 = 15 := ⟨driven_inv [] none, rfl, by decide, by decide⟩

/-- A generator that plays, with the gains at their smallest and largest legal values. -/
def voiced : Generator := playing .sawtooth .linear 255 0xFFFFFFFF 1 0xFFFF Generator.reset

theorem witness_contribution :
    voiced.voice = .playing .sawtooth ∧ voiced.divL ≠ 0 ∧ voiced.divR ≠ 0 ∧ Generator.reset.voice = .muted := by decide

theorem witness_muted_is_skipped :
    State.reset.gens[3]? = some Generator.reset ∧ ({ Generator.reset with divL := 0, vol := 9 } : Generator).voice = .muted ∧
    (∃ t, exec .renderAudio State.reset = .next t) ∧
    ∃ u, exec .renderAudio { State.reset with gens := State.reset.gens.set 3 { Generator.reset with divL := 0, vol := 9 } } = .next u :=
  ⟨rfl, rfl, ⟨_, rfl⟩, ⟨_, rfl⟩⟩

/-- Both sides of the headroom test, next to each other. -/
theorem witness_headroom :
    (((0xFEFE : Half).toNat : Int) < 0xFFFF - (0x100 : Half).toNat) ∧
    ¬ (((0xFEFF : Half).toNat : Int) < 0xFFFF - (0x100 : Half).toNat) := by decide

theorem witness_glide : ∀ m, m < 3 → (genAt State.reset voiced m).voice ≠ .muted := by decide

/-- The period 2^32 / d at d = 2^31 is two samples. -/
theorem witness_constant_delta :
    let G := { voiced with phaseDelta := 0x80000000 }
    G.phaseDDelta = 0 ∧ G.phaseDelta.toNat = 2 ^ 31 ∧ 2 ^ 32 % 2 ^ 31 = 0 ∧
    ∀ m, m < 0 + 2 ^ 32 / 2 ^ 31 → (genAt State.reset G m).voice ≠ .muted := by decide

theorem witness_linear_decay :
    let G := { voiced with volDelta := 0x100 }
    G.voice = .playing .sawtooth ∧ G.env = .linear ∧ G.vol = 0 ∧ G.volDelta = 0x100 := by decide

/-- A step that executes another command, and one in which a KEYON of the generator is latched but a host access comes first. -/
theorem witness_stays_muted :
    let s := driven [] (some 0x02000003)
    let u := driven [.access (.read 0x008 .w32)] (some 0x01000003)
    (s.Inv ∧ u.Inv) ∧ (s.gens[3]? = some Generator.reset ∧ u.gens[3]? = some Generator.reset) ∧ Generator.reset.voice = .muted ∧
    ((∃ t, step s = .next t) ∧ ∃ t, step u = .next t) ∧ u.pending = some 0x01000003 ∧ decode 0x01000003 = .ok (.keyon 3 0 0) ∧
    (∀ rest w v e, engineNext s rest → s.faultRec = none → s.pending = some w → v ≤ 3 → e ≤ 5 → decode w ≠ .ok (.keyon 3 v e)) ∧
    ∀ rest w v e, engineNext u rest → u.faultRec = none → u.pending = some w → v ≤ 3 → e ≤ 5 → decode w ≠ .ok (.keyon 3 v e) := by
  refine ⟨⟨driven_inv _ _, driven_inv _ _⟩, ⟨rfl, rfl⟩, rfl, ⟨⟨_, rfl⟩, ⟨_, rfl⟩⟩, rfl, by decide, fun rest w v e _ _ h _ _ => ?_,
    fun rest w v e h => ?_⟩
  · obtain rfl : 0x02000003 = w := by simpa [driven] using h
    rw [show decode 0x02000003 = .ok (.mute 3) from by decide]
    simp
  · rcases h with ⟨h, -⟩ | h <;> cases h

/-- Generator 1 divides by zero on the right and is not muted; generator 0, muted, has a zero divisor too. -/
theorem witness_zero_divisor :
    let bank := [{ Generator.reset with divL := 0 }, { voiced with divR := 0 }]
    zeroDivisor { voiced with divR := 0 } ∧ bank[1]? = some { voiced with divR := 0 } ∧
    (∀ h H, h < 1 → bank[h]? = some H → ¬ zeroDivisor H) ∧ (∀ G ∈ [voiced, Generator.reset], ¬ zeroDivisor G) := by
  refine ⟨⟨by decide, .inr rfl⟩, rfl, fun h H hh he => ?_, ?_⟩
  · obtain rfl : h = 0 := by omega
    cases he
    exact fun z => z.1 rfl
  · unfold zeroDivisor
    decide

/-- A bank with a voice in it, for the statements of RENDER_AUDIO. -/
def sounding : State := { State.reset with gens := [voiced, Generator.reset, Generator.reset, { voiced with envAmp := 7 }] }

theorem sounding_inv : sounding.Inv where
  legal := legal_at_reset
  gens_length := rfl
  sprites_length := rfl
  muted_silent := by decide
  amp_range := by decide
  fx_len := by decide
  fx_idle := fun _ => rfl
  text_len := by decide
  mem_wf := List.Pairwise.nil
  mem_ram := by intro c h; cases h

theorem sounding_divides : ∀ G ∈ sounding.gens, ¬ zeroDivisor G := by
  unfold zeroDivisor
  decide

theorem witness_render_forgets :
    sounding.Inv ∧ (∀ G ∈ sounding.gens, ¬ zeroDivisor G) ∧ (∃ t, exec .renderAudio sounding = .next t) ∧
    (0x0010000F + [(0xAA : Byte)].length ≤ 0x00100000 + 4 * sounding.params.frameSamples) ∧
    ∃ u, exec .renderAudio (sounding.memWrite 0x0010000F [0xAA]) = .next u :=
  ⟨sounding_inv, sounding_divides, ⟨_, rfl⟩, by decide, ⟨_, rfl⟩⟩

theorem witness_silent_frame :
    State.reset.params.Legal ∧ (∀ G ∈ State.reset.gens, G.voice = .muted) ∧ State.reset.fx.active = false := by decide

theorem witness_generator_order :
    sounding.gens.reverse.Perm sounding.gens ∧ sounding.gens.reverse ≠ sounding.gens ∧
    (∃ t, exec .renderAudio sounding = .next t) ∧ ∃ u, exec .renderAudio { sounding with gens := sounding.gens.reverse } = .next u :=
  ⟨List.reverse_perm _, by decide, ⟨_, rfl⟩, ⟨_, rfl⟩⟩

/-- Slot 0 ends at the frame's last column and row and at the end of TILE_RAM; slot 1 is one column too far right. -/
theorem witness_sprites :
    let inside : Sprite := { Sprite.reset with visible := true, x := 8, y := 8, w := 8, h := 8 }
    let outside : Sprite := { inside with x := 9 }
    ¬ spriteOutside Params.atReset inside ∧ spriteOutside Params.atReset outside ∧ spriteOutside Params.atReset { inside with y := 9 } ∧
    spriteOutside Params.atReset { inside with tileBase := 1 } ∧ [inside, outside][1]? = some outside ∧
    (∀ j T, j < 1 → [inside, outside][j]? = some T → ¬ spriteOutside Params.atReset T) ∧
    ∀ S ∈ [inside, { outside with visible := false }], ¬ spriteOutside Params.atReset S := by
  refine ⟨?_, ?_, ?_, ?_, rfl, fun j T hj hT => ?_, ?_⟩
  · unfold spriteOutside; decide
  · unfold spriteOutside; decide
  · unfold spriteOutside; decide
  · unfold spriteOutside; decide
  · obtain rfl : j = 0 := by omega
    cases hT
    unfold spriteOutside
    decide
  · unfold spriteOutside; decide

/-- Two characters fill the frame's 16 columns and 16 rows; one more column or row is too much; no text is never outside. -/
theorem witness_text :
    let s (x y : Half) (n : BitVec 5) : State := { State.reset with ovl := { State.reset.ovl with x := x, y := y, textLen := n } }
    ¬ textOutside (s 0 0 2) ∧ textOutside (s 1 0 2) ∧ textOutside (s 0 1 2) ∧ ¬ textOutside (s 0xFFFF 0xFFFF 0) ∧
    (s 0 0 2).ovl.textLen.toNat ≤ 16 ∧ (s 1 0 2).faultRec = none := by
  unfold textOutside
  decide

theorem witness_audio_and_video_commute :
    State.reset.Inv ∧ isVideo .compositeBg ∧ isVideo .drawSprites ∧ isVideo .drawOverlay ∧
    ∃ t₁ t₂ u₁ u₂, exec .renderAudio State.reset = .next t₁ ∧ exec .drawOverlay t₁ = .next t₂ ∧
      exec .drawOverlay State.reset = .next u₁ ∧ exec .renderAudio u₁ = .next u₂ ∧ t₂.faultRec = none :=
  ⟨driven_inv [] none, .inl rfl, .inr (.inl rfl), .inr (.inr rfl), _, _, _, _, rfl, rfl, rfl, rfl, rfl⟩

/-- One access a check of R285: a narrow REGS access, a misaligned one, an unmapped one, and a ROM write. -/
theorem witness_bad_address :
    badAddress Params.atReset (.read 0x008 .w16) ∧ badAddress Params.atReset (.read 0x100002 .w32) ∧
    badAddress Params.atReset (.read 0x100010 .w8) ∧ badAddress Params.atReset (.write 0x30FFF .w8 1) ∧
    ¬ badAddress Params.atReset (.read 0x10000C .w32) := by
  refine ⟨.inl ⟨by decide, by decide⟩, .inr (.inl (by decide)), .inr (.inr (.inl ⟨0, by decide, ?_⟩)),
    .inr (.inr (.inr ⟨rfl, ?_⟩)), ?_⟩
  · simp [registerByte, romRange, ramRange, Params.atReset, Params.waveLen, HostAccess.offset]
  · simp [romRange, Params.atReset, Params.waveLen, HostAccess.offset]
  · simp only [badAddress, HostAccess.offset, HostAccess.width, HostAccess.isWrite, Width.bytes]
    rintro (⟨h, -⟩ | h | ⟨i, hi, h⟩ | ⟨h, -⟩)
    · exact absurd h (by decide)
    · exact h (by decide)
    · refine h (.inr (.inr (.inl ?_)))
      rw [show (0x10000C : Word).toNat = 0x10000C from rfl]
      simp only [Params.atReset]
      omega
    · cases h

/-- The reads a busy block allows, first and last, and two accesses it does not. -/
theorem witness_busy_block :
    (driven [.access (.read 0x008 .w32)] (some 0)).pending = some 0 ∧ busyReadable 0x000 ∧ busyReadable 0x040 ∧ busyReadable 0x058 ∧
    ¬ busyReadable 0x004 ∧ ¬ busyReadable 0x05C ∧ ¬ busyReadable 0x100000 := by
  unfold busyReadable
  decide

theorem witness_register_is_good_address (off : Word) (h : off.toNat % 4 = 0) (h1 : off.toNat < 0x3C) :
    ¬ badAddress Params.atReset (.read off .w32) := by
  simp only [badAddress, HostAccess.offset, HostAccess.width, HostAccess.isWrite, Width.bytes]
  rintro (⟨-, h2⟩ | h2 | ⟨i, hi, h2⟩ | ⟨h2, -⟩)
  · exact h2 rfl
  · exact h2 h
  · exact h2 (.inl (.inl (by omega)))
  · cases h2

theorem witness_cmd_write :
    (driven [.access (.write 0x004 .w32 9)] none).inputs = .access (.write 0x004 .w32 9) :: [] ∧
    (driven [.access (.write 0x004 .w32 9)] none).pending = none ∧ (driven [] (some 0)).pending = some 0 ∧
    ({ driven [] none with faultRec := some ⟨.addrError, 0x3C⟩ } : State).faultRec = some ⟨.addrError, 0x3C⟩ := by decide

/-- The last bytes of the smallest and of the last RAM region. -/
theorem witness_ram_write :
    ¬ badAddress Params.atReset (.write 0x20000C .w32 0x12345678) ∧ ¬ badAddress Params.atReset (.write 0x30000FF .w8 1) ∧
    0x1000 ≤ (0x20000C : Word).toNat := by
  refine ⟨?_, ?_, by decide⟩ <;>
  · simp only [badAddress, HostAccess.offset, HostAccess.width, HostAccess.isWrite, Width.bytes]
    rintro (⟨h, -⟩ | h | ⟨i, hi, h⟩ | ⟨-, h⟩)
    · exact absurd h (by decide)
    · exact h (by decide)
    · refine h (.inr (.inr ?_))
      simp only [ramRange, Params.atReset, show (0x20000C : Word).toNat = 0x20000C from rfl,
        show (0x30000FF : Word).toNat = 0x30000FF from rfl]
      omega
    · simp [romRange, Params.atReset, Params.waveLen] at h

theorem witness_register_write :
    let s := driven [.access (.write 0x32C .w32 5), .access (.read 0x32C .w32)] none
    s.params.Legal ∧ s.gens.length = s.params.ngen ∧ s.sprites.length = s.params.nspr ∧ s.pending = none ∧
    regAt s.params 0x32C = some (.spr 1 .sprTile) ∧ regAt s.params 0x010 = some .frameIndex ∧
    regAt s.params 0x100 = some (.gen 0 .genCtrl) := by decide

theorem witness_warl :
    (driven [.access (.write 0x020 .w32 9)] none).inputs = .access (.write 0x020 .w32 9) :: [] ∧
    (driven [.access (.write 0x028 .w32 0x110000)] none).inputs = .access (.write 0x028 .w32 0x110000) :: [] ∧
    (driven [] none).pending = none := by decide

theorem witness_host_access_steps :
    (∃ t, step (driven [.access (.write 0x014 .w32 7)] none) = .next t) ∧
    (∃ t, step (driven [.access (.write 0x10000 .w8 7)] none) = .next t) ∧
    ∃ t, step (driven [.access (.read 0x05C .w32)] none) = .next t := ⟨⟨_, rfl⟩, ⟨_, rfl⟩, ⟨_, rfl⟩⟩

theorem witness_rom :
    Waveform.ofCode 3 = some .sawtooth ∧ 4095 < Params.atReset.waveLen ∧ Envelope.ofCode 5 = some .tremolo ∧
    Memory.lookup [(4095, 0x81)] 4095 = some 0x81 := by decide

theorem witness_sticky_fault :
    let s : State := { driven [] (some 0) with faultRec := some ⟨.addrError, 0x3C⟩ }
    s.faultRec = some ⟨.addrError, 0x3C⟩ ∧ (∃ t, step s = .next t) ∧ (∀ rest, s.inputs ≠ .reset :: rest) ∧ engineNext s [] :=
  ⟨rfl, ⟨_, rfl⟩, (fun _ h => by cases h), .inl ⟨rfl, rfl⟩⟩

theorem witness_tables : Params.atReset.Legal ∧ Params.atReset.waveIdxBits = 12 ∧ Params.atReset.waveAmp = 2047 ∧
    (4095 : Nat) < Params.atReset.waveLen := by decide

theorem witness_set_gen :
    let s := driven (Program.setGen 3 0x40000000 0x100000 0 0x1234 0x100 1 0xFFFF ++ [.engineTurn]) none
    s.params.Legal ∧ s.gens.length = s.params.ngen ∧ 3 < s.params.ngen ∧ s.pending = none ∧
    s.inputs = Program.setGen 3 0x40000000 0x100000 0 0x1234 0x100 1 0xFFFF ++ [.engineTurn] := by decide

/-- The run in which the engine moves at once. -/
theorem witness_tick :
    let s := driven (Program.promptRun Program.tick) none
    s.Inv ∧ s.pending = none ∧ s.faultRec = none ∧ (∀ G ∈ s.gens, ¬ zeroDivisor G) ∧
    (∀ S ∈ s.sprites, ¬ spriteOutside s.params S) ∧ ¬ textOutside s ∧ s.inputs.length = 12 := by
  refine ⟨driven_inv _ _, rfl, rfl, ?_, ?_, ?_, rfl⟩
  · unfold zeroDivisor; decide
  · unfold spriteOutside; decide
  · unfold textOutside; decide

/-- A WAIT that reads STATUS twice while the command is pending and once after the engine's move, and one that leaves at once. -/
theorem witness_wait :
    let poll : Event := .access Program.statusRead
    (driven [] (some 0x03000000)).params.Legal ∧ (driven [] (some 0x03000000)).pending ≠ none ∧
    Program.RunsOf [.wait] (driven [] (some 0x03000000)) [poll, poll, .engineTurn, poll] ∧
    Program.RunsOf [.wait] (driven [] none) [poll] :=
  ⟨legal_at_reset, by decide, ⟨rfl, rfl, _, rfl, rfl, rfl⟩, ⟨rfl, rfl⟩⟩

/-- Good reads: the last byte of the last ROM, of AUD_RAM, and the three registers named. -/
theorem witness_idle_read :
    ¬ badAddress Params.atReset (.read 0x30FFF .w8) ∧ ¬ badAddress Params.atReset (.read 0x10000E .w16) ∧
    ¬ badAddress Params.atReset (.read 0x004 .w32) ∧ ¬ badAddress Params.atReset (.read 0x020 .w32) ∧
    ¬ badAddress Params.atReset (.read 0x028 .w32) ∧ (driven [.access (.read 0x30FFF .w8)] none).pending = none := by
  refine ⟨?_, ?_, witness_register_is_good_address _ (by decide) (by decide),
    witness_register_is_good_address _ (by decide) (by decide), witness_register_is_good_address _ (by decide) (by decide), rfl⟩ <;>
  · simp only [badAddress, HostAccess.offset, HostAccess.width, HostAccess.isWrite, Width.bytes]
    rintro (⟨h, -⟩ | h | ⟨i, hi, h⟩ | ⟨h, -⟩)
    · exact absurd h (by decide)
    · exact h (by decide)
    · refine h (.inr ?_)
      simp only [romRange, ramRange, Params.atReset, show (0x30FFF : Word).toNat = 0x30FFF from rfl,
        show (0x10000E : Word).toNat = 0x10000E from rfl]
      omega
    · cases h

/-- 46_control.md R286: CMD reads 0. 10_state.md R27, R28: FX_LEN stops at FX_CAP, OVL_CTRL shows both fields. 40_tables.md R131: the
entry of index 1 is 3. -/
theorem test_reads :
    (State.reset.hostAccess (.read 0x004 .w32)).hostData = 0 ∧ readAfter (.write 0x020 .w32 9) 0x020 = 8 ∧
    readAfter (.write 0x028 .w32 0x000300AB) 0x028 = 0x000300AB ∧
    (State.reset.hostAccess (.read 0x10002 .w16)).hostData = 3 := by decide +kernel

end Sys2Proof.Machine.Tests
end

section
/-! SUPPORT. Writes to the registers of an idle block: which accesses pass the checks, the step they give and what it leaves alone,
for any register; then the registers that keep a legal value of what is written. -/

namespace Sys2Proof.Machine

/-! ### Word accesses to registers -/

/-- A word access to a register passes every address check (46_control.md R285). -/
theorem addressError_register {p : Params} {a : HostAccess} {r : Reg} (hl : p.Legal) (hr : regAt p a.offset.toNat = some r)
    (hw : a.width = .w32) : a.addressError p = false := by
  obtain ⟨hlt, h4⟩ := regAt_in_regs hl hr
  have hmap : ∀ i, i < 4 → mappedByte p (a.offset.toNat + i) = true := by
    intro i hi
    have hword : (a.offset.toNat + i) / 4 * 4 = a.offset.toNat := by omega
    unfold mappedByte
    rw [(regionOf_regs hl _).mpr (by omega), hword, hr]
    rfl
  have hrom : inRom p a.offset.toNat = false := by
    unfold inRom
    rw [(regionOf_regs hl _).mpr hlt]
    rfl
  have hany : (List.range 4).any (fun i => !mappedByte p (a.offset.toNat + i)) = false := by
    rw [List.any_eq_false]
    intro i hi
    simp [hmap i (List.mem_range.mp hi)]
  simp [HostAccess.addressError, hw, Width.bytes, h4, hany, hrom]

/-- An idle block refuses no access with a good address. -/
theorem State.accessFault_idle {s : State} {a : HostAccess} (hp : s.pending = none) (ha : a.addressError s.params = false) :
    s.accessFault a = none := by
  simp [State.accessFault, State.busy, hp, ha]

/-- The step of an idle block in which the host writes a register other than CMD (46_control.md R286). -/
theorem step_register_write {s : State} {off v : Word} {r : Reg} {rest : List Event} (hl : s.params.Legal) (hp : s.pending = none)
    (hi : s.inputs = .access (.write off .w32 v) :: rest) (hr : regAt s.params off.toNat = some r) (hc : r ≠ .cmd) :
    step s = .next (({ s with inputs := rest } : State).writeReg v r) := by
  have hfault : ({ s with inputs := rest } : State).accessFault (.write off .w32 v) = none :=
    State.accessFault_idle hp (addressError_register hl hr rfl)
  rw [step_access hl hi]
  unfold State.hostAccess
  rw [hfault]
  exact congrArg _ (State.hostWrite_register hl hr hc)

/-- What a register write that drops the event it came from leaves alone: every other register and every byte. -/
theorem State.writeReg_reads_same (s : State) (rest : List Event) (v : Word) (r : Reg) :
    (∀ q, q ≠ r → (({ s with inputs := rest } : State).writeReg v r).readReg q = s.readReg q) ∧
    ∀ a, (({ s with inputs := rest } : State).writeReg v r).readByte a = s.readByte a := by
  obtain ⟨hparams, hmem, hepoch, -⟩ := State.writeReg_frame { s with inputs := rest } v r
  exact ⟨fun q hq => State.writeReg_other _ v hq, State.readByte_congr hparams hmem hepoch⟩

/-! ### FX_LEN (10_state.md R27) -/

/-- The smaller of a written word and FX_CAP fits the register: no bit of it is lost. -/
theorem legalFxLen_toNat (p : Params) (v : Word) : (legalFxLen p v).toNat = min v.toNat p.fxCap :=
  (BitVec.toNat_ofNat _ _).trans <| Nat.mod_eq_of_lt ((Nat.min_le_left _ _).trans_lt v.isLt)

/-- FX_LEN reads as the legal length after a write to it. -/
theorem State.writeReg_fxLen_read (s : State) (v : Word) : (s.writeReg v .fxLen).readReg .fxLen = legalFxLen s.params v := rfl

/-- Settles O44: the write at 0x020 passes the checks of an idle block and is the register write of FX_LEN, which keeps every other
register and every byte. -/
theorem fxLenStoresTheLegalLength : Obligations.FxLenStoresTheLegalLength := by
  intro s v rest hl hp hi
  have hr : regAt s.params (0x020 : Word).toNat = some .fxLen := rfl
  refine ⟨_, step_register_write hl hp hi hr (by decide), ?_, State.writeReg_reads_same s rest v .fxLen⟩
  rw [State.writeReg_fxLen_read, legalFxLen_toNat]

end Sys2Proof.Machine
end

section
/-! SUPPORT. The address checks of a host access (46_control.md R285) are the ranges of the address map (20_memory.md R71): which
bytes exist, which of them are read-only, and what an access that fails a check does. -/

namespace Sys2Proof.Machine

open Sys2Proof.Machine.Claims

/-! ### The register map -/

/-- The global register slots: 15 words, a hole, and the 7 CFG words (10_state.md R22). -/
theorem globalMap_isSome : ∀ k < 64, (globalMap.lookup (k * 4)).isSome = true ↔ k < 15 ∨ (16 ≤ k ∧ k < 23) := by decide

/-- Every word of a generator's slot is a register (10_state.md R30). -/
theorem genMap_isSome : ∀ k < 8, (genMap.lookup (k * 4)).isSome = true := by decide

/-- The first half of a sprite's slot is registers (10_state.md R38). -/
theorem sprMap_isSome : ∀ k < 8, (sprMap.lookup (k * 4)).isSome = true ↔ k < 4 := by decide

/-- The word of an offset is a register exactly when the offset is a byte of one. -/
theorem regAt_word_isSome {p : Params} (hl : p.Legal) (a : Nat) : (regAt p (a / 4 * 4)).isSome = true ↔ registerByte p a := by
  obtain ⟨-, -, ⟨-, hgen⟩, ⟨-, hspr⟩, -⟩ := hl
  unfold regAt registerByte
  split
  case isTrue h =>
    rw [globalMap_isSome _ (by omega)]
    omega
  case isFalse h =>
    split
    case isTrue hg =>
      have hword : (a / 4 * 4 - 0x100) % 0x20 = (a / 4 * 4 - 0x100) % 0x20 / 4 * 4 := by omega
      rw [Option.isSome_map, hword]
      simp only [genMap_isSome _ (show (a / 4 * 4 - 0x100) % 0x20 / 4 < 8 by omega), true_iff]
      omega
    case isFalse hg =>
      split
      case isTrue hs =>
        have hword : (a / 4 * 4 - 0x300) % 0x20 = (a / 4 * 4 - 0x300) % 0x20 / 4 * 4 := by omega
        rw [Option.isSome_map, hword, sprMap_isSome _ (by omega)]
        omega
      case isFalse hs =>
        simp only [Option.isSome_none, Bool.false_eq_true, false_iff]
        omega

/-- The registers lie in the REGS window. -/
theorem registerByte_lt {p : Params} (hl : p.Legal) {a : Nat} (h : registerByte p a) : a < 0x1000 := by
  obtain ⟨-, -, ⟨-, hgen⟩, ⟨-, hspr⟩, -⟩ := hl
  unfold registerByte at h
  omega

/-! ### The memories -/

/-- The read-only ranges are the ROM regions. -/
theorem romRange_iff {p : Params} {a : Nat} : romRange p a ↔ ∃ r : Region, r.isRom = true ∧ r.Holds p a := by
  constructor
  · rintro (h | h | h)
    · exact ⟨.waveRom, rfl, h⟩
    · exact ⟨.envRom, rfl, h⟩
    · exact ⟨.fontRom, rfl, h⟩
  · rintro ⟨r, hr, h⟩
    cases r
    case waveRom => exact .inl h
    case envRom => exact .inr (.inl h)
    case fontRom => exact .inr (.inr h)
    all_goals cases hr

/-- The read-write ranges are the RAM regions. -/
theorem ramRange_iff {p : Params} {a : Nat} : ramRange p a ↔ ∃ r : Region, r.isRam = true ∧ r.Holds p a := by
  constructor
  · rintro (h | h | h | h | h)
    · exact ⟨.audRam, rfl, h⟩
    · exact ⟨.fxRam, rfl, h⟩
    · exact ⟨.bgRam, rfl, h⟩
    · exact ⟨.tileRam, rfl, h⟩
    · exact ⟨.fbRam, rfl, h⟩
  · rintro ⟨r, hr, h⟩
    cases r
    case audRam => exact .inl h
    case fxRam => exact .inr (.inl h)
    case bgRam => exact .inr (.inr (.inl h))
    case tileRam => exact .inr (.inr (.inr (.inl h)))
    case fbRam => exact .inr (.inr (.inr (.inr h)))
    all_goals cases hr

/-- A memory byte is one of a region other than REGS. -/
theorem memoryRange_iff {p : Params} {a : Nat} : romRange p a ∨ ramRange p a ↔ ∃ r : Region, r ≠ .regs ∧ r.Holds p a := by
  rw [romRange_iff, ramRange_iff, ← exists_or]
  refine exists_congr fun r => ?_
  cases r <;> simp [Region.isRom, Region.isRam]

/-! ### The checks -/

/-- The bytes that exist (20_memory.md R71, R77). -/
theorem mappedByte_iff {p : Params} (hl : p.Legal) (a : Nat) :
    mappedByte p a = true ↔ registerByte p a ∨ romRange p a ∨ ramRange p a := by
  rw [memoryRange_iff]
  unfold mappedByte
  split
  case h_1 hregs =>
    have hmem : ¬ ∃ r : Region, r ≠ .regs ∧ r.Holds p a := fun ⟨r, hne, hr⟩ =>
      hne (Region.holds_unique hl hr ((regionOf_eq_some hl).mp hregs))
    rw [regAt_word_isSome hl, or_iff_left hmem]
  case h_2 r hne hr => exact iff_of_true rfl (.inr ⟨r, hne, (regionOf_eq_some hl).mp hr⟩)
  case h_3 hnone =>
    have hreg : ¬ registerByte p a := fun h => by
      rw [(regionOf_regs hl a).mpr (registerByte_lt hl h)] at hnone
      cases hnone
    exact iff_of_false Bool.false_ne_true fun h => h.elim hreg fun ⟨r, _, hr⟩ => regionOf_eq_none.mp hnone r hr

/-- The bytes of the read-only memories. -/
theorem inRom_iff {p : Params} (hl : p.Legal) (a : Nat) : inRom p a = true ↔ romRange p a := by
  rw [romRange_iff]
  unfold inRom
  split
  case h_1 r hr =>
    rw [regionOf_eq_some hl] at hr
    exact ⟨fun h => ⟨r, h, hr⟩, fun ⟨q, hq, ha⟩ => Region.holds_unique hl ha hr ▸ hq⟩
  case h_2 hnone => exact iff_of_false Bool.false_ne_true fun ⟨r, _, hr⟩ => regionOf_eq_none.mp hnone r hr

theorem Width.bytes_ne_four {n : Width} : n.bytes ≠ 4 ↔ n ≠ .w32 := by cases n <;> decide

/-- The four address checks refuse exactly the bad addresses (20_memory.md R75, R76, R77; 46_control.md R285). -/
theorem addressError_iff {p : Params} (hl : p.Legal) (a : HostAccess) : a.addressError p = true ↔ badAddress p a := by
  simp only [HostAccess.addressError, badAddress, Bool.or_eq_true, Bool.and_eq_true, decide_eq_true_eq, bne_iff_ne,
    List.any_eq_true, List.mem_range, Bool.not_eq_true', ← Bool.not_eq_true, regionOf_regs hl, mappedByte_iff hl, inRom_iff hl,
    Width.bytes_ne_four, or_assoc]

/-! ### A refused access -/

/-- Recording a fault, with the record written out (60_exceptions.md R300). -/
theorem State.raise_eq_firstFault (s : State) (code : FaultCode) (info : Word) :
    s.raise code info = { s with faultRec := firstFault s.faultRec code info } := by
  cases h : s.faultRec with
  | none => exact State.raise_of_none h code info
  | some r => rw [State.raise_of_some h, firstFault, ← h]

/-- An access that fails a check records the fault with its offset and is not performed; a read returns 0 (60_exceptions.md R298,
R299). -/
theorem State.hostAccess_refused {s : State} {a : HostAccess} {code : FaultCode} (h : s.accessFault a = some code) :
    s.hostAccess a = { s with
      faultRec := firstFault s.faultRec code a.offset, hostData := if a.isWrite then s.hostData else 0 } := by
  unfold State.hostAccess
  rw [h]
  cases a with
  | read off n =>
    simp only [State.raise_eq_firstFault]
    rfl
  | write off n v => exact State.raise_eq_firstFault s code off

/-- The step of a block in which the host's access fails a check. -/
theorem step_access_refused {s : State} {a : HostAccess} {rest : List Event} {code : FaultCode} (hl : s.params.Legal)
    (hi : s.inputs = .access a :: rest) (h : s.accessFault a = some code) :
    step s = .next { s with
      inputs := rest, faultRec := firstFault s.faultRec code a.offset, hostData := if a.isWrite then s.hostData else 0 } := by
  have hfault : ({ s with inputs := rest } : State).accessFault a = some code := h
  rw [step_access hl hi, State.hostAccess_refused hfault]

/-- A bad address is the first check to fail, of a busy block too (46_control.md R285, 60_exceptions.md R304). -/
theorem State.accessFault_badAddress {s : State} {a : HostAccess} (hl : s.params.Legal) (h : badAddress s.params a) :
    s.accessFault a = some .addrError :=
  if_pos ((addressError_iff hl a).mpr h)

/-- Settles O39: a bad address fails an address check, and an access that fails a check leaves only the record of the fault. -/
theorem badAddressRaisesAddrError : Obligations.BadAddressRaisesAddrError := fun _ _ _ hl hi hbad =>
  step_access_refused hl hi (State.accessFault_badAddress hl hbad)

end Sys2Proof.Machine
end

section
/-! SUPPORT. The decoder and the encoder are inverse to each other (30_encoding.md R101 to R104), which words a row of the opcode map
matches (R103), and what a command with a meaningless operand does (R106). -/

namespace Sys2Proof.Machine

open Sys2Proof.Machine.Claims

/-! ### Decoding a command word -/

/-- The whole effect of the check of the reserved bits (30_encoding.md R104). -/
theorem whenReservedZero_eq_ok {reserved : Nat} {i j : Instr} : whenReservedZero reserved i = .ok j ↔ reserved = 0 ∧ i = j := by
  unfold whenReservedZero
  split <;> simp [*]

/-- A word whose 24 low bits are zero is its opcode alone. -/
theorem ofNat_opcode_of_bits {w : Word} {op : Nat} (hop : bits w 31 24 = op) (hlow : bits w 23 0 = 0) :
    BitVec.ofNat 32 (op * 2 ^ 24) = w := by
  have hlt := w.isLt
  refine BitVec.eq_of_toNat_eq ?_
  simp only [bits, BitVec.toNat_ofNat] at *
  omega

/-- A word that decodes is the word of the command it decodes to, whose operands fit their fields. -/
theorem wf_and_encode_of_decode {w : Word} {i : Instr} (h : decode w = .ok i) : i.wf = true ∧ encode i = w := by
  have hlt := w.isLt
  unfold decode at h
  split at h
  case h_9 => cases h
  all_goals
    rename_i hop
    obtain ⟨hlow, rfl⟩ := whenReservedZero_eq_ok.mp h
  case h_2 | h_3 =>
    refine ⟨by simp [Instr.wf, bits, Nat.mod_lt], BitVec.eq_of_toNat_eq ?_⟩
    simp only [encode, bits, BitVec.toNat_ofNat] at *
    omega
  all_goals exact ⟨rfl, ofNat_opcode_of_bits hop hlow⟩

/-- Every well-formed command is what its word decodes to. -/
theorem decode_encode {i : Instr} (h : i.wf = true) : decode (encode i) = .ok i := by
  cases i with
  | keyon gen voice env =>
    have hop : bits (encode (.keyon gen voice env)) 31 24 = 0x01 := Laws.OpcodeByte.keyon gen voice env h
    simp only [Instr.wf, Bool.and_eq_true, decide_eq_true_eq] at h
    simp only [decode, hop, whenReservedZero_eq_ok, Instr.keyon.injEq]
    simp only [bits, encode, BitVec.toNat_ofNat]
    omega
  | mute gen =>
    have hop : bits (encode (.mute gen)) 31 24 = 0x02 := Laws.OpcodeByte.mute gen h
    simp only [Instr.wf, decide_eq_true_eq] at h
    simp only [decode, hop, whenReservedZero_eq_ok, Instr.mute.injEq]
    simp only [bits, encode, BitVec.toNat_ofNat]
    omega
  | _ => decide

/-- The words that decode to a command: its encoding and no other. -/
theorem decode_eq_ok_iff {w : Word} {i : Instr} : decode w = .ok i ↔ i.wf = true ∧ encode i = w :=
  ⟨wf_and_encode_of_decode, fun ⟨hwf, hw⟩ => hw ▸ decode_encode hwf⟩

/-! ### Rows of the opcode map -/

/-- A mask of all bits from `k` up compares a word without its `k` low bits. -/
theorem and_highMask_eq_iff (w p : Word) (k : Nat) : w &&& BitVec.allOnes 32 <<< k = p ↔ w.toNat / 2 ^ k * 2 ^ k = p.toNat := by
  have hlt : w.toNat / 2 ^ k * 2 ^ k < 2 ^ 32 := (Nat.div_mul_le_self _ _).trans_lt w.isLt
  rw [← BitVec.shiftLeft_ushiftRight, ← BitVec.toNat_inj, BitVec.toNat_shiftLeft, BitVec.toNat_ushiftRight, Nat.shiftLeft_eq,
    Nat.shiftRight_eq_div_pow, Nat.mod_eq_of_lt hlt]

/-- A full mask matches the one word of a command that is the only one of its mnemonic. -/
theorem fullMask_matches_iff {w : Word} {i : Instr} (hwf : i.wf = true) (honly : ∀ j, mnemonic j = mnemonic i → j = i) :
    w &&& 0xFFFFFFFF = encode i ↔ ∃ j, decode w = .ok j ∧ mnemonic j = mnemonic i := by
  rw [show w &&& 0xFFFFFFFF = w from BitVec.and_allOnes]
  constructor
  · rintro rfl
    exact ⟨i, decode_encode hwf, rfl⟩
  · rintro ⟨j, hj, hm⟩
    rw [honly j hm] at hj
    exact (decode_eq_ok_iff.mp hj).2.symm

/-- The row of KEYON matches the words of the KEYON commands: the three operand fields are free. -/
theorem keyonRow_matches_iff (w : Word) :
    w &&& 0xFFFFF000 = 0x01000000 ↔ ∃ i, decode w = .ok i ∧ mnemonic i = "KEYON" := by
  rw [show (0xFFFFF000 : Word) = BitVec.allOnes 32 <<< 12 from rfl, and_highMask_eq_iff,
    show (0x01000000 : Word).toNat = 0x01000000 from rfl]
  constructor
  · intro h
    have hop : bits w 31 24 = 0x01 := by
      unfold bits
      omega
    have hreserved : bits w 23 12 = 0 := by
      unfold bits
      omega
    refine ⟨.keyon (bits w 3 0) (bits w 7 4) (bits w 11 8), ?_, rfl⟩
    simp only [decode, hop, whenReservedZero_eq_ok, hreserved, and_self]
  · rintro ⟨i, hi, hm⟩
    obtain ⟨hwf, rfl⟩ := decode_eq_ok_iff.mp hi
    cases i with
    | keyon gen voice env =>
      simp only [Instr.wf, Bool.and_eq_true, decide_eq_true_eq] at hwf
      simp only [encode, BitVec.toNat_ofNat]
      omega
    | _ => simp [mnemonic] at hm

/-- The row of MUTE matches the words of the MUTE commands: the operand field is free. -/
theorem muteRow_matches_iff (w : Word) :
    w &&& 0xFFFFFFF0 = 0x02000000 ↔ ∃ i, decode w = .ok i ∧ mnemonic i = "MUTE" := by
  rw [show (0xFFFFFFF0 : Word) = BitVec.allOnes 32 <<< 4 from rfl, and_highMask_eq_iff,
    show (0x02000000 : Word).toNat = 0x02000000 from rfl]
  constructor
  · intro h
    have hop : bits w 31 24 = 0x02 := by
      unfold bits
      omega
    have hreserved : bits w 23 4 = 0 := by
      unfold bits
      omega
    refine ⟨.mute (bits w 3 0), ?_, rfl⟩
    simp only [decode, hop, whenReservedZero_eq_ok, hreserved, and_self]
  · rintro ⟨i, hi, hm⟩
    obtain ⟨hwf, rfl⟩ := decode_eq_ok_iff.mp hi
    cases i with
    | mute gen =>
      simp only [Instr.wf, decide_eq_true_eq] at hwf
      simp only [encode, BitVec.toNat_ofNat]
      omega
    | _ => simp [mnemonic] at hm

/-- A row matches exactly the words that decode to its mnemonic. -/
theorem row_matches_iff (w : Word) :
    ∀ row ∈ rows, w &&& row.mask = row.pattern ↔ ∃ i, decode w = .ok i ∧ mnemonic i = row.mnemonic := by
  unfold rows
  simp only [List.forall_mem_cons]
  refine ⟨fullMask_matches_iff (i := .nop) rfl ?_, keyonRow_matches_iff w, muteRow_matches_iff w,
    fullMask_matches_iff (i := .triggerFx) rfl ?_, fullMask_matches_iff (i := .renderAudio) rfl ?_,
    fullMask_matches_iff (i := .compositeBg) rfl ?_, fullMask_matches_iff (i := .drawSprites) rfl ?_,
    fullMask_matches_iff (i := .drawOverlay) rfl ?_, List.forall_mem_nil _⟩
  all_goals
    intro j hj
    cases j <;> simp [mnemonic] at hj ⊢

/-- Every command has a row. -/
theorem exists_row_of_mnemonic (i : Instr) : ∃ row ∈ rows, mnemonic i = row.mnemonic := by
  cases i <;> simp [rows, mnemonic]

/-- Settles O3: a row matches the words that decode to its mnemonic (`row_matches_iff`), every command has a row, and a word decodes
to one command only. -/
theorem wordIsCommandExactlyWhenARowMatches : Obligations.WordIsCommandExactlyWhenARowMatches := by
  intro w
  refine ⟨⟨?_, ?_⟩, row_matches_iff w, ?_⟩
  · rintro ⟨i, hi⟩
    obtain ⟨row, hrow, hm⟩ := exists_row_of_mnemonic i
    exact ⟨row, hrow, (row_matches_iff w row hrow).mpr ⟨i, hi, hm⟩⟩
  · rintro ⟨row, hrow, hmatch⟩
    obtain ⟨i, hi, -⟩ := (row_matches_iff w row hrow).mp hmatch
    exact ⟨i, hi⟩
  · intro row hrow row' hrow' hmatch hmatch'
    obtain ⟨i, hi, hm⟩ := (row_matches_iff w row hrow).mp hmatch
    obtain ⟨j, hj, hm'⟩ := (row_matches_iff w row' hrow').mp hmatch'
    have hij : i = j := Except.ok.inj (hi.symm.trans hj)
    rw [← hm, ← hm', hij]

/-! ### Operands without a meaning (30_encoding.md R106) -/

/-- The GEN operands that name no generator. -/
theorem generatorOperand_eq_none {p : Params} {gen : Nat} : generatorOperand p gen = none ↔ p.ngen ≤ gen := by
  simp [generatorOperand]

/-- The VOICE operands that name no waveform. -/
theorem Waveform.ofCode_eq_none : ∀ {voice : Nat}, 3 < voice → Waveform.ofCode voice = none
  | _ + 4, _ => rfl

/-- The ENV operands that name no envelope. -/
theorem Envelope.ofCode_eq_none : ∀ {env : Nat}, 5 < env → Envelope.ofCode env = none
  | _ + 6, _ => rfl

/-- One operand without a meaning leaves KEYON none. -/
theorem keyonOperands_eq_none {p : Params} {gen voice env : Nat} (h : meaningless p (.keyon gen voice env)) :
    keyonOperands p gen voice env = none := by
  rw [Option.eq_none_iff_forall_ne_some]
  rintro ⟨g, w, e⟩ hop
  obtain ⟨-, hgen, hvoice, henv⟩ := keyonOperands_some hop
  obtain h | h | h := h
  · exact absurd hgen (Nat.not_lt.mpr h)
  · simp [Waveform.ofCode_eq_none h] at hvoice
  · simp [Envelope.ofCode_eq_none h] at henv

/-- A command with a meaningless operand raises BAD_OPERAND with its own word and does nothing else. -/
theorem exec_meaningless {s : State} {i : Instr} (h : meaningless s.params i) :
    exec i s = .next (s.raise .badOperand (encode i)) := by
  cases i with
  | keyon gen voice env => simp [exec, execKeyon, keyonOperands_eq_none h]
  | mute gen => simp [exec, execMute, generatorOperand_eq_none.mpr h]
  | _ => exact h.elim

/-- Settles O5: the command's own word is the only one that decodes to it, so the word it raises BAD_OPERAND with is the one that was
decoded. -/
theorem meaninglessOperandRaisesBadOperand : Obligations.MeaninglessOperandRaisesBadOperand := by
  intro s i hwf hmeaning hfault
  refine ⟨decode_encode hwf, fun w hw => ?_⟩
  obtain ⟨-, rfl⟩ := decode_eq_ok_iff.mp hw
  rw [exec_meaningless hmeaning, State.raise_of_none hfault]

end Sys2Proof.Machine
end

section
/-! SUPPORT. The exponential envelopes of 40_tables.md R136 and R138 to R140 over the real numbers: the bitwise search of
Machine/Tables.lean finds the floor of the exact power. -/

namespace Sys2Proof.Machine

open Sys2Proof.Machine.Claims

/-! ### The bitwise search for the floor of a power -/

/-- One step of the search in `floorExp2`. -/
def addBit (a b n bit : Nat) : Nat := if (n + bit) ^ b ≤ 2 ^ a then n + bit else n

/-- The `b`-th root of 2^a lies in the interval [n, n + w). -/
def RootWithin (a b n w : Nat) : Prop := n ^ b ≤ 2 ^ a ∧ 2 ^ a < (n + w) ^ b

/-- A step of the search halves the interval of the root. -/
theorem rootWithin_addBit {a b n w : Nat} (h : RootWithin a b n (w + w)) : RootWithin a b (addBit a b n w) w := by
  obtain ⟨hlow, hhigh⟩ := h
  unfold addBit
  split
  case isTrue hle => exact ⟨hle, by rwa [Nat.add_assoc]⟩
  case isFalse hgt => exact ⟨hlow, Nat.lt_of_not_le hgt⟩

/-- The search through the bits below 2^k narrows an interval of length 2^k to one number. -/
theorem rootWithin_foldl_addBit {a b : Nat} (k : Nat) : ∀ {n : Nat}, RootWithin a b n (2 ^ k) →
    RootWithin a b (((List.range k).reverse.map (2 ^ ·)).foldl (addBit a b) n) 1 := by
  induction k with
  | zero => exact fun h => h
  | succ k ih =>
    intro n h
    rw [List.range_succ, List.reverse_append]
    refine ih (rootWithin_addBit ?_)
    rwa [← Nat.two_mul, ← Nat.pow_succ']

/-- `floorExp2` is the integer part of the root when that is below 2^9. -/
theorem rootWithin_floorExp2 {a b : Nat} (hb : 0 < b) (ha : a < 9 * b) : RootWithin a b (floorExp2 a b) 1 := by
  refine rootWithin_foldl_addBit 9 ⟨?_, ?_⟩
  · simp [hb.ne']
  · rw [Nat.zero_add, ← Nat.pow_mul]
    exact Nat.pow_lt_pow_right Nat.one_lt_two ha

/-! ### The exact power -/

/-- The real power with a rational exponent is the root. -/
theorem two_rpow_div_pow (a : Nat) {b : Nat} (hb : 0 < b) : ((2 : ℝ) ^ ((a : ℝ) / b)) ^ b = 2 ^ a := by
  have hb' : (b : ℝ) ≠ 0 := by exact_mod_cast hb.ne'
  rw [← Real.rpow_mul_natCast zero_le_two, div_mul_cancel₀ _ hb', Real.rpow_natCast]

/-- `floorExp2` is the floor of the exact power. -/
theorem floor_two_rpow {a b : Nat} (hb : 0 < b) (ha : a < 9 * b) : ⌊(2 : ℝ) ^ ((a : ℝ) / b)⌋₊ = floorExp2 a b := by
  obtain ⟨hlow, hhigh⟩ := rootWithin_floorExp2 hb ha
  have hpos : (0 : ℝ) ≤ 2 ^ ((a : ℝ) / b) := by positivity
  rw [Nat.floor_eq_iff hpos, ← pow_le_pow_iff_left₀ (Nat.cast_nonneg _) hpos hb.ne',
    ← pow_lt_pow_iff_left₀ hpos (by positivity) hb.ne', two_rpow_div_pow a hb]
  exact ⟨by exact_mod_cast hlow, by exact_mod_cast hhigh⟩

/-- `truncExp` truncates the exact power minus 1, which is not negative. -/
theorem isTrunc_truncExp {a b : Nat} {x : ℝ} (hx : x = a / b) (hb : 0 < b) (ha : a < 9 * b) :
    IsTrunc ((2 : ℝ) ^ x - 1) (truncExp a b) := by
  have hone : (1 : ℝ) ≤ 2 ^ x := Real.one_le_rpow one_le_two (by rw [hx]; positivity)
  rw [IsTrunc, if_pos (sub_nonneg.mpr hone), truncExp, ← floor_two_rpow hb ha, ← Nat.floor_sub_one, ← hx,
    Int.natCast_floor_eq_floor (sub_nonneg.mpr hone)]

/-! ### The segments of the envelopes -/

/-- The clamp of R136 only cuts at the top: a truncated power is not negative. -/
theorem envEntry_expDecay (i : Nat) : envEntry .expDecay i = max 0 (min (truncExp (256 - i) 32 : Int) 255) := by
  change min (truncExp (256 - i) 32 : Int) 255 = _
  omega

theorem envEntry_adsr_attack {i : Nat} (h : i < 32) : envEntry .adsr i = truncExp (i + 1) 4 := if_pos h

theorem envEntry_adsr_plateau {i : Nat} (hlow : 32 ≤ i) (hhigh : i < 192) : envEntry .adsr i = 255 :=
  (if_neg (Nat.not_lt.mpr hlow)).trans (if_pos hhigh)

theorem envEntry_adsr_decay {i : Nat} (h : 192 ≤ i) : envEntry .adsr i = truncExp (256 - i) 8 :=
  (if_neg (by omega)).trans (if_neg (Nat.not_lt.mpr h))

theorem envEntry_sustain_attack {i : Nat} (h : i < 16) : envEntry .sustain i = truncExp (i + 1) 2 := if_pos h

theorem envEntry_sustain_plateau {i : Nat} (hlow : 16 ≤ i) (hhigh : i < 224) : envEntry .sustain i = 255 :=
  (if_neg (Nat.not_lt.mpr hlow)).trans (if_pos hhigh)

theorem envEntry_sustain_decay {i : Nat} (h : 224 ≤ i) : envEntry .sustain i = truncExp (256 - i) 4 :=
  (if_neg (by omega)).trans (if_neg (Nat.not_lt.mpr h))

theorem envEntry_tremolo_attack {i : Nat} (h : i < 48) : envEntry .tremolo i = truncExp ((i + 1) * 7) 48 := if_pos h

theorem envEntry_tremolo_plateau {m : Nat} (h : m < 160) : envEntry .tremolo (48 + m) = 127 + sineEntry 32 64 (m % 32) := by
  change tremoloEnv (48 + m) = _
  rw [tremoloEnv, if_neg (by omega), if_pos (by omega), Nat.add_sub_cancel_left]

theorem envEntry_tremolo_decay {i : Nat} (h : 208 ≤ i) : envEntry .tremolo i = truncExp ((256 - i) * 7) 48 :=
  (if_neg (by omega)).trans (if_neg (Nat.not_lt.mpr h))

/-- Settles O52: every exponential segment is `truncExp` of its exponent, which truncates the exact power (`isTrunc_truncExp`). -/
theorem exponentialEnvelopesAreTruncatedPowers : Obligations.ExponentialEnvelopesAreTruncatedPowers := by
  intro i hi
  have hdown : ((256 - i : Nat) : ℝ) = 256 - i := Nat.cast_sub hi.le
  refine ⟨⟨truncExp (256 - i) 32, isTrunc_truncExp (by simp [hdown]) (by decide) (by omega), envEntry_expDecay i⟩,
    fun hattack => ?_, envEntry_adsr_plateau, fun hdecay => ?_, fun hattack => ?_, envEntry_sustain_plateau, fun hdecay => ?_⟩
  · rw [envEntry_adsr_attack hattack]
    exact isTrunc_truncExp (by simp) (by decide) (by omega)
  · rw [envEntry_adsr_decay hdecay]
    exact isTrunc_truncExp (by simp [hdown]) (by decide) (by omega)
  · rw [envEntry_sustain_attack hattack]
    exact isTrunc_truncExp (by simp) (by decide) (by omega)
  · rw [envEntry_sustain_decay hdecay]
    exact isTrunc_truncExp (by simp [hdown]) (by decide) (by omega)

end Sys2Proof.Machine
end

section
/-! SUPPORT. The rounded sine (40_tables.md R131) and the tremolo envelope (R140) over the real numbers: the fixed-point sine rounds
as the real one wherever its error cannot reach a half-integer. -/

namespace Sys2Proof.Machine

open Sys2Proof.Machine.Claims

/-! ### Rounding -/

/-- Rounding away from zero at the halves is odd. -/
theorem isRound_neg {x : ℝ} {n : Int} (h : IsRound x n) : IsRound (-x) (-n) := by
  unfold IsRound at *
  obtain hx | rfl | hx := lt_trichotomy x 0
  · rw [if_neg hx.not_ge] at h
    rw [if_pos (by linarith), h, ← Int.floor_neg]
    congr 1
    ring
  · norm_num at *
    exact h
  · rw [if_pos hx.le] at h
    rw [if_neg (by linarith), h, ← Int.ceil_neg]
    congr 1
    ring

/-- A fixed-point value at scale `F`, off by at most 8 units of the last place, scaled by `A` and rounded as `quarterSine` does, is the
rounded real value when the remainder dropped stays clear of both ends by the scaled error. -/
theorem isRound_of_fixedPoint_error {F A f : Nat} {y : ℝ} (hF : 0 < F) (hy : 0 ≤ y) (herror : |(f : ℝ) / F - y| ≤ 8 / F)
    (hlow : 16 * A ≤ (2 * A * f + F) % (2 * F)) (hhigh : (2 * A * f + F) % (2 * F) + 16 * A < 2 * F) :
    IsRound (A * y) ((2 * A * f + F) / (2 * F) : Nat) := by
  have hF' : (0 : ℝ) < F := by exact_mod_cast hF
  have hscaled : |(f : ℝ) - F * y| ≤ 8 := by
    rwa [div_sub' hF'.ne', abs_div, abs_of_pos hF', div_le_div_iff_of_pos_right hF'] at herror
  have hspread : |(A : ℝ) * (f - F * y)| ≤ A * 8 := by
    rw [abs_mul, Nat.abs_cast]
    exact mul_le_mul_of_nonneg_left hscaled (Nat.cast_nonneg A)
  obtain ⟨hbelow, habove⟩ := abs_le.mp hspread
  have hdiv := Nat.div_add_mod (2 * A * f + F) (2 * F)
  generalize (2 * A * f + F) % (2 * F) = r at *
  generalize (2 * A * f + F) / (2 * F) = q at *
  rify at hdiv hlow hhigh
  rw [IsRound, if_pos (by positivity), eq_comm, Int.floor_eq_iff]
  constructor <;> push_cast <;> nlinarith

/-! ### The sine table -/

/-- The error of the fixed-point sine (`quarter_angle_error`) carries no entry over a half-integer: the remainder that `quarterSine`
drops is clear of both ends. -/
def RoundsSafely (N A i : Nat) : Prop :=
  16 * A ≤ (2 * A * fixSin (fixPi * 2 * i / N) + fixOne) % (2 * fixOne) ∧
    (2 * A * fixSin (fixPi * 2 * i / N) + fixOne) % (2 * fixOne) + 16 * A < 2 * fixOne

/-- The real sine is not negative in the first quadrant. -/
theorem sin_firstQuadrant_nonneg {N i : Nat} (hN : 0 < N) (hi : 4 * i ≤ N) : 0 ≤ Real.sin (2 * Real.pi * i / N) := by
  have hN' : (0 : ℝ) < N := by exact_mod_cast hN
  have hi' : (4 : ℝ) * i ≤ N := by exact_mod_cast hi
  refine Real.sin_nonneg_of_nonneg_of_le_pi (by positivity) ?_
  rw [div_le_iff₀ hN']
  nlinarith [Real.pi_pos]

/-- A safe entry of the first quadrant is the rounded real value. -/
theorem isRound_quarterSine {N A i : Nat} (hN : 0 < N) (hi : 4 * i ≤ N) (hsafe : RoundsSafely N A i) :
    IsRound (A * Real.sin (2 * Real.pi * i / N)) (quarterSine N A i) :=
  isRound_of_fixedPoint_error (by decide) (sin_firstQuadrant_nonneg hN hi) (quarter_angle_error hN hi) hsafe.1 hsafe.2

/-- Every entry is the rounded real value when the first quadrant is safe: the other quadrants mirror it. -/
theorem isRound_sineEntry {N A i : Nat} (hN : 4 ∣ N) (hsafe : ∀ j, 4 * j ≤ N → RoundsSafely N A j) (hi : i < N) :
    IsRound (A * Real.sin (2 * Real.pi * i / N)) (sineEntry N A i) := by
  have hpos : 0 < N := Nat.zero_lt_of_lt hi
  have hquarter : ∀ j, 4 * j ≤ N → IsRound (A * Real.sin (2 * Real.pi * j / N)) (quarterSine N A j) :=
    fun j hj => isRound_quarterSine hpos hj (hsafe j hj)
  obtain ⟨k, rfl⟩ := hN
  have hk : (k : ℝ) ≠ 0 := by
    norm_cast
    omega
  rw [sineEntry, show 4 * k / 2 = 2 * k by omega]
  split_ifs with hfirst hsecond hthird
  case pos => exact hquarter i (by omega)
  case pos =>
    have hmirror : 2 * Real.pi * (2 * k - i : Nat) / (4 * k : Nat) = Real.pi - 2 * Real.pi * i / (4 * k : Nat) := by
      rw [Nat.cast_sub (by omega)]
      push_cast
      field_simp
      ring
    have := hquarter (2 * k - i) (by omega)
    rwa [hmirror, Real.sin_pi_sub] at this
  case pos =>
    have hmirror : 2 * Real.pi * (i - 2 * k : Nat) / (4 * k : Nat) = 2 * Real.pi * i / (4 * k : Nat) - Real.pi := by
      rw [Nat.cast_sub (by omega)]
      push_cast
      field_simp
      ring
    have := isRound_neg (hquarter (i - 2 * k) (by omega))
    rwa [hmirror, Real.sin_sub_pi, mul_neg, neg_neg] at this
  case neg =>
    have hmirror : 2 * Real.pi * (4 * k - i : Nat) / (4 * k : Nat) = 2 * Real.pi - 2 * Real.pi * i / (4 * k : Nat) := by
      rw [Nat.cast_sub (by omega)]
      push_cast
      field_simp
    have := isRound_neg (hquarter (4 * k - i) (by omega))
    rwa [hmirror, Real.sin_two_pi_sub, mul_neg, neg_neg] at this

/-! ### The tremolo envelope -/

/-- The sine of the modulation is safe to round: 32 entries a cycle, amplitude 64. -/
theorem roundsSafely_modulation : ∀ j, 4 * j ≤ 32 → RoundsSafely 32 64 j := by
  have hall : ∀ j < 9, RoundsSafely 32 64 j := by
    unfold RoundsSafely
    decide +kernel
  exact fun j hj => hall j (by omega)

/-- The phase of the modulation at step `m` of the plateau is that of step `m % 32`, whole turns apart. -/
theorem sin_modulation_eq (m : Nat) :
    Real.sin (2 * Real.pi * 5 * m / 160) = Real.sin (2 * Real.pi * (m % 32 : Nat) / (32 : Nat)) := by
  have hturns : 2 * Real.pi * 5 * m / 160 = 2 * Real.pi * (m % 32 : Nat) / (32 : Nat) + (m / 32 : Nat) * (2 * Real.pi) := by
    have hm : (m : ℝ) = (m % 32 : Nat) + 32 * (m / 32 : Nat) := by exact_mod_cast (Nat.mod_add_div m 32).symm
    rw [hm]
    push_cast
    ring
  rw [hturns, Real.sin_add_nat_mul_two_pi]

/-- Settles O54: the plateau is a rounded sine entry (`isRound_sineEntry`), the segments around it are truncated powers
(`isTrunc_truncExp`). -/
theorem tremoloIsTheRoundedModulation : Obligations.TremoloIsTheRoundedModulation := by
  intro i hi
  refine ⟨fun hattack => ?_, fun hlow hhigh => ?_, fun hdecay => ?_⟩
  · rw [envEntry_tremolo_attack hattack]
    exact isTrunc_truncExp (by push_cast; ring) (by decide) (by omega)
  · obtain ⟨m, rfl⟩ := Nat.exists_eq_add_of_le hlow
    refine ⟨sineEntry 32 64 (m % 32), ?_, envEntry_tremolo_plateau (by omega)⟩
    have hphase : ((48 + m : Nat) : ℝ) - 48 = m := by push_cast; ring
    rw [hphase, sin_modulation_eq]
    exact isRound_sineEntry (by decide) roundsSafely_modulation (Nat.mod_lt m (by decide))
  · rw [envEntry_tremolo_decay hdecay]
    exact isTrunc_truncExp (by rw [Nat.cast_mul, Nat.cast_sub hi.le]; norm_num) (by decide) (by omega)

end Sys2Proof.Machine
end

section
/-! SUPPORT. The tone generator (41_tone_generator.md): the contribution of a playing generator over the real numbers, the envelope
step at a sub-rate tick, and a bank in which a muted generator is exchanged for another muted one. -/

namespace Sys2Proof.Machine

open Sys2Proof.Machine.Claims

/-! ### The contribution (R171, R172) -/

/-- Integer division that rounds toward zero truncates the real quotient. -/
theorem isTrunc_tdiv (a : Int) {n : Nat} (hn : 0 < n) : IsTrunc ((a : ℝ) / n) (a.tdiv n) := by
  have hn' : (0 : ℝ) < n := by exact_mod_cast hn
  unfold IsTrunc
  obtain ha | ha := le_or_gt 0 a
  · have hx : (0 : ℝ) ≤ a / n := div_nonneg (by exact_mod_cast ha) hn'.le
    rw [if_pos hx, Int.floor_div_natCast, Int.floor_intCast, Int.tdiv_eq_ediv_of_nonneg ha]
  · have hx : (a : ℝ) / n < 0 := div_neg_of_neg_of_pos (by exact_mod_cast ha) hn'
    rw [if_neg hx.not_ge, ← neg_inj, ← Int.floor_neg, ← neg_div, ← Int.cast_neg, Int.floor_div_natCast, Int.floor_intCast,
      ← Int.neg_tdiv, Int.tdiv_eq_ediv_of_nonneg (by omega)]

/-- The top bits of PHASE as a shift. -/
theorem waveIndex_eq_shift (p : Params) (phase : Word) : waveIndex p phase = (phase >>> (32 - p.waveIdxBits)).toNat := by
  rw [BitVec.toNat_ushiftRight, Nat.shiftRight_eq_div_pow, waveIndex]

/-- The waveform index is an index of the table. -/
theorem waveIndex_lt {p : Params} (hbits : p.waveIdxBits ≤ 32) (phase : Word) : waveIndex p phase < p.waveLen := by
  rw [waveIndex, Params.waveLen, Nat.div_lt_iff_lt_mul (by positivity), ← pow_add, Nat.add_sub_cancel' hbits]
  exact phase.isLt

/-- Settles O20: the contribution divides the exact product, and that division truncates the real quotient (`isTrunc_tdiv`). -/
theorem contributionIsTheTruncatedQuotient : Obligations.ContributionIsTheTruncatedQuotient := by
  intro p tick G w hlegal hplay hL hR
  obtain ⟨⟨-, hbits⟩, -⟩ := hlegal
  have hpos : ∀ d : Half, d ≠ 0 → 0 < d.toNat := fun d hd => Nat.pos_of_ne_zero fun h => hd (BitVec.eq_of_toNat_eq h)
  rw [oscStep_playing hplay]
  exact ⟨waveIndex p G.phase, G.product p w, waveIndex_eq_shift p G.phase, waveIndex_lt (by omega) G.phase, rfl,
    isTrunc_tdiv _ (hpos _ hL), isTrunc_tdiv _ (hpos _ hR)⟩

/-! ### The envelope step (R176) -/

/-- The envelope step of a generator with headroom: the test on exact integers. -/
theorem envelopeStep_of_headroom {G : Generator} (h : (G.vol.toNat : Int) < 0xFFFF - G.volDelta.toNat) :
    G.envelopeStep = { G with vol := G.vol + G.volDelta, envAmp := envelopeAmplitude G.env (G.vol + G.volDelta) } :=
  if_pos (decide_eq_true h)

/-- The envelope step of a generator without headroom. -/
theorem envelopeStep_of_no_headroom {G : Generator} (h : ¬ (G.vol.toNat : Int) < 0xFFFF - G.volDelta.toNat) :
    G.envelopeStep = G.silence :=
  if_neg fun hroom => h (of_decide_eq_true hroom)

/-- ENV_AMP as a signed value is the envelope entry: no entry reaches the sign bit. -/
theorem envelopeAmplitude_toInt (e : Envelope) (vol : Half) :
    (envelopeAmplitude e vol).toInt = envEntry e (vol.toNat / 256) := by
  have hle := envelopeAmplitude_le e vol
  rw [BitVec.toInt_eq_toNat_of_lt (by omega), envelopeAmplitude_toNat, envelopePosition]

/-- Settles O22: at a tick the generator of a plain sample also takes its envelope step, which reads the VOL and VOL_DELTA that the
phase advance leaves alone. With headroom the sum stays below 2^16, so the stored VOL is exact. -/
theorem envelopeStepFollowsTheHeadroomTest : Obligations.EnvelopeStepFollowsTheHeadroomTest := by
  refine ⟨fun p G hmuted => by rw [oscStep_muted hmuted], fun p G w hplay => ?_⟩
  have htick : (oscStep p true G).2 = G.advancePhase.envelopeStep := by rw [oscStep_playing hplay, if_pos rfl]
  have hplain : (oscStep p false G).2 = G.advancePhase := by rw [oscStep_playing hplay, if_neg Bool.false_ne_true]
  rw [htick, hplain]
  refine ⟨by rw [oscStep_playing hplay, oscStep_playing hplay], ⟨rfl, rfl, rfl⟩, fun hroom => ?_, fun hfull => ?_⟩
  · have hsum : (G.vol + G.volDelta).toNat = G.vol.toNat + G.volDelta.toNat := by
      rw [BitVec.toNat_add]
      omega
    rw [envelopeStep_of_headroom (G := G.advancePhase) hroom]
    refine ⟨hsum, by omega, ?_, rfl⟩
    rw [← hsum]
    exact envelopeAmplitude_toInt G.env (G.vol + G.volDelta)
  · exact envelopeStep_of_no_headroom (G := G.advancePhase) hfull

/-! ### Exchanging a muted generator (R175) -/

/-- Exchanging an element for one with the same image does not change the mapped list. -/
theorem map_set_of_same_image {α β : Type} {f : α → β} {l : List α} {g : Nat} {a b : α} (ha : l[g]? = some a) (hab : f b = f a) :
    (l.set g b).map f = l.map f := by
  obtain ⟨hg, rfl⟩ := List.getElem?_eq_some_iff.mp ha
  rw [List.map_set, hab, ← List.getElem_map f (h := by simpa using hg), List.set_getElem_self]

/-- Exchange generator g. -/
def State.setGen (s : State) (g : Nat) (H : Generator) : State := { s with gens := s.gens.set g H }

/-- Exchange generator g of the mixer. -/
def Mixer.setGen (m : Mixer) (g : Nat) (H : Generator) : Mixer := { m with gens := m.gens.set g H }

@[simp] theorem State.setGen_params (s : State) (g : Nat) (H : Generator) : (s.setGen g H).params = s.params := rfl

@[simp] theorem State.setGen_gens (s : State) (g : Nat) (H : Generator) : (s.setGen g H).gens = s.gens.set g H := rfl

@[simp] theorem State.setGen_mixer (s : State) (g : Nat) (H : Generator) : (s.setGen g H).mixer = s.mixer.setGen g H := rfl

theorem State.raise_setGen (s : State) (g : Nat) (H : Generator) (c : FaultCode) (i : Word) :
    (s.setGen g H).raise c i = (s.raise c i).setGen g H := by
  cases h : s.faultRec <;> simp [State.raise, State.setGen, h]

@[simp] theorem Mixer.setGen_gens (m : Mixer) (g : Nat) (H : Generator) : (m.setGen g H).gens = m.gens.set g H := rfl

@[simp] theorem Mixer.setGen_subcnt (m : Mixer) (g : Nat) (H : Generator) : (m.setGen g H).subcnt = m.subcnt := rfl

/-- What the effect adds does not depend on the generators. -/
theorem State.effectValue_setGen (s : State) (g : Nat) (H : Generator) (m : Mixer) :
    (s.setGen g H).effectValue (m.setGen g H) = s.effectValue m := by
  unfold State.effectValue State.fxSample
  rw [State.memRead_congr (s := s) (t := s.setGen g H) fun _ _ => rfl]
  rfl

section
variable {s : State} {m : Mixer} {g : Nat} {G H : Generator}

/-- A muted generator is in the mixer as it was after a sample. -/
theorem State.mixNext_keeps_muted (hg : m.gens[g]? = some G) (hG : G.voice = .muted) : (s.mixNext m).gens[g]? = some G := by
  rw [State.mixNext, List.getElem?_map, hg, Option.map_some, oscStep_muted hG]

/-- A muted generator is in the mixer as it was after n samples. -/
theorem State.mixerAt_keeps_muted (hg : m.gens[g]? = some G) (hG : G.voice = .muted) (n : Nat) :
    (s.mixerAt m n).gens[g]? = some G := by
  induction n with
  | zero => exact hg
  | succ n ih => exact mixNext_keeps_muted ih hG

/-- Exchanging a generator for a muted one and then mixing a sample is mixing the sample and then exchanging. -/
theorem State.mixNext_setGen (hH : H.voice = .muted) : (s.setGen g H).mixNext (m.setGen g H) = (s.mixNext m).setGen g H := by
  rw [State.mixNext, Mixer.setGen_gens, List.map_set, oscStep_muted hH]
  rfl

/-- Two muted generators contribute the same to the sums of a sample. -/
theorem State.mixSums_setGen (hg : m.gens[g]? = some G) (hG : G.voice = .muted) (hH : H.voice = .muted) :
    (s.setGen g H).mixSums (m.setGen g H) = s.mixSums m := by
  have hparts : ((m.gens.set g H).map fun K => (oscStep s.params (isTick m.subcnt) K).1) =
      m.gens.map fun K => (oscStep s.params (isTick m.subcnt) K).1 :=
    map_set_of_same_image hg (by rw [oscStep_muted hG, oscStep_muted hH])
  simp only [State.mixSums, setGen_params, Mixer.setGen_gens, Mixer.setGen_subcnt, hparts, effectValue_setGen]

/-- n samples with one muted generator in the place of another give the same bytes. -/
theorem State.renderSamples_setGen (hg : m.gens[g]? = some G) (hG : G.voice = .muted) (hH : H.voice = .muted) (n : Nat) :
    (s.setGen g H).renderSamples n (m.setGen g H) = ((s.renderSamples n m).1, (s.renderSamples n m).2.setGen g H) := by
  induction n generalizing m with
  | zero => rfl
  | succ n ih => simp only [renderSamples, mixNext_setGen hH, ih (mixNext_keeps_muted hg hG), mixSums_setGen hg hG hH]

/-- The check for zero divisors passes over muted generators, whatever their divisors. -/
theorem findIdx?_wouldDivideByZero_set {gens : List Generator} (hg : gens[g]? = some G) (hG : G.voice = .muted)
    (hH : H.voice = .muted) : (gens.set g H).findIdx? Generator.wouldDivideByZero = gens.findIdx? Generator.wouldDivideByZero := by
  have hcheck : (gens.set g H).map Generator.wouldDivideByZero = gens.map Generator.wouldDivideByZero :=
    map_set_of_same_image hg (by simp [Generator.wouldDivideByZero, hG, hH])
  rw [← Function.id_comp Generator.wouldDivideByZero, ← List.findIdx?_map, ← List.findIdx?_map, hcheck]

/-- RENDER_AUDIO does not notice the exchange of a muted generator for a muted one, and leaves both as they were. -/
theorem exec_renderAudio_setGen {t : State} (hg : s.gens[g]? = some G) (hG : G.voice = .muted) (hH : H.voice = .muted)
    (h : exec .renderAudio s = .next t) :
    t.gens[g]? = some G ∧ exec .renderAudio (s.setGen g H) = .next (t.setGen g H) := by
  simp only [exec, execRenderAudio] at h ⊢
  rw [State.setGen_gens, findIdx?_wouldDivideByZero_set hg hG hH]
  split at h <;> cases h
  case h_1 => exact ⟨by rwa [State.raise_gens], by rw [State.raise_setGen]⟩
  case h_2 =>
    have hlast := s.renderSamples_mixer s.params.frameSamples s.mixer
    have hkeep : (s.mixerAt s.mixer s.params.frameSamples).gens[g]? = some G := State.mixerAt_keeps_muted hg hG _
    refine ⟨by rwa [State.afterRender_gens, hlast], ?_⟩
    rw [State.setGen_params, State.setGen_mixer, State.renderSamples_setGen hg hG hH]
    rfl

end

/-- Settles O21: the exchange of the muted generator carries over from the start of the frame to its end (`exec_renderAudio_setGen`),
and no byte is read from the bank. -/
theorem mutedGeneratorIsSkipped : Obligations.MutedGeneratorIsSkipped := by
  refine ⟨fun p tick G hG => oscStep_muted hG, fun s t u g G H hg hG hH ht hu => ?_⟩
  obtain ⟨hkeep, hset⟩ := exec_renderAudio_setGen hg hG hH ht
  obtain rfl : t.setGen g H = u := Host.Outcome.next.inj (hset.symm.trans hu)
  exact ⟨hkeep, List.getElem?_set_self (List.getElem?_eq_some_iff.mp hkeep).1, State.readByte_congr rfl rfl rfl⟩

end Sys2Proof.Machine
end

section
/-! SUPPORT. RENDER_AUDIO (42_audio_render.md): the check for zero divisors, and the two ways the command ends. -/

namespace Sys2Proof.Machine

open Sys2Proof.Machine.Claims

/-! ### The check for zero divisors (R191) -/

/-- The command's test of a generator is the test that the statements name. -/
theorem wouldDivideByZero_iff (G : Generator) : G.wouldDivideByZero = true ↔ zeroDivisor G := by
  simp [Generator.wouldDivideByZero, zeroDivisor]

/-- The check finds the first generator that would divide by zero. -/
theorem findIdx?_wouldDivideByZero_eq_some {gens : List Generator} {g : Nat} {G : Generator} (hg : gens[g]? = some G)
    (hG : zeroDivisor G) (hlowest : ∀ h H, h < g → gens[h]? = some H → ¬ zeroDivisor H) :
    gens.findIdx? Generator.wouldDivideByZero = some g := by
  obtain ⟨hlt, rfl⟩ := List.getElem?_eq_some_iff.mp hg
  refine List.findIdx?_eq_some_iff_getElem.mpr ⟨hlt, (wouldDivideByZero_iff _).mpr hG, fun h hh hbad => ?_⟩
  exact hlowest h _ hh (List.getElem?_eq_getElem (hh.trans hlt)) ((wouldDivideByZero_iff _).mp hbad)

/-- The check finds nothing in a bank that never divides by zero. -/
theorem findIdx?_wouldDivideByZero_eq_none {gens : List Generator} (hgens : ∀ G ∈ gens, ¬ zeroDivisor G) :
    gens.findIdx? Generator.wouldDivideByZero = none :=
  List.findIdx?_eq_none_iff.mpr fun G hG => Bool.eq_false_iff.mpr (mt (wouldDivideByZero_iff G).mp (hgens G hG))

/-! ### The two ways RENDER_AUDIO ends (R190, R191) -/

/-- RENDER_AUDIO raises DIV_ZERO for the lowest generator that would divide by zero. -/
theorem exec_renderAudio_of_zeroDivisor {s : State} {g : Nat} {G : Generator} (hg : s.gens[g]? = some G) (hG : zeroDivisor G)
    (hlowest : ∀ h H, h < g → s.gens[h]? = some H → ¬ zeroDivisor H) :
    exec .renderAudio s = .next (s.raise .divZero (BitVec.ofNat 32 g)) := by
  rw [exec, execRenderAudio, findIdx?_wouldDivideByZero_eq_some hg hG hlowest]

/-- RENDER_AUDIO renders the frame when no generator would divide by zero. -/
theorem exec_renderAudio_of_no_zeroDivisor {s : State} (hgens : ∀ G ∈ s.gens, ¬ zeroDivisor G) :
    exec .renderAudio s = .next (s.afterRender (s.renderSamples s.params.frameSamples s.mixer).1
      (s.mixerAt s.mixer s.params.frameSamples)) := by
  rw [exec, execRenderAudio, findIdx?_wouldDivideByZero_eq_none hgens, ← State.renderSamples_mixer]

/-- Settles O27: the check decides between the two ways the command ends; a rendered frame touches no fault record and carries a
muted generator from its first sample to its last (`State.mixerAt_keeps_muted`). -/
theorem zeroDivisorRaisesDivZero : Obligations.ZeroDivisorRaisesDivZero := by
  refine fun s hfault => ⟨fun g G hg hG hlowest => ?_, fun hgens => ⟨_, exec_renderAudio_of_no_zeroDivisor hgens, hfault, ?_⟩⟩
  · rw [exec_renderAudio_of_zeroDivisor hg hG hlowest, State.raise_of_none hfault]
  · exact fun g G hg hmuted => State.mixerAt_keeps_muted hg hmuted s.params.frameSamples

end Sys2Proof.Machine
end

section
/-! SUPPORT. COMPOSITE_BG (43_background.md): what a block write leaves unchanged, the bands of the frame buffer, and the pixels of
the composited frame. -/

namespace Sys2Proof.Machine

open Sys2Proof.Machine.Claims

/-! ### What a block write leaves unchanged -/

/-- No register shows the memories. -/
@[simp] theorem State.memWrite_readReg (s : State) (a : Nat) (bs : List Byte) (r : Reg) :
    (s.memWrite a bs).readReg r = s.readReg r := by
  cases r <;> rfl

/-- A block write changes the bytes of its block and nothing else. -/
theorem frame_memWrite {s : State} {a : Nat} {bs : List Byte} {mayByte : Nat → Prop}
    (h : ∀ x, a ≤ x → x < a + bs.length → mayByte x) : Frame s (s.memWrite a bs) noReg mayByte :=
  ⟨fun r _ => s.memWrite_readReg a bs r, fun x hx => State.readByte_memWrite_outside fun ⟨hlow, hhigh⟩ => hx (h x hlow hhigh),
    rfl, rfl, rfl, rfl, rfl⟩

/-! ### Bands (R220, R221) -/

/-- The bands of a legal block fill the frame buffer. -/
theorem nbands_mul_bandHeight {p : Params} (h : p.Legal) : p.nbands * p.bandHeight = p.fbH := by
  obtain ⟨-, -, -, -, -, -, -, -, hdvd, -⟩ := h
  exact Nat.mul_div_cancel' (Nat.dvd_of_mod_eq_zero hdvd)

/-- The rows of a band are rows of the frame buffer. -/
theorem row_lt_of_band {p : Params} (h : p.Legal) {k y : Nat} (hk : k < p.nbands) (hy : y < (k + 1) * p.bandHeight) : y < p.fbH :=
  calc y < (k + 1) * p.bandHeight := hy
    _ ≤ p.nbands * p.bandHeight := Nat.mul_le_mul_right _ hk
    _ = p.fbH := nbands_mul_bandHeight h

/-- The number of a row's band is the quotient by the band height. -/
theorem exists_band_of_row {p : Params} (h : p.Legal) {y : Nat} (hy : y < p.fbH) :
    ∃ k, k < p.nbands ∧ k * p.bandHeight ≤ y ∧ y < (k + 1) * p.bandHeight := by
  rw [← nbands_mul_bandHeight h] at hy
  have hpos : 0 < p.bandHeight := Nat.pos_of_mul_pos_left (Nat.zero_lt_of_lt hy)
  exact ⟨y / p.bandHeight, (Nat.div_lt_iff_lt_mul hpos).mpr hy, Nat.div_mul_le_self _ _, Nat.lt_mul_of_div_lt (Nat.lt_succ_self _) hpos⟩

/-! ### The pixels of the frame (R220, R222) -/

/-- Entry (y, x) of a table of h rows of w entries, listed row by row. -/
theorem getElem?_flatMap_rows {α : Type} (f : Nat → Nat → α) {h w y x : Nat} (hy : y < h) (hx : x < w) :
    ((List.range h).flatMap fun i => (List.range w).map (f i))[y * w + x]? = some (f y x) := by
  induction h with
  | zero => omega
  | succ h ih =>
    have hlength : ((List.range h).flatMap fun i => (List.range w).map (f i)).length = h * w := by simp [List.length_flatMap]
    rw [List.range_succ, List.flatMap_append]
    obtain hy | rfl := Nat.lt_succ_iff_lt_or_eq.mp hy
    · have hlt : y * w + x < h * w := by
        calc y * w + x < (y + 1) * w := by rw [Nat.succ_mul]; omega
          _ ≤ h * w := Nat.mul_le_mul_right _ hy
      rw [List.getElem?_append_left (by rwa [hlength]), ih hy]
    · rw [List.getElem?_append_right (by omega), hlength, Nat.add_sub_cancel_left]
      simp [hx]

/-- The composited frame holds at its offset y * FB_W + x the background pixel of row y at the scrolled column. -/
theorem State.compositedFrame_getElem? {s : State} {y x : Nat} (hy : y < s.params.fbH) (hx : x < s.params.fbW) :
    s.compositedFrame[y * s.params.fbW + x]? = some (s.bg y (scrollColumn s.params s.frameIndex y x)) :=
  getElem?_flatMap_rows _ hy hx

/-- The composited frame, written to FB_RAM, is read back pixel by pixel. -/
theorem State.fb_compositedFrame {s : State} (hl : s.params.Legal) {y x : Nat} (hy : y < s.params.fbH) (hx : x < s.params.fbW) :
    (s.memWrite Region.fbRam.base s.compositedFrame).fb y x = s.bg y (scrollColumn s.params s.frameIndex y x) := by
  obtain ⟨hlt, hpixel⟩ := List.getElem?_eq_some_iff.mp (s.compositedFrame_getElem? hy hx)
  have hrom : romByte s.params (fbAddr s.params y x) = none := romByte_of_ram hl (r := .fbRam) rfl (fbAddr_in_frame hy hx)
  rw [fbAddr, Nat.add_assoc] at hrom
  rw [State.fb, State.memWrite_params, fbAddr, Nat.add_assoc, State.readByte_memWrite_inside hlt hrom, hpixel]

/-- Settles O33: a row of band k has the quotient k, so the pixel written there (`State.fb_compositedFrame`) is scrolled k + 1
times; the frame written is as long as FB_RAM. -/
theorem compositeScrollsEveryBand : Obligations.CompositeScrollsEveryBand := by
  intro s hl
  refine ⟨_, rfl, fun k y x hk hlow hhigh hx => ?_, fun y hy => exists_band_of_row hl hy, frame_memWrite fun x hlow hhigh => ?_⟩
  · have hband : y / s.params.bandHeight = k := Nat.div_eq_of_lt_le hlow hhigh
    rw [State.fb_compositedFrame hl (row_lt_of_band hl hk hhigh) hx, scrollColumn, hband]
    rfl
  · rw [State.compositedFrame_length] at hhigh
    exact ⟨hlow, hhigh⟩

end Sys2Proof.Machine
end

section
/-! SUPPORT. DRAW_OVERLAY (45_overlay.md): the bounds check of the text's box, and the way the command ends when it fails. -/

namespace Sys2Proof.Machine

open Sys2Proof.Machine.Claims

/-- The command's test of the text's box is the test that the statements name (R258). -/
theorem overlay_outOfBounds_iff_textOutside (s : State) : s.ovl.outOfBounds s.params = true ↔ textOutside s := by
  simp only [Overlay.outOfBounds, Bool.and_eq_true, decide_eq_true_eq, Bool.not_eq_true', Bool.and_eq_false_iff,
    decide_eq_false_iff_not, Nat.not_le]
  rfl

/-- DRAW_OVERLAY raises OVERLAY_BOUNDS with info 0, and has no other effect, when the text is outside the frame buffer. -/
theorem exec_drawOverlay_of_textOutside {s : State} (h : textOutside s) :
    exec .drawOverlay s = .next (s.raise .overlayBounds 0) := by
  rw [exec, execDrawOverlay, if_pos ((overlay_outOfBounds_iff_textOutside s).mpr h)]

/-- Settles O36: the check of the text's box comes before any write, and with no earlier fault the raise records this one. -/
theorem textOutsideRaisesOverlayBounds : Obligations.TextOutsideRaisesOverlayBounds := by
  intro s hfault hout
  rw [exec_drawOverlay_of_textOutside hout, State.raise_of_none hfault]

end Sys2Proof.Machine
end

section
/-! SUPPORT. A host write to CMD (46_control.md R280): one equation per case, and the address and busy checks of R285, which come
before it and agree with it. -/

namespace Sys2Proof.Machine

/-! ### The three cases of R280 -/

/-- With a fault recorded a write to CMD is ignored. -/
theorem State.writeCmd_faulted {s : State} {r : FaultRecord} (h : s.faultRec = some r) (w : Word) : s.writeCmd w = s :=
  if_pos (by rw [State.faulted, h]; rfl)

/-- A busy block answers a write to CMD with BUSY_ACCESS; an earlier fault stays the recorded one. -/
theorem State.writeCmd_busy {s : State} {v : Word} (hp : s.pending = some v) (w : Word) :
    s.writeCmd w = s.raise .busyAccess 0x004 := by
  cases hf : s.faultRec with
  | some r => rw [State.writeCmd_faulted hf, State.raise_of_some hf]
  | none => simp [State.writeCmd, State.faulted, State.busy, hf, hp]

/-- An idle block with no fault recorded latches the word, whatever it is. -/
theorem State.writeCmd_idle {s : State} (hf : s.faultRec = none) (hp : s.pending = none) (w : Word) :
    s.writeCmd w = { s with pending := some w } := by
  simp [State.writeCmd, State.faulted, State.busy, hf, hp]

/-! ### The access at 0x004 -/

/-- A busy block refuses every write with a good address (46_control.md R282). -/
theorem State.accessFault_busy_write {s : State} {v : Word} {a : HostAccess} (hp : s.pending = some v) (hw : a.isWrite = true)
    (ha : a.addressError s.params = false) : s.accessFault a = some .busyAccess := by
  simp [State.accessFault, State.busy, HostAccess.allowedWhileBusy, hp, hw, ha]

/-- A performed write at 0x004 is a write to CMD. -/
theorem State.hostWrite_cmd {s : State} (hl : s.params.Legal) (n : Width) (w : Word) : s.hostWrite 0x004 n w = s.writeCmd w := by
  have hcmd : regOfOffset s.params 0x004 = some .cmd := regOfOffset_eq hl
  unfold State.hostWrite
  rw [hcmd]

/-- The host's word write at 0x004 is R280's write to CMD in every state: what the busy check of R285 does before it is what R280
does with BUSY = 1. -/
theorem State.hostAccess_cmdWrite {s : State} (hl : s.params.Legal) (w : Word) :
    s.hostAccess (.write 0x004 .w32 w) = s.writeCmd w := by
  have ha : (HostAccess.write 0x004 .w32 w).addressError s.params = false := addressError_register (r := .cmd) hl rfl rfl
  unfold State.hostAccess
  cases hp : s.pending with
  | some v => rw [State.accessFault_busy_write hp rfl ha, State.writeCmd_busy hp]
  | none =>
    rw [State.accessFault_idle hp ha]
    exact State.hostWrite_cmd hl .w32 w

/-- The step of a block in which the host writes CMD. -/
theorem step_cmdWrite {s : State} {w : Word} {rest : List Event} (hl : s.params.Legal)
    (hi : s.inputs = .access (.write 0x004 .w32 w) :: rest) :
    step s = .next (({ s with inputs := rest } : State).writeCmd w) := by
  rw [step_access hl hi, State.hostAccess_cmdWrite (s := { s with inputs := rest }) hl]

/-- Settles O41: the step is R280's write to CMD (`step_cmdWrite`), which has one equation for each of the three cases. -/
theorem cmdWriteLatchesTheWord : Obligations.CmdWriteLatchesTheWord := by
  intro s rest w hl hi
  rw [step_cmdWrite hl hi]
  refine ⟨fun r hf => ?_, fun v hf hp => ?_, fun hf hp => ?_⟩
  · rw [State.writeCmd_faulted (s := { s with inputs := rest }) hf]
  · rw [State.writeCmd_busy (s := { s with inputs := rest }) hp, State.raise_of_none (s := { s with inputs := rest }) hf]
  · rw [State.writeCmd_idle (s := { s with inputs := rest }) hf hp]

end Sys2Proof.Machine
end

section
/-! SUPPORT. The round trip of the encoding (30_encoding.md R101 to R104), from the lemmas about `decode` and `encode`. -/

namespace Sys2Proof.Machine

/-- Settles O1: decoding is inverse to encoding on the well-formed commands (`decode_encode`). -/
theorem decodeOfEncodeIsTheCommand : Obligations.DecodeOfEncodeIsTheCommand := fun _ hwf => decode_encode hwf

/-- Settles O2: a word decodes only to the command it encodes (`wf_and_encode_of_decode`). -/
theorem encodeOfDecodeIsTheWord : Obligations.EncodeOfDecodeIsTheWord := fun _ _ hdecode => wf_and_encode_of_decode hdecode

/-- Settles O4: the seven words, evaluated. -/
theorem exampleWordsDecode : Obligations.ExampleWordsDecode := by
  unfold Obligations.ExampleWordsDecode
  decide

end Sys2Proof.Machine
end

section
/-! SUPPORT. The mixer of RENDER_AUDIO before sample n in closed form (42_audio_render.md R190, R196, R200): every generator at its
own history, SUBCNT and FX_POS as numbers, and the sums of the sample from them. -/

namespace Sys2Proof.Machine

open Sys2Proof.Machine.Claims

/-! ### SUBCNT -/

/-- SUBCNT before sample n counts the samples modulo 256. -/
theorem State.mixerAt_subcnt_toNat (s : State) (n : Nat) : (s.mixerAt s.mixer n).subcnt.toNat = (s.subcnt.toNat + n) % 256 := by
  induction n with
  | zero => exact (Nat.mod_eq_of_lt s.subcnt.isLt).symm
  | succ n ih =>
    simp only [mixerAt, mixNext, nextSubcnt, ih, subrate, BitVec.toNat_ofNat]
    omega

/-- The mixer's tick is the one of the sample's number. -/
theorem State.isTick_mixerAt (s : State) (n : Nat) : isTick (s.mixerAt s.mixer n).subcnt = tickAt s n := by
  simp [isTick, tickAt, mixerAt_subcnt_toNat, subrate]

/-! ### The bank -/

/-- The bank before sample n holds every generator at its own history. -/
theorem State.mixerAt_gens (s : State) (n : Nat) : (s.mixerAt s.mixer n).gens = s.gens.map fun G => genAt s G n := by
  induction n with
  | zero => exact (List.map_id _).symm
  | succ n ih => simp only [mixerAt, mixNext, isTick_mixerAt, ih, List.map_map, Function.comp_def, genAt]

/-! ### FX_POS -/

/-- FX_POS before sample n of an active effect: one further a sample, and not past FX_LEN. -/
theorem State.mixerAt_fxPos_active {s : State} (h : s.fx.active = true) (n : Nat) :
    (s.mixerAt s.mixer n).fxPos.toNat = max s.fx.pos.toNat (min (s.fx.pos.toNat + n) s.fx.len.toNat) := by
  induction n with
  | zero => simp [mixerAt, mixer]
  | succ n ih =>
    have hlen := s.fx.len.isLt
    simp only [mixerAt, mixNext, effectPlays, effectPlaying, h, Bool.true_and, decide_eq_true_eq]
    split
    · have hone : (1 : Word).toNat = 1 := rfl
      rw [BitVec.toNat_add]
      omega
    · omega

/-- FX_POS stays while no effect is active. -/
theorem State.mixerAt_fxPos_inactive {s : State} (h : s.fx.active = false) (n : Nat) : (s.mixerAt s.mixer n).fxPos = s.fx.pos := by
  induction n with
  | zero => rfl
  | succ n ih => simpa [mixerAt, mixNext, effectPlays, effectPlaying, h] using ih

/-- What the effect adds at sample n. -/
theorem State.effectValue_mixerAt (s : State) (n : Nat) : s.effectValue (s.mixerAt s.mixer n) = effectAt s n := by
  cases h : s.fx.active with
  | false => simp [effectValue, effectPlays, effectPlaying, effectAt, h]
  | true =>
    have hpos := s.mixerAt_fxPos_active h n
    simp only [effectValue, effectPlays, effectPlaying, effectAt, h, Bool.true_and, decide_eq_true_eq, true_and]
    by_cases hplays : s.fx.pos.toNat + n < s.fx.len.toNat
    · have hexact : (s.mixerAt s.mixer n).fxPos.toNat = s.fx.pos.toNat + n := by omega
      rw [hexact]
    · rw [if_neg (by omega), if_neg hplays]

/-! ### The sums of a sample -/

/-- The sums of sample n: every generator's part, and the effect on the left. -/
theorem State.mixSums_mixerAt (s : State) (n : Nat) :
    s.mixSums (s.mixerAt s.mixer n) =
      ((s.gens.map fun G => (partAt s G n).1).sum + effectAt s n, (s.gens.map fun G => (partAt s G n).2).sum) := by
  simp only [mixSums, mixerAt_gens, isTick_mixerAt, effectValue_mixerAt, List.map_map, Function.comp_def, partAt]

end Sys2Proof.Machine
end

section
/-! SUPPORT. The invariant (Safety.lean): it is kept by each shared update of the state, and so by every command, every host access,
every engine turn and every reset. -/

namespace Sys2Proof.Machine

open Sys2Proof.Machine.Claims

/-! ### The invariant and the shared updates -/

/-- The bank's part of the invariant, generator by generator. -/
theorem State.Inv.gens_ok {s : State} (h : s.Inv) : ∀ G ∈ s.gens, G.Ok := fun G hG => ⟨h.muted_silent G hG, h.amp_range G hG⟩

/-- Recording a fault keeps the invariant. -/
theorem State.Inv.raise {s : State} (h : s.Inv) (c : FaultCode) (i : Word) : (s.raise c i).Inv := by
  rw [State.raise_eq_firstFault]
  exact { h with }

/-- A bank of the same size, of silent muted generators and legal amplitudes, can take the place of the old one. -/
theorem State.Inv.setGens {s : State} (h : s.Inv) {bank : List Generator} (hlength : bank.length = s.gens.length)
    (hok : ∀ G ∈ bank, G.Ok) : ({ s with gens := bank } : State).Inv :=
  { h with
    gens_length := hlength.trans h.gens_length
    muted_silent := fun G hG => (hok G hG).1
    amp_range := fun G hG => (hok G hG).2 }

/-- A change that leaves good generators good keeps the invariant. -/
theorem State.Inv.modifyGen {s : State} (h : s.Inv) (g : Nat) {f : Generator → Generator} (hf : ∀ G, G.Ok → (f G).Ok) :
    (s.modifyGen g f).Inv := by
  refine h.setGens (List.length_modify ..) fun G hG => ?_
  obtain ⟨k, hk⟩ := List.mem_iff_getElem?.mp hG
  rw [List.getElem?_modify] at hk
  obtain ⟨H, hH, rfl⟩ := Option.map_eq_some_iff.mp hk
  have hgood := h.gens_ok H (List.mem_of_getElem? hH)
  split
  · exact hf H hgood
  · exact hgood

/-- A RAM list in canonical form that lists RAM bytes only can take the place of the old one. -/
theorem State.Inv.setMem {s : State} (h : s.Inv) {m : Memory} (hwf : m.wf) (hram : ∀ c ∈ m, inRam s.params c.1) :
    ({ s with mem := m } : State).Inv := { h with mem_wf := hwf, mem_ram := hram }

/-- A block write inside RAM keeps the invariant. -/
theorem State.Inv.memWrite {s : State} (h : s.Inv) {a : Nat} {bs : List Byte}
    (hin : ∀ x, a ≤ x → x < a + bs.length → inRam s.params x) : (s.memWrite a bs).Inv :=
  h.setMem (Memory.write_wf h.mem_wf a bs) fun c hc =>
    (Memory.mem_write hc).elim (h.mem_ram c) fun ⟨hlow, hhigh⟩ => hin c.1 hlow hhigh

/-- Single-byte writes inside RAM keep the invariant. -/
theorem State.Inv.writeCells {s : State} (h : s.Inv) {ws : List Host.Cell} (hin : ∀ w ∈ ws, inRam s.params w.1) :
    (s.writeCells ws).Inv :=
  h.setMem (Memory.writeCells_wf h.mem_wf ws) fun c hc =>
    (Memory.mem_writeCells hc).elim (h.mem_ram c) fun ⟨w, hw, hcw⟩ => hcw ▸ hin w hw

/-! ### Commands -/

/-- A generator stays silent while muted, and its amplitude legal, over n samples. -/
theorem genAt_ok (s : State) {G : Generator} (h : G.Ok) (n : Nat) : (genAt s G n).Ok := by
  induction n with
  | zero => exact h
  | succ n ih => exact ih.oscStep s.params _

/-- A rendered frame keeps the invariant. -/
theorem State.Inv.afterRender {s : State} (h : s.Inv) {bytes : List Byte} (hbytes : bytes.length = 4 * s.params.frameSamples)
    (n : Nat) : (s.afterRender bytes (s.mixerAt s.mixer n)).Inv := by
  have hmem : ∀ x, Region.audRam.base ≤ x → x < Region.audRam.base + bytes.length → inRam s.params x :=
    fun x hlow hhigh => ⟨.audRam, rfl, hlow, by rwa [hbytes] at hhigh⟩
  have hbank : ∀ G ∈ (s.mixerAt s.mixer n).gens, G.Ok := by
    rw [State.mixerAt_gens, List.forall_mem_map]
    exact fun G hG => genAt_ok s (h.gens_ok G hG) n
  have hlength : (s.mixerAt s.mixer n).gens.length = s.gens.length := by rw [State.mixerAt_gens, List.length_map]
  have hpos : s.fx.active = false → (s.mixerAt s.mixer n).fxPos = 0 := fun hidle =>
    (State.mixerAt_fxPos_inactive hidle n).trans (h.fx_idle hidle)
  exact { (h.memWrite hmem).setGens hlength hbank with
    fx_len := h.fx_len
    fx_idle := hpos }

/-- Every command keeps the invariant. -/
theorem State.Inv.exec {i : Instr} {s t : State} (h : s.Inv) (he : exec i s = .next t) : t.Inv := by
  obtain ⟨c, f, rfl⟩ | ⟨-, rfl⟩ | ⟨g, -, -, w, en, -, -, -, -, rfl⟩ | ⟨g, -, -, rfl⟩ | ⟨-, rfl⟩ | ⟨-, -, rfl⟩ | ⟨-, rfl⟩ |
    ⟨-, hin, rfl⟩ | ⟨-, hin, rfl⟩ := exec_cases he
  · exact h.raise c f
  · exact h
  · exact h.modifyGen g fun G _ => G.keyOn_ok w en
  · exact h.modifyGen g fun G _ => G.silence_ok
  · exact { h with fx_idle := nofun }
  · exact h.afterRender (State.renderSamples_length ..) _
  · refine h.memWrite fun x hlow hhigh => ⟨.fbRam, rfl, hlow, ?_⟩
    rwa [State.compositedFrame_length] at hhigh
  · exact h.writeCells fun w hw => ⟨.fbRam, rfl, sprites_in_frame hin hw⟩
  · exact h.writeCells fun w hw => ⟨.fbRam, rfl, text_in_frame hin hw⟩

/-! ### Host accesses and reset -/

/-- The stored FX_LEN is legal. -/
theorem legalFxLen_le (p : Params) (v : Word) : (legalFxLen p v).toNat ≤ p.fxCap := by
  rw [legalFxLen_toNat]
  exact Nat.min_le_right ..

/-- The smaller of a written field and TEXT_MAX fits the field. -/
theorem legalTextLen_toNat (v : BitVec 5) : (legalTextLen v).toNat = min v.toNat textMax :=
  (BitVec.toNat_ofNat _ _).trans <| Nat.mod_eq_of_lt ((Nat.min_le_left _ _).trans_lt v.isLt)

/-- The stored TEXT_LEN is legal. -/
theorem legalTextLen_le (v : BitVec 5) : (legalTextLen v).toNat ≤ textMax := by
  rw [legalTextLen_toNat]
  exact Nat.min_le_right ..

/-- A host write to a generator's register leaves VOICE and ENV_AMP alone. -/
theorem Generator.Ok.write {G : Generator} (h : G.Ok) (v : Word) (q : GenReg) : (G.write v q).Ok := by cases q <;> exact h

/-- Every register write keeps the invariant. -/
theorem State.Inv.writeReg {s : State} (h : s.Inv) (v : Word) (r : Reg) : (s.writeReg v r).Inv := by
  cases r with
  | gen g q => exact h.modifyGen g fun G hG => hG.write v q
  | spr i q => exact { h with sprites_length := (List.length_modify ..).trans h.sprites_length }
  | fxLen => exact { h with fx_len := legalFxLen_le s.params v }
  | ovlCtrl => exact { h with text_len := legalTextLen_le _ }
  | _ => exact { h with }

/-- Every host access keeps the invariant. -/
theorem State.Inv.hostAccess {s : State} (h : s.Inv) (a : HostAccess) : (s.hostAccess a).Inv := by
  obtain ⟨c, off, n, -, -, e⟩ | ⟨c, off, n, v, -, -, e⟩ | ⟨off, n, -, -, e⟩ | ⟨off, n, v, -, -, -, e⟩ |
    ⟨off, n, v, r, -, -, -, -, e⟩ | ⟨off, n, v, hfault, rfl, hreg, e⟩ := hostAccess_cases s a <;> rw [e]
  · exact { h.raise c off with }
  · exact h.raise c off
  · exact { h with }
  · obtain e | e | ⟨-, -, e⟩ := writeCmd_cases s v <;> rw [e]
    · exact h
    · exact h.raise _ _
    · exact { h with }
  · exact h.writeReg v r
  · refine h.memWrite fun x hlow hhigh => ?_
    rw [bytesLE_length] at hhigh
    have hin := accessFault_none_write h.legal hfault hreg (x - off.toNat) (by omega)
    rwa [Nat.add_sub_cancel' hlow] at hin

/-- Settles O7: the reset values, read off the state after reset. -/
theorem resetMeetsTheInvariant : Obligations.ResetMeetsTheInvariant := fun p epoch hl =>
  { legal := hl
    gens_length := List.length_replicate
    sprites_length := List.length_replicate
    muted_silent := fun G hG _ => by rw [List.eq_of_mem_replicate hG]; rfl
    amp_range := fun G hG => by rw [List.eq_of_mem_replicate hG]; decide
    fx_len := Nat.zero_le _
    fx_idle := fun _ => rfl
    text_len := Nat.zero_le _
    mem_wf := List.Pairwise.nil
    mem_ram := nofun }

/-- The platform's reset leaves a state with the invariant. -/
theorem State.platformReset_inv {s : State} (hl : s.params.Legal) : s.platformReset.Inv :=
  { resetMeetsTheInvariant s.params (s.ramEpoch + 1) hl with }

/-! ### Steps -/

/-- The engine's turn keeps the invariant. -/
theorem State.Inv.engineTurn {s t : State} (h : s.Inv) (he : s.engineTurn = .next t) : t.Inv := by
  obtain ⟨-, rfl⟩ | ⟨w, f, -, -, rfl⟩ | ⟨w, e, -, -, -, rfl⟩ | ⟨w, i, u, -, -, -, hexec, rfl⟩ := engineTurn_cases he
  · exact h
  · exact { h with }
  · exact { h.raise .illegalCmd w with }
  · exact { h.exec hexec with }

/-- Settles O8: a step is a host access, a reset or the engine's turn (`step_cases`), and each of these keeps the invariant. -/
theorem everyStepKeepsTheInvariant : Obligations.EveryStepKeepsTheInvariant := by
  intro s t h hstep
  obtain ⟨hl, ⟨a, rest, -, rfl⟩ | ⟨rest, -, rfl⟩ | ⟨rest, -, hturn⟩⟩ := step_cases hstep
  · exact State.Inv.hostAccess (s := { s with inputs := rest }) { h with } a
  · exact State.platformReset_inv (s := { s with inputs := rest }) hl
  · exact State.Inv.engineTurn (s := { s with inputs := rest }) { h with } hturn

end Sys2Proof.Machine
end

section
/-! SUPPORT. Register fields as numbers, the values of the CFG registers (10_state.md R22), and the registers after reset (R43). -/

namespace Sys2Proof.Machine

open Sys2Proof.Machine.Claims

/-! ### Fields of a register -/

/-- Two fields side by side as a number: the low one, and the high one above it. -/
theorem toNat_append_eq {m n : Nat} (hi : BitVec m) (lo : BitVec n) : (hi ++ lo).toNat = lo.toNat + 2 ^ n * hi.toNat := by
  rw [BitVec.toNat_append, ← Nat.shiftLeft_add_eq_or_of_lt lo.isLt, Nat.shiftLeft_eq, Nat.mul_comm, Nat.add_comm]

/-- A register of two 16-bit fields as a number. -/
theorem pack16_toNat (hi lo : Half) : (pack16 hi lo).toNat = lo.toNat + 2 ^ 16 * hi.toNat := toNat_append_eq hi lo

/-- Two numbers in 16-bit fields: a low one that fits, and a high one modulo 2^16 (notes/assumptions/9.md). -/
theorem pack16_ofNat {lo : Nat} (hlo : lo ≤ 65535) (hi : Nat) :
    pack16 (BitVec.ofNat 16 hi) (BitVec.ofNat 16 lo) = BitVec.ofNat 32 (lo + 2 ^ 16 * hi) := by
  apply BitVec.eq_of_toNat_eq
  simp only [pack16_toNat, BitVec.toNat_ofNat]
  omega

/-- GEN_CTRL as a number: the code of ENV above the code of VOICE (10_state.md R30). -/
theorem Generator.read_genCtrl_toNat (G : Generator) : (G.read .genCtrl).toNat = 256 * G.env.code.toNat + G.voice.code.toNat := by
  simp only [Generator.read, toNat_append_eq, BitVec.toNat_ofNat]
  omega

/-- CFG_COUNTS as a number. -/
theorem State.cfgCounts_eq {s : State} (hl : s.params.Legal) :
    s.readReg .cfgCounts =
      BitVec.ofNat 32 (s.params.ngen + 2 ^ 8 * s.params.nspr + 2 ^ 16 * s.params.nbands + 2 ^ 24 * 16) := by
  obtain ⟨-, -, ⟨-, hgen⟩, ⟨-, hspr⟩, ⟨-, hbands⟩, -⟩ := hl
  apply BitVec.eq_of_toNat_eq
  simp only [State.readReg, toNat_append_eq, BitVec.toNat_ofNat, textMax]
  omega

/-! ### CFG registers and reset values -/

/-- ID and the CFG registers. -/
def isConfig (r : Reg) : Prop :=
  r = .id ∨ r = .cfgFrameSamples ∨ r = .cfgFb ∨ r = .cfgBg ∨ r = .cfgCounts ∨ r = .cfgFxCap ∨ r = .cfgTileCap ∨ r = .cfgTables

/-- ID and the CFG registers of a legal block show the parameters in every state. -/
theorem State.readReg_config {s : State} (hl : s.params.Legal) {r : Reg} (hr : isConfig r) :
    s.readReg r = resetValue s.params r := by
  have hwave := hl.waveLen_le
  have hcounts := State.cfgCounts_eq hl
  obtain ⟨-, -, -, -, -, -, -, ⟨-, hfb⟩, -, -, ⟨-, hbg⟩, -⟩ := hl
  obtain rfl | rfl | rfl | rfl | rfl | rfl | rfl | rfl := hr
  case inl | inr.inl => rfl
  case inr.inr.inl => exact pack16_ofNat hfb _
  case inr.inr.inr.inl => exact pack16_ofNat hbg _
  case inr.inr.inr.inr.inl => exact hcounts
  case inr.inr.inr.inr.inr.inl | inr.inr.inr.inr.inr.inr.inl => rfl
  case inr.inr.inr.inr.inr.inr.inr => exact pack16_ofNat (by omega) _

/-- A generator's register after reset. -/
theorem Generator.reset_read (p : Params) (g : Nat) (q : GenReg) : Generator.reset.read q = resetValue p (.gen g q) := by
  cases q <;> rfl

/-- A sprite's register after reset. -/
theorem Sprite.reset_read (q : SprReg) : Sprite.reset.read q = 0 := by cases q <;> rfl

/-- A mapped register after reset holds its reset value. -/
theorem State.resetWith_readReg {p : Params} (hl : p.Legal) (epoch : Nat) {off : Nat} {r : Reg} (hr : regAt p off = some r) :
    (State.resetWith p epoch).readReg r = resetValue p r := by
  obtain hglobal | ⟨g, q, -, rfl, hg, -, -⟩ | ⟨i, q, -, rfl, hi, -, -⟩ := regAt_cases hr
  · have hconfig : isConfig r → (State.resetWith p epoch).readReg r = resetValue p r :=
      State.readReg_config (s := State.resetWith p epoch) hl
    cases r with
    | gen g q => simp [globalMap] at hglobal
    | spr i q => simp [globalMap] at hglobal
    | cfgFb | cfgBg | cfgCounts | cfgTables => exact hconfig (by simp [isConfig])
    | status | subcnt | fxCtrl | ovlPos | ovlCtrl =>
      simp only [State.readReg, State.status, State.faultCode, State.faulted, State.busy, State.resetWith, resetValue]
      decide
    | _ => rfl
  · have hgen : (State.resetWith p epoch).gens[g]? = some Generator.reset := by simp [State.resetWith, hg]
    rw [State.readReg, hgen]
    exact Generator.reset_read p g q
  · have hspr : (State.resetWith p epoch).sprites[i]? = some Sprite.reset := by simp [State.resetWith, hi]
    rw [State.readReg, hspr]
    exact Sprite.reset_read q

/-- Settles O6: a mapped register is a global one, one of a generator of the bank, or one of a sprite slot of the table. -/
theorem resetGivesEveryRegisterItsValue : Obligations.ResetGivesEveryRegisterItsValue := fun _ epoch _ _ hl hr =>
  ⟨State.resetWith_readReg hl epoch hr, rfl⟩

end Sys2Proof.Machine
end

section
/-! SUPPORT. The read-only memories: the bytes of the tables and of FONT (20_memory.md R73, R84), which depend on the parameters
alone. -/

namespace Sys2Proof.Machine

open Sys2Proof.Machine.Claims

/-! ### ROM bytes -/

/-- A ROM byte reads as its contents. -/
theorem State.readByte_of_rom {s : State} {a : Nat} {b : Byte} (h : romByte s.params a = some b) : s.readByte a = b := by
  unfold State.readByte
  rw [h]

/-- An index below four names a waveform. -/
theorem Waveform.ofCode_isSome : ∀ {k : Nat}, k < 4 → (Waveform.ofCode k).isSome = true := by decide

/-- An index below six names an envelope. -/
theorem Envelope.ofCode_isSome : ∀ {k : Nat}, k < 6 → (Envelope.ofCode k).isSome = true := by decide

/-- A byte of WAVE_ROM. -/
theorem romByte_waveRom {p : Params} (hl : p.Legal) {a : Nat} (h : Region.waveRom.Holds p a) :
    romByte p a = waveRomByte p (a - Region.waveRom.base) := by
  unfold romByte
  rw [(regionOf_eq_some hl).mpr h]

/-- A byte of ENV_ROM. -/
theorem romByte_envRom {p : Params} (hl : p.Legal) {a : Nat} (h : Region.envRom.Holds p a) :
    romByte p a = envRomByte (a - Region.envRom.base) := by
  unfold romByte
  rw [(regionOf_eq_some hl).mpr h]

/-- A byte of FONT_ROM. -/
theorem romByte_fontRom {p : Params} (hl : p.Legal) {a : Nat} (h : Region.fontRom.Holds p a) :
    romByte p a = some (fontRomByte p (a - Region.fontRom.base)) := by
  unfold romByte
  rw [(regionOf_eq_some hl).mpr h]

/-- Every byte of the read-only memories has contents. -/
theorem romByte_isSome {p : Params} (hl : p.Legal) {a : Nat} (h : romRange p a) : (romByte p a).isSome = true := by
  obtain ⟨r, hrom, hr⟩ := romRange_iff.mp h
  cases r with
  | waveRom =>
    have hhigh : a < Region.waveRom.base + 8 * p.waveLen := hr.2
    have hk : (a - Region.waveRom.base) / 2 / p.waveLen < 4 := by
      rw [Nat.div_div_eq_div_mul, Nat.div_lt_iff_lt_mul (Nat.mul_pos (by decide) p.waveLen_pos)]
      omega
    rw [romByte_waveRom hl hr, waveRomByte, Option.isSome_map]
    exact Waveform.ofCode_isSome hk
  | envRom =>
    rw [romByte_envRom hl hr, envRomByte, Option.isSome_map]
    simp only [Region.Holds, Region.base, Region.size] at hr ⊢
    exact Envelope.ofCode_isSome (by omega)
  | fontRom => rw [romByte_fontRom hl hr, Option.isSome_some]
  | _ => cases hrom

/-- States of the same parameters read the same ROM bytes. -/
theorem State.readByte_rom_congr {s t : State} (hl : s.params.Legal) (hparams : t.params = s.params) {a : Nat}
    (h : romRange s.params a) : t.readByte a = s.readByte a := by
  obtain ⟨b, hb⟩ := Option.isSome_iff_exists.mp (romByte_isSome hl h)
  rw [State.readByte_of_rom hb, State.readByte_of_rom (hparams ▸ hb)]

/-! ### Table entries -/

/-- Two bytes of a table are its entry when they are so one by one. -/
theorem State.memRead_entry {s : State} {a i : Nat} {entry : Int} (h : ∀ j, j < 2 → s.readByte (a + j) = tableByte entry (2 * i + j)) :
    s.memRead a 2 = (wrap16 entry).toNat := by
  refine (State.memRead_of_bytes 2 a (wrap16 entry).toNat fun j hj => ?_).trans (Nat.mod_eq_of_lt (wrap16 entry).isLt)
  rw [h j hj, tableByte, BitVec.toNat_ofNat, show (2 * i + j) % 2 = j by omega]

/-- An entry of the waveform ROM (40_tables.md R130). -/
theorem State.memRead_waveRom {s : State} (hl : s.params.Legal) {k i : Nat} {w : Waveform} (hk : Waveform.ofCode k = some w)
    (hi : i < s.params.waveLen) :
    s.memRead (0x00010000 + 2 * (k * s.params.waveLen + i)) 2 = (wrap16 (waveEntry s.params w i)).toNat := by
  have hk4 : k < 4 := by
    by_contra hbig
    rw [Waveform.ofCode_eq_none (by omega)] at hk
    cases hk
  have hrow : k * s.params.waveLen + i < 4 * s.params.waveLen := by
    calc k * s.params.waveLen + i < (k + 1) * s.params.waveLen := by rw [Nat.succ_mul]; omega
      _ ≤ 4 * s.params.waveLen := Nat.mul_le_mul_right _ hk4
  refine State.memRead_entry (i := k * s.params.waveLen + i) fun j hj => State.readByte_of_rom ?_
  have hregion : Region.waveRom.Holds s.params (0x00010000 + 2 * (k * s.params.waveLen + i) + j) := by
    simp only [Region.Holds, Region.base, Region.size]
    omega
  have hindex : 0x00010000 + 2 * (k * s.params.waveLen + i) + j - Region.waveRom.base = 2 * (k * s.params.waveLen + i) + j := by
    simp only [Region.base]
    omega
  have hdiv : (k * s.params.waveLen + i) / s.params.waveLen = k := Nat.div_eq_of_lt_le (by omega) (by rw [Nat.succ_mul]; omega)
  have hmod : (k * s.params.waveLen + i) % s.params.waveLen = i := by rw [Nat.mul_comm, Nat.mul_add_mod, Nat.mod_eq_of_lt hi]
  rw [romByte_waveRom hl hregion, hindex, waveRomByte, show (2 * (k * s.params.waveLen + i) + j) / 2 = k * s.params.waveLen + i by omega, hdiv, hmod, hk,
    Option.map_some]

/-- An entry of the envelope ROM (40_tables.md R130). -/
theorem State.memRead_envRom {s : State} (hl : s.params.Legal) {k i : Nat} {e : Envelope} (hk : Envelope.ofCode k = some e)
    (hi : i < 256) : s.memRead (0x00020000 + 2 * (k * 256 + i)) 2 = (wrap16 (envEntry e i)).toNat := by
  have hk6 : k < 6 := by
    by_contra hbig
    rw [Envelope.ofCode_eq_none (by omega)] at hk
    cases hk
  refine State.memRead_entry (i := k * 256 + i) fun j hj => State.readByte_of_rom ?_
  have hregion : Region.envRom.Holds s.params (0x00020000 + 2 * (k * 256 + i) + j) := by
    simp only [Region.Holds, Region.base, Region.size]
    omega
  have hindex : 0x00020000 + 2 * (k * 256 + i) + j - Region.envRom.base = 2 * (k * 256 + i) + j := by
    simp only [Region.base]
    omega
  rw [romByte_envRom hl hregion, hindex, envRomByte, show (2 * (k * 256 + i) + j) / 2 / 256 = k by omega, show (2 * (k * 256 + i) + j) / 2 % 256 = i by omega,
    hk, Option.map_some]

/-- A byte of FONT that the parameter lists (92_eei_decisions.md D58). -/
theorem State.font_of_listed {s : State} (hl : s.params.Legal) {c r : Nat} {b : Byte} (hr : r < 16) (hc : c < 256)
    (hb : Memory.lookup s.params.font (16 * c + r) = some b) : s.font c r = b := by
  have hregion : Region.fontRom.Holds s.params (Region.fontRom.base + 16 * c + r) := by
    simp only [Region.Holds, Region.base, Region.size]
    omega
  refine State.readByte_of_rom ?_
  rw [romByte_fontRom hl hregion, Nat.add_assoc, Nat.add_sub_cancel_left, fontRomByte, hb, Option.getD_some]

/-! ### Table entries are 16-bit numbers -/

/-- A number of the 16-bit signed range is stored exactly. -/
theorem wrap16_toInt {v : Int} (hlow : -32768 ≤ v) (hhigh : v < 32768) : (wrap16 v).toInt = v := by
  rw [wrap16, BitVec.toInt_ofInt, Int.bmod_eq_of_le (by omega) (by omega)]

end Sys2Proof.Machine
end

section
/-! SUPPORT. The frame of every command: what each shared update leaves of the registers and the bytes, and from these what a
command leaves (the "state written" lines of its rule). -/

namespace Sys2Proof.Machine

open Sys2Proof.Machine.Claims

/-! ### Frames of the shared updates -/

/-- A frame that names more still holds. -/
theorem frame_mono {s t : State} {p q : Reg → Prop} {b c : Nat → Prop} (h : Frame s t p b) (hreg : ∀ r, p r → q r)
    (hbyte : ∀ a, b a → c a) : Frame s t q c := by
  obtain ⟨hr, hb, hrest⟩ := h
  exact ⟨fun r hq => hr r (mt (hreg r) hq), fun a hc => hb a (mt (hbyte a) hc), hrest⟩

/-- Nothing changes from a state to itself. -/
theorem frame_refl (s : State) (mayReg : Reg → Prop) (mayByte : Nat → Prop) : Frame s s mayReg mayByte :=
  ⟨fun _ _ => rfl, fun _ _ => rfl, rfl, rfl, rfl, rfl, rfl⟩

/-- Recording a fault shows in STATUS and FAULT_INFO only, and only when it is the first. -/
theorem frame_raise (s : State) (c : FaultCode) (i : Word) :
    Frame s (s.raise c i) (fun r => (s.raise c i).faultRec ≠ s.faultRec ∧ (r = .status ∨ r = .faultInfo)) noByte := by
  obtain ⟨hnone, -⟩ | ⟨-, hsame⟩ := s.raise_cases c i
  · have hnew : (s.raise c i).faultRec ≠ s.faultRec := by simp [hnone]
    refine ⟨fun r hr => ?_, fun a _ => State.readByte_congr (by simp) (by simp) (by simp) a, by simp⟩
    exact State.raise_readReg (fun h => hr ⟨hnew, .inl h⟩) fun h => hr ⟨hnew, .inr h⟩
  · rw [hsame]
    exact frame_refl ..

/-- Changing a generator shows in the registers of it that the change moves. -/
theorem frame_modifyGen {s : State} {g : Nat} {f : Generator → Generator} {mayReg : Reg → Prop}
    (h : ∀ q, ¬ mayReg (.gen g q) → ∀ G, (f G).read q = G.read q) : Frame s (s.modifyGen g f) mayReg noByte :=
  ⟨fun _ hr => State.modifyGen_readReg fun q e => h q (e ▸ hr), fun a _ => State.readByte_congr rfl rfl rfl a, rfl, rfl, rfl, rfl, rfl⟩

/-- No register shows the memories. -/
theorem State.writeCells_readReg (s : State) (ws : List Host.Cell) (r : Reg) : (s.writeCells ws).readReg r = s.readReg r := by
  cases r <;> rfl

/-- Single-byte writes change the bytes they name. -/
theorem frame_writeCells (s : State) (ws : List Host.Cell) : Frame s (s.writeCells ws) noReg fun a => ∃ w ∈ ws, w.1 = a :=
  ⟨fun r _ => s.writeCells_readReg ws r,
    fun _ ha => State.readByte_writeCells_outside fun w hw e => ha ⟨w, hw, e⟩, rfl, rfl, rfl, rfl, rfl⟩

/-! ### KEYON, MUTE and TRIGGER_FX (41_tone_generator.md section 1, 42_audio_render.md section 3) -/

/-- The registers of KEYON and MUTE: GEN_CTRL and ENV_AMP of their generator. -/
def keyRegs (g : Nat) (r : Reg) : Prop := r = .gen g .genCtrl ∨ r = .gen g .envAmp

/-- KEYON moves GEN_CTRL and ENV_AMP. -/
theorem frame_keyOn (s : State) (g : Nat) (w : Waveform) (e : Envelope) :
    Frame s (s.modifyGen g fun G => G.keyOn w e) (keyRegs g) noByte := by
  refine frame_modifyGen fun q hq G => ?_
  cases q with
  | genCtrl => exact absurd (.inl rfl) hq
  | envAmp => exact absurd (.inr rfl) hq
  | _ => rfl

/-- MUTE moves GEN_CTRL and ENV_AMP. -/
theorem frame_silence (s : State) (g : Nat) : Frame s (s.modifyGen g Generator.silence) (keyRegs g) noByte := by
  refine frame_modifyGen fun q hq G => ?_
  cases q with
  | genCtrl => exact absurd (.inl rfl) hq
  | envAmp => exact absurd (.inr rfl) hq
  | _ => rfl

/-- TRIGGER_FX moves FX_POS and FX_CTRL. -/
theorem frame_trigger (s : State) : Frame s { s with fx := s.fx.trigger } (fun r => r = .fxPos ∨ r = .fxCtrl) noByte := by
  refine ⟨fun r hr => ?_, fun a _ => State.readByte_congr rfl rfl rfl a, rfl, rfl, rfl, rfl, rfl⟩
  cases r with
  | fxPos => exact absurd (.inl rfl) hr
  | fxCtrl => exact absurd (.inr rfl) hr
  | _ => rfl

/-! ### RENDER_AUDIO (42_audio_render.md sections 1 and 2) -/

/-- No sample moves PHASE_DDELTA, VOL_DELTA, GAIN or ENV. -/
theorem genAt_frame (s : State) (G : Generator) (n : Nat) :
    (genAt s G n).env = G.env ∧ (genAt s G n).phaseDDelta = G.phaseDDelta ∧ (genAt s G n).volDelta = G.volDelta ∧
    (genAt s G n).divL = G.divL ∧ (genAt s G n).divR = G.divR := by
  induction n with
  | zero => exact ⟨rfl, rfl, rfl, rfl, rfl⟩
  | succ n ih =>
    obtain ⟨he, hd, hv, hl, hr⟩ := oscStep_frame s.params (tickAt s n) (genAt s G n)
    obtain ⟨ihe, ihd, ihv, ihl, ihr⟩ := ih
    exact ⟨he.trans ihe, hd.trans ihd, hv.trans ihv, hl.trans ihl, hr.trans ihr⟩

/-- The registers of a generator that samples can move. -/
theorem genAt_read (s : State) (G : Generator) (n : Nat) {q : GenReg} (g : Nat) (hq : ¬ commandRegs .renderAudio (.gen g q)) :
    (genAt s G n).read q = G.read q := by
  obtain ⟨-, hd, hv, hl, hr⟩ := genAt_frame s G n
  cases q with
  | phaseDDelta => exact hd
  | volDelta => rw [Generator.read, hv, Generator.read]
  | gain => rw [Generator.read, hl, hr, Generator.read]
  | _ => exact absurd (by simp [commandRegs]) hq

/-- A frame of n samples leaves every register but those of RENDER_AUDIO. -/
theorem State.afterRender_readReg {s : State} {bytes : List Byte} {n : Nat} {r : Reg} (hr : ¬ commandRegs .renderAudio r) :
    (s.afterRender bytes (s.mixerAt s.mixer n)).readReg r = s.readReg r := by
  cases r with
  | gen g q =>
    simp only [State.readReg, State.afterRender_gens, State.mixerAt_gens, List.getElem?_map]
    cases s.gens[g]? with
    | none => rfl
    | some G => exact genAt_read s G n g hr
  | subcnt => exact absurd (.inl rfl) hr
  | fxPos => exact absurd (.inr (.inl rfl)) hr
  | _ => rfl

/-- A rendered frame changes the registers of RENDER_AUDIO and the bytes it writes. -/
theorem frame_afterRender {s : State} {bytes : List Byte} (hbytes : bytes.length = 4 * s.params.frameSamples) (n : Nat) :
    Frame s (s.afterRender bytes (s.mixerAt s.mixer n)) (commandRegs .renderAudio) (commandBytes s .renderAudio) := by
  refine ⟨fun r hr => State.afterRender_readReg hr, fun a ha => ?_, rfl, rfl, rfl, rfl, rfl⟩
  refine (State.readByte_congr (s := s.memWrite Region.audRam.base bytes) rfl rfl rfl a).trans ?_
  refine State.readByte_memWrite_outside fun hin => ha ?_
  rwa [hbytes] at hin

/-! ### Every command -/

/-- Settles O13: the ways a command can end (`exec_cases`), each with the frame of its update. -/
theorem commandsWriteOnlyWhatTheirRulesName : Obligations.CommandsWriteOnlyWhatTheirRulesName := by
  intro i s t he
  obtain ⟨c, f, rfl⟩ | ⟨-, rfl⟩ | ⟨g, -, -, w, en, rfl, -, -, -, rfl⟩ | ⟨g, rfl, -, rfl⟩ | ⟨rfl, rfl⟩ | ⟨rfl, -, rfl⟩ |
    ⟨rfl, rfl⟩ | ⟨rfl, hin, rfl⟩ | ⟨rfl, hin, rfl⟩ := exec_cases he
  · exact frame_mono (frame_raise s c f) (fun r => .inr) nofun
  · exact frame_refl ..
  · exact frame_mono (frame_keyOn s g w en) (fun r => .inl) nofun
  · exact frame_mono (frame_silence s g) (fun r => .inl) nofun
  · exact frame_mono (frame_trigger s) (fun r => .inl) nofun
  · exact frame_mono (frame_afterRender (State.renderSamples_length ..) _) (fun r => .inl) fun a => id
  · refine frame_memWrite (fun x hlow hhigh => ?_) |> frame_mono (hreg := nofun) (hbyte := fun a => id)
    rw [State.compositedFrame_length] at hhigh
    exact ⟨hlow, hhigh⟩
  · refine frame_mono (frame_writeCells ..) nofun ?_
    rintro a ⟨c, hc, rfl⟩
    obtain ⟨S, hS, hcS⟩ := List.mem_flatMap.mp hc
    exact ⟨sprites_in_frame hin hc, S, hS, c, hcS, rfl⟩
  · refine frame_mono (frame_writeCells ..) nofun ?_
    rintro a ⟨c, hc, rfl⟩
    obtain ⟨j, hj, hcj⟩ := List.mem_flatMap.mp hc
    exact ⟨text_in_frame hin hc, j, List.mem_range.mp hj, c, hcj, rfl⟩

/-- Settles O14: only the raise of a fault changes the record, and it records the first fault alone. -/
theorem faultingCommandChangesOnlyTheRecord : Obligations.FaultingCommandChangesOnlyTheRecord := by
  intro i s t he hne
  obtain ⟨c, f, rfl⟩ | ⟨-, rfl⟩ | ⟨_, _, _, _, _, -, -, -, -, rfl⟩ | ⟨_, -, -, rfl⟩ | ⟨-, rfl⟩ | ⟨-, -, rfl⟩ | ⟨-, rfl⟩ |
    ⟨-, -, rfl⟩ | ⟨-, -, rfl⟩ := exec_cases he
  · obtain ⟨hnone, hraise⟩ | ⟨-, hsame⟩ := s.raise_cases c f
    · exact ⟨hnone, s.raise_eq c f⟩
    · exact absurd (congrArg State.faultRec hsame) hne
  all_goals exact absurd rfl hne

/-! ### The single commands -/

/-- A generator of the bank. -/
theorem exists_gen {s : State} {g : Nat} (hlength : s.gens.length = s.params.ngen) (hg : g < s.params.ngen) :
    ∃ G, s.gens[g]? = some G := ⟨s.gens[g], List.getElem?_eq_getElem (hlength ▸ hg)⟩

/-- What a register of a generator of the bank reads as. -/
theorem State.readReg_gen {s : State} {g : Nat} {G : Generator} (hG : s.gens[g]? = some G) (q : GenReg) :
    s.readReg (.gen g q) = G.read q := by
  rw [State.readReg, hG]

/-- What a register of a changed generator reads as. -/
theorem State.readReg_modifyGen {s : State} {g : Nat} {G : Generator} (hG : s.gens[g]? = some G) (f : Generator → Generator)
    (q : GenReg) : (s.modifyGen g f).readReg (.gen g q) = (f G).read q := by
  refine State.readReg_gen ?_ q
  rw [State.modifyGen_gens, List.getElem?_modify_eq, hG]
  rfl

/-- A VOICE operand up to 3 names the waveform of that code. -/
theorem Waveform.exists_ofCode : ∀ {v : Nat}, v ≤ 3 → ∃ w, Waveform.ofCode v = some w ∧ (Voice.playing w).code.toNat = v
  | 0, _ => ⟨.sine, rfl, rfl⟩
  | 1, _ => ⟨.square, rfl, rfl⟩
  | 2, _ => ⟨.triangle, rfl, rfl⟩
  | 3, _ => ⟨.sawtooth, rfl, rfl⟩

/-- An ENV operand up to 5 names the envelope of that code. -/
theorem Envelope.exists_ofCode : ∀ {e : Nat}, e ≤ 5 → ∃ en, Envelope.ofCode e = some en ∧ en.code.toNat = e
  | 0, _ => ⟨.linear, rfl, rfl⟩
  | 1, _ => ⟨.expDecay, rfl, rfl⟩
  | 2, _ => ⟨.gate, rfl, rfl⟩
  | 3, _ => ⟨.adsr, rfl, rfl⟩
  | 4, _ => ⟨.sustain, rfl, rfl⟩
  | 5, _ => ⟨.tremolo, rfl, rfl⟩

/-- A GEN operand below NGEN names its generator. -/
theorem generatorOperand_of_lt {p : Params} {g : Nat} (hg : g < p.ngen) : generatorOperand p g = some g := if_pos hg

/-- KEYON of meaningful operands. -/
theorem exec_keyon {s : State} {g v e : Nat} {w : Waveform} {en : Envelope} (hg : g < s.params.ngen)
    (hw : Waveform.ofCode v = some w) (hen : Envelope.ofCode e = some en) :
    exec (.keyon g v e) s = .next (s.modifyGen g fun G => G.keyOn w en) := by
  simp only [exec, execKeyon, keyonOperands, generatorOperand_of_lt hg, hw, hen]

/-- MUTE of a generator of the bank. -/
theorem exec_mute {s : State} {g : Nat} (hg : g < s.params.ngen) : exec (.mute g) s = .next (s.modifyGen g Generator.silence) := by
  simp only [exec, execMute, generatorOperand_of_lt hg]

/-- A 16-bit field alone in its register, as a number. -/
theorem pack16_zero_toNat (lo : Half) : (pack16 0 lo).toNat = lo.toNat := by simp [pack16_toNat]

/-- Settles O17: KEYON changes its generator to one that shows the two codes, and ENV_AMP is the entry that ENV_ROM holds there
(`State.memRead_envRom`). -/
theorem keyonStartsTheGenerator : Obligations.KeyonStartsTheGenerator := by
  intro s g v e hl hlength hg hv he
  obtain ⟨G, hG⟩ := exists_gen hlength hg
  obtain ⟨w, hw, hwcode⟩ := Waveform.exists_ofCode hv
  obtain ⟨en, hen, hecode⟩ := Envelope.exists_ofCode he
  refine ⟨_, exec_keyon hg hw hen, ?_, ?_, frame_keyOn s g w en⟩
  · rw [State.readReg_modifyGen hG, Generator.read_genCtrl_toNat, Generator.keyOn, hwcode, hecode]
  · rw [State.readReg_modifyGen hG, State.readReg_gen hG]
    simp only [Generator.read, pack16_zero_toNat, Generator.keyOn]
    exact (State.memRead_envRom hl hen (envelopePosition_lt G.vol)).symm

/-- Muting a generator that is muted and silent changes nothing. -/
theorem Generator.silence_of_muted {G : Generator} (hmuted : G.voice = .muted) (hsilent : G.envAmp = 0) : G.silence = G := by
  obtain ⟨voice, env, phase, phaseDelta, phaseDDelta, vol, volDelta, envAmp, divL, divR⟩ := G
  obtain rfl : voice = .muted := hmuted
  obtain rfl : envAmp = 0 := hsilent
  rfl

/-- The code 0xF is the muted sentinel's alone. -/
theorem Voice.eq_muted_of_code {v : Voice} (h : v.code.toNat = 15) : v = .muted := by
  cases v with
  | muted => rfl
  | playing w => cases w <;> exact absurd h (by decide)

/-- Changing a generator to itself changes nothing. -/
theorem State.modifyGen_of_fixed {s : State} {g : Nat} {G : Generator} {f : Generator → Generator} (hG : s.gens[g]? = some G)
    (hf : f G = G) : s.modifyGen g f = s := by
  have hbank : s.gens.modify g f = s.gens := by
    refine List.ext_getElem? fun k => ?_
    rw [List.getElem?_modify]
    split
    case isTrue hk =>
      subst hk
      rw [hG]
      exact congrArg some hf
    case isFalse => exact id_map' _
  rw [State.modifyGen, hbank]

/-- Settles O18: MUTE changes its generator to a silent muted one, which a silent muted one already is. -/
theorem muteSilencesTheGenerator : Obligations.MuteSilencesTheGenerator := by
  intro s g h hg
  obtain ⟨G, hG⟩ := exists_gen h.gens_length hg
  have hcode := G.voice.code.isLt
  refine ⟨_, exec_mute hg, ?_, ?_, frame_silence s g, fun hmuted => ?_⟩
  · rw [State.readReg_modifyGen hG, State.readReg_gen hG, Generator.read_genCtrl_toNat, Generator.read_genCtrl_toNat]
    change 256 * G.env.code.toNat + 15 = _
    omega
  · rw [State.readReg_modifyGen hG]
    change pack16 0 0 = 0
    decide
  · rw [State.readReg_gen hG, Generator.read_genCtrl_toNat] at hmuted
    have hvoice : G.voice = .muted := Voice.eq_muted_of_code (by omega)
    exact State.modifyGen_of_fixed hG (Generator.silence_of_muted hvoice (h.muted_silent G (List.mem_of_getElem? hG) hvoice))

/-- Settles O19: TRIGGER_FX writes the two fields, and its frame is `frame_trigger`. -/
theorem triggerFxRestartsTheEffect : Obligations.TriggerFxRestartsTheEffect := fun s =>
  ⟨_, rfl, rfl, (by decide : 0#31 ++ BitVec.ofBool true = 1), frame_trigger s⟩

end Sys2Proof.Machine
end

section
/-! SUPPORT. Steps (00_scope.md R10): the engine's turn and what it leaves, what no host access changes, the platform's reset, and
what every step keeps. -/

namespace Sys2Proof.Machine

open Sys2Proof.Machine.Claims

/-! ### The engine's turn (46_control.md R281) -/

/-- Settles O9: a step of a legal block is the engine's turn, an access or a reset, and each answers a next state. -/
theorem legalBlockNeverStops : Obligations.LegalBlockNeverStops := by
  intro s hl
  match hi : s.inputs with
  | [] => exact step_engine hl (.inl ⟨hi, rfl⟩) ▸ engineTurn_answers_next _
  | .engineTurn :: rest => exact step_engine hl (.inr hi) ▸ engineTurn_answers_next _
  | .access a :: rest => exact ⟨_, step_access hl hi⟩
  | .reset :: rest => exact ⟨_, step_reset hl hi⟩

/-- Settles O11: with the engine next a step is its turn (`step_engine`), which has one equation for each of the four cases. -/
theorem engineStepRunsTheLatchedCommand : Obligations.EngineStepRunsTheLatchedCommand := by
  intro s rest hl hnext
  rw [step_engine hl hnext]
  refine ⟨fun hp => engineTurn_idle hp, fun w r hp hf => engineTurn_faulted (s := { s with inputs := rest }) hp hf,
    fun w i t hp hf hd he => engineTurn_command (s := { s with inputs := rest }) hp hf hd he, fun w e hp hf hd => ?_⟩
  rw [engineTurn_illegal (s := { s with inputs := rest }) hp hf hd, State.raise_of_none (s := { s with inputs := rest }) hf]
  rfl

/-- A word that no row of the opcode map matches decodes to nothing. -/
theorem decode_error_of_no_row {w : Word} (h : ∀ row ∈ rows, w &&& row.mask ≠ row.pattern) : ∃ e, decode w = .error e := by
  cases hd : decode w with
  | error e => exact ⟨e, rfl⟩
  | ok i =>
    obtain ⟨hmatch, -, -⟩ := wordIsCommandExactlyWhenARowMatches w
    obtain ⟨row, hrow, hw⟩ := hmatch.mp ⟨i, hd⟩
    exact absurd hw (h row hrow)

/-- Settles O12: the word decodes to nothing, so the step records ILLEGAL_CMD with it (`engineStepRunsTheLatchedCommand`). -/
theorem unmatchedWordRaisesIllegalCmd : Obligations.UnmatchedWordRaisesIllegalCmd := by
  intro s rest w hl hnext hp hf hrow
  obtain ⟨e, hd⟩ := decode_error_of_no_row hrow
  obtain ⟨-, -, -, hillegal⟩ := engineStepRunsTheLatchedCommand s rest hl hnext
  refine ⟨_, hillegal w e hp hf hd, ?_, rfl, rfl⟩
  change 0#16 ++ FaultCode.illegalCmd.code ++ 0#6 ++ BitVec.ofBool true ++ BitVec.ofBool false = 0x00000102
  decide

/-- Only STATUS shows BUSY. -/
theorem State.clearBusy_readReg {s : State} {r : Reg} (hr : r ≠ .status) : s.clearBusy.readReg r = s.readReg r := by
  cases r with
  | status => exact absurd rfl hr
  | _ => rfl

/-- The engine's turn changes STATUS, FAULT_INFO and the registers of commands only. -/
theorem engineTurn_readReg {s t : State} (h : s.engineTurn = .next t) {r : Reg} (hstatus : r ≠ .status) (hinfo : r ≠ .faultInfo)
    (hcommand : ∀ i, ¬ commandRegs i r) : t.readReg r = s.readReg r := by
  obtain ⟨-, rfl⟩ | ⟨w, f, -, -, rfl⟩ | ⟨w, e, -, -, -, rfl⟩ | ⟨w, i, u, -, -, -, he, rfl⟩ := engineTurn_cases h
  · rfl
  · exact State.clearBusy_readReg hstatus
  · rw [State.clearBusy_readReg hstatus, State.raise_readReg hstatus hinfo]
  · obtain ⟨hreg, -⟩ := commandsWriteOnlyWhatTheirRulesName i s u he
    rw [State.clearBusy_readReg hstatus]
    exact hreg r fun h => h.elim (hcommand i) fun ⟨_, h⟩ => h.elim hstatus hinfo

/-- No command names a register of the host in its state written. -/
theorem not_commandRegs_of_hostOwned {r : Reg} (h : hostOwned r) (i : Instr) : ¬ commandRegs i r := by
  cases i <;> cases r <;> simp [commandRegs, hostOwned] at h ⊢
  all_goals
    rename_i q
    cases q <;> simp at h ⊢

/-- Settles O15: the step is the engine's turn, and no command writes a register of the host. -/
theorem engineNeverWritesHostRegisters : Obligations.EngineNeverWritesHostRegisters := by
  intro s t rest r hnext hstep hr
  obtain ⟨hl, -⟩ := step_cases hstep
  rw [step_engine hl hnext] at hstep
  have hstatus : r ≠ .status := fun h => (h ▸ hr : hostOwned .status)
  have hinfo : r ≠ .faultInfo := fun h => (h ▸ hr : hostOwned .faultInfo)
  exact engineTurn_readReg hstep hstatus hinfo (not_commandRegs_of_hostOwned hr)

/-- Settles O16: the write latches the word of NOP (`State.writeCmd_idle`), and the engine's turn executes it, which leaves the state
with BUSY = 0 again. -/
theorem nopHandshakeChangesNothing : Obligations.NopHandshakeChangesNothing := by
  refine fun s rest => ⟨rfl, fun hl hp hf hi => ?_⟩
  have hlatch := step_cmdWrite hl hi
  rw [State.writeCmd_idle (s := { s with inputs := .engineTurn :: rest }) hf hp] at hlatch
  refine ⟨_, hlatch, ?_, ?_⟩
  · simp only [State.readReg, State.status, State.faultCode, State.faulted, State.busy, hf]
    decide
  · have hexec := engineTurn_command (s := { s with inputs := rest, pending := some (encode .nop) }) rfl hf
      (decode_encode (i := .nop) rfl) rfl
    rw [State.clearBusy, ← hp] at hexec
    exact (step_engine (s := { s with inputs := .engineTurn :: rest, pending := some (encode .nop) }) hl (.inr rfl)).trans hexec

/-! ### Host accesses -/

/-- A register write keeps every register that belongs to the engine: those are read-only. -/
theorem State.writeReg_engineOwned (s : State) (v : Word) {r q : Reg} (hq : engineOwned q) :
    (s.writeReg v r).readReg q = s.readReg q := by
  by_cases hqr : q = r
  case neg => exact State.writeReg_other s v hqr
  case pos =>
    subst hqr
    cases q with
    | gen g k =>
      refine State.modifyGen_readReg fun k' hk G => ?_
      cases hk
      cases k with
      | genCtrl | envAmp => rfl
      | _ => exact hq.elim
    | id | subcnt | fxCtrl | fxPos => rfl
    | cfgFrameSamples | cfgFb | cfgBg | cfgCounts | cfgFxCap | cfgTileCap | cfgTables => rfl
    | _ => exact hq.elim

/-- No host access changes a read-only register but STATUS and FAULT_INFO. -/
theorem State.hostAccess_engineOwned (s : State) (a : HostAccess) {r : Reg} (hr : engineOwned r) :
    (s.hostAccess a).readReg r = s.readReg r := by
  have hstatus : r ≠ .status := fun h => (h ▸ hr : engineOwned .status)
  have hinfo : r ≠ .faultInfo := fun h => (h ▸ hr : engineOwned .faultInfo)
  obtain ⟨c, off, n, -, -, e⟩ | ⟨c, off, n, v, -, -, e⟩ | ⟨off, n, -, -, e⟩ | ⟨off, n, v, -, -, -, e⟩ |
    ⟨off, n, v, q, -, -, -, -, e⟩ | ⟨off, n, v, -, -, -, e⟩ := hostAccess_cases s a <;> rw [e]
  · exact State.raise_readReg (s := s) hstatus hinfo
  · exact State.raise_readReg hstatus hinfo
  · rfl
  · obtain e | e | ⟨-, -, e⟩ := writeCmd_cases s v <;> rw [e]
    · exact State.raise_readReg hstatus hinfo
    · cases r with
      | status => exact absurd rfl hstatus
      | _ => rfl
  · exact State.writeReg_engineOwned s v hr
  · exact State.memWrite_readReg ..

/-- Settles O46: the step is the access, which keeps these registers (`State.hostAccess_engineOwned`). -/
theorem hostNeverChangesReadOnlyRegisters : Obligations.HostNeverChangesReadOnlyRegisters := by
  intro s t a rest r hi hstep hr
  obtain ⟨hl, -⟩ := step_cases hstep
  rw [step_access hl hi] at hstep
  obtain rfl := Host.Outcome.next.inj hstep
  exact State.hostAccess_engineOwned _ a hr

/-! ### The platform's reset (70_reset_and_hazards.md R330) -/

/-- A RAM byte that nothing has written since the reset is its draw. -/
theorem State.readByte_unwritten {s : State} (hl : s.params.Legal) (hmem : s.mem = []) {a : Nat} (ha : ramRange s.params a) :
    s.readByte a = Config.ramDraw s.ramEpoch a := by
  obtain ⟨r, hram, hr⟩ := ramRange_iff.mp ha
  have hrom : romByte s.params a = none := romByte_of_ram hl hram hr
  unfold State.readByte resetByte
  rw [hrom, hmem]
  rfl

/-- Settles O10: the state after the step is the state after reset, with the host's later events. -/
theorem platformResetRestoresTheBlock : Obligations.PlatformResetRestoresTheBlock := by
  intro s rest hl hi
  refine ⟨_, step_reset hl hi, rfl, rfl, rfl, rfl, fun off r hr => ?_, fun a ha => ?_, fun a ha => ?_⟩
  · refine Eq.trans ?_ (State.resetWith_readReg hl (s.ramEpoch + 1) hr)
    cases r <;> rfl
  · exact State.readByte_unwritten (s := State.platformReset { s with inputs := rest }) hl rfl ha
  · exact State.readByte_rom_congr (t := State.platformReset { s with inputs := rest }) hl rfl ha

/-! ### What every step keeps -/

/-- No host access changes the parameters. -/
theorem State.hostAccess_params (s : State) (a : HostAccess) : (s.hostAccess a).params = s.params := by
  obtain ⟨c, off, n, -, -, e⟩ | ⟨c, off, n, v, -, -, e⟩ | ⟨off, n, -, -, e⟩ | ⟨off, n, v, -, -, -, e⟩ |
    ⟨off, n, v, q, -, -, -, -, e⟩ | ⟨off, n, v, -, -, -, e⟩ := hostAccess_cases s a <;> rw [e]
  · exact State.raise_params ..
  · exact State.raise_params ..
  · obtain e | e | ⟨-, -, e⟩ := writeCmd_cases s v <;> rw [e]
    exact State.raise_params ..
  · exact (State.writeReg_frame s v q).1
  · rfl

/-- No step changes the parameters (10_state.md R29). -/
theorem step_params {s t : State} (h : step s = .next t) : t.params = s.params := by
  obtain ⟨-, ⟨a, rest, -, rfl⟩ | ⟨rest, -, rfl⟩ | ⟨rest, -, hturn⟩⟩ := step_cases h
  · exact State.hostAccess_params ..
  · rfl
  · exact (engineTurn_frame hturn).1

/-- Settles O47: the parameters stay, and in a legal block these registers show the parameters (`State.readReg_config`). -/
theorem cfgRegistersAreConstant : Obligations.CfgRegistersAreConstant := by
  intro s t hstep
  obtain ⟨hl, -⟩ := step_cases hstep
  have hparams := step_params hstep
  refine ⟨hparams, fun r hr => ?_⟩
  rw [← hparams] at hl ⊢
  exact State.readReg_config hl hr

/-- The recorded fault stays when the host accesses the block. -/
theorem State.hostAccess_faultRec {s : State} {f : FaultRecord} (hf : s.faultRec = some f) (a : HostAccess) :
    (s.hostAccess a).faultRec = some f := by
  obtain ⟨c, off, n, -, -, e⟩ | ⟨c, off, n, v, -, -, e⟩ | ⟨off, n, -, -, e⟩ | ⟨off, n, v, -, -, -, e⟩ |
    ⟨off, n, v, q, -, -, -, -, e⟩ | ⟨off, n, v, -, -, -, e⟩ := hostAccess_cases s a <;> rw [e]
  · simp [hf]
  · simp [hf]
  · exact hf
  · rw [State.writeCmd_faulted hf]
    exact hf
  · obtain ⟨-, -, -, -, hrec, -⟩ := State.writeReg_frame s v q
    rw [hrec, hf]
  · exact hf

/-- With a fault recorded the engine's turn empties PENDING and does nothing else. -/
theorem engineTurn_of_fault {s : State} {f : FaultRecord} (hf : s.faultRec = some f) :
    s.engineTurn = .next { s with pending := none } := by
  cases hp : s.pending with
  | none => rw [engineTurn_idle hp, ← hp]
  | some w => exact engineTurn_faulted hp hf

/-- With a fault recorded and the engine next, a step empties PENDING and does nothing else. -/
theorem step_engine_of_fault {s : State} {rest : List Event} {f : FaultRecord} (hl : s.params.Legal) (hnext : engineNext s rest)
    (hf : s.faultRec = some f) : step s = .next { s with inputs := rest, pending := none } :=
  (step_engine hl hnext).trans (engineTurn_of_fault (s := { s with inputs := rest }) hf)

/-- Settles O49: neither an access nor the engine's turn changes a recorded fault. -/
theorem faultRecordIsSticky : Obligations.FaultRecordIsSticky := by
  intro s t f hf hstep hreset
  obtain ⟨hl, hcases⟩ := step_cases hstep
  have hengine : ∀ rest, engineNext s rest → t = { s with inputs := rest, pending := none } := fun rest hnext =>
    Host.Outcome.next.inj (hstep.symm.trans (step_engine_of_fault hl hnext hf))
  refine ⟨?_, hengine⟩
  obtain ⟨a, rest, -, rfl⟩ | ⟨rest, hi, -⟩ | ⟨rest, hnext, -⟩ := hcases
  · exact State.hostAccess_faultRec (s := { s with inputs := rest }) hf a
  · exact absurd hi (hreset rest)
  · rw [hengine rest hnext]
    exact hf

/-! ### Muted generators (10_state.md R37) -/

/-- Generator g of the bank is muted and silent. -/
def State.MutedAt (s : State) (g : Nat) : Prop := ∃ G, s.gens[g]? = some G ∧ G.voice = .muted ∧ G.envAmp = 0

/-- Changing generators keeps one muted and silent when the change keeps it so. -/
theorem State.MutedAt.modifyGen {s : State} {g h : Nat} {f : Generator → Generator} (hm : s.MutedAt g)
    (hf : h = g → ∀ G : Generator, G.voice = .muted ∧ G.envAmp = 0 → (f G).voice = .muted ∧ (f G).envAmp = 0) :
    (s.modifyGen h f).MutedAt g := by
  obtain ⟨G, hG, hmuted⟩ := hm
  by_cases hgh : h = g
  case pos =>
    refine ⟨f G, ?_, hf hgh G hmuted⟩
    rw [State.modifyGen_gens, hgh, List.getElem?_modify_eq, hG]
    rfl
  case neg =>
    refine ⟨G, ?_, hmuted⟩
    simp [hgh, hG]

/-- No register write unmutes a generator. -/
theorem State.MutedAt.writeReg {s : State} {g : Nat} (hm : s.MutedAt g) (v : Word) (r : Reg) : (s.writeReg v r).MutedAt g := by
  cases r with
  | gen h q => exact hm.modifyGen fun _ G hG => by cases q <;> exact hG
  | _ => exact hm

/-- No host access unmutes a generator. -/
theorem State.MutedAt.hostAccess {s : State} {g : Nat} (hm : s.MutedAt g) (a : HostAccess) : (s.hostAccess a).MutedAt g := by
  have hraise : ∀ c i, (s.raise c i).MutedAt g := fun c i => by rw [State.raise_eq]; exact hm
  obtain ⟨c, off, n, -, -, e⟩ | ⟨c, off, n, v, -, -, e⟩ | ⟨off, n, -, -, e⟩ | ⟨off, n, v, -, -, -, e⟩ |
    ⟨off, n, v, q, -, -, -, -, e⟩ | ⟨off, n, v, -, -, -, e⟩ := hostAccess_cases s a <;> rw [e]
  · exact hraise c off
  · exact hraise c off
  · exact hm
  · obtain e | e | ⟨-, -, e⟩ := writeCmd_cases s v <;> rw [e]
    · exact hm
    · exact hraise _ _
    · exact hm
  · exact hm.writeReg v q
  · exact hm

/-- The only command that unmutes a generator is a KEYON of it with a meaningful voice and envelope. -/
theorem State.MutedAt.exec {s t : State} {g : Nat} {i : Instr} (hm : s.MutedAt g) (he : exec i s = .next t)
    (hkeyon : ∀ v e, v ≤ 3 → e ≤ 5 → i ≠ .keyon g v e) : t.MutedAt g := by
  obtain ⟨c, f, rfl⟩ | ⟨-, rfl⟩ | ⟨h, v, e, w, en, rfl, -, hw, hen, rfl⟩ | ⟨h, -, -, rfl⟩ | ⟨-, rfl⟩ | ⟨-, -, rfl⟩ | ⟨-, rfl⟩ |
    ⟨-, -, rfl⟩ | ⟨-, -, rfl⟩ := exec_cases he
  case inr.inr.inl =>
    have hv : v ≤ 3 := Nat.le_of_not_lt fun hv => by simp [Waveform.ofCode_eq_none hv] at hw
    have he : e ≤ 5 := Nat.le_of_not_lt fun he => by simp [Envelope.ofCode_eq_none he] at hen
    exact hm.modifyGen fun hgh => absurd (hgh ▸ rfl) (hkeyon v e hv he)
  case inr.inr.inr.inl => exact hm.modifyGen fun _ G _ => ⟨rfl, rfl⟩
  case inr.inr.inr.inr.inr.inl =>
    obtain ⟨G, hG, hmuted, hsilent⟩ := hm
    exact ⟨G, State.mixerAt_keeps_muted hG hmuted _, hmuted, hsilent⟩
  case inl => rw [State.raise_eq]; exact hm
  all_goals exact hm

/-- Settles O26: an access never unmutes the generator, a reset mutes it, and the engine unmutes it only by a KEYON it executes. -/
theorem keyonIsTheOnlyWayOutOfMuted : Obligations.KeyonIsTheOnlyWayOutOfMuted := by
  intro s t g G h hG hmuted hstep hkeyon
  have hm : s.MutedAt g := ⟨G, hG, hmuted, h.muted_silent G (List.mem_of_getElem? hG) hmuted⟩
  obtain ⟨-, ⟨a, rest, -, rfl⟩ | ⟨rest, -, rfl⟩ | ⟨rest, hnext, hturn⟩⟩ := step_cases hstep
  · exact State.MutedAt.hostAccess (s := { s with inputs := rest }) hm a
  · have hg : g < s.params.ngen := h.gens_length ▸ (List.getElem?_eq_some_iff.mp hG).1
    exact ⟨Generator.reset, by simp [State.platformReset, State.resetWith, hg], rfl, rfl⟩
  · obtain ⟨-, rfl⟩ | ⟨w, f, -, -, rfl⟩ | ⟨w, e, -, -, -, rfl⟩ | ⟨w, i, u, hp, hf, hd, he, rfl⟩ := engineTurn_cases hturn
    · exact hm
    · exact hm
    · rw [State.raise_eq]
      exact hm
    · refine State.MutedAt.exec (s := { s with inputs := rest }) (t := u) hm he fun v e hv he' hi => ?_
      exact hkeyon rest w v e hnext hf hp hv he' (hi ▸ hd)

end Sys2Proof.Machine
end

section
/-! SUPPORT. The integer tables (40_tables.md sections 2 and 3): shapes and ranges of the waveforms for every legal block, closed forms
at the defaults, and the default sine table over the real numbers. -/

namespace Sys2Proof.Machine

open Sys2Proof.Machine.Claims

/-! ### WAVE_LEN -/

/-- WAVE_LEN of a legal block is a multiple of four, so its halves and quarters are exact. -/
theorem exists_waveLen_eq {p : Params} (hl : p.Legal) : ∃ k, 0 < k ∧ p.waveLen = 4 * k := by
  obtain ⟨⟨hbits, -⟩, -⟩ := hl
  refine ⟨2 ^ (p.waveIdxBits - 2), Nat.two_pow_pos _, ?_⟩
  rw [Params.waveLen, show 4 = 2 ^ 2 from rfl, ← Nat.pow_add, Nat.add_sub_cancel' hbits]

/-! ### Sine (R131) -/

/-- The fixed-point sine of the first quadrant passes 1 by at most 8 units of the last place. -/
theorem fixSin_le {N i : Nat} (hN : 0 < N) (hi : 4 * i ≤ N) : fixSin (fixPi * 2 * i / N) ≤ fixOne + 8 := by
  have hF : (0 : ℝ) < fixOne := by norm_num [fixOne]
  have herror := (abs_le.mp (quarter_angle_error hN hi)).2
  have hsin := Real.sin_le_one (2 * Real.pi * i / N)
  have hquotient : (fixSin (fixPi * 2 * i / N) : ℝ) / fixOne ≤ (fixOne + 8) / fixOne := by
    rw [add_div, div_self hF.ne']
    linarith
  exact_mod_cast (div_le_div_iff_of_pos_right hF).mp hquotient

/-- An entry of the first quadrant does not pass the amplitude: the error is far from the rounding step. -/
theorem quarterSine_le {N A i : Nat} (hN : 0 < N) (hi : 4 * i ≤ N) (hA : A ≤ 16383) : quarterSine N A i ≤ A := by
  have hsin := Nat.mul_le_mul_left (2 * A) (fixSin_le hN hi)
  unfold quarterSine
  have hroom : 16 * 16383 < fixOne := by decide
  rw [← Nat.lt_succ_iff, Nat.div_lt_iff_lt_mul (by decide)]
  nlinarith

/-- The first entry is 0. -/
theorem quarterSine_zero (N A : Nat) : quarterSine N A 0 = 0 := by
  rw [quarterSine, Nat.mul_zero, Nat.zero_div, show fixSin 0 = 0 from rfl, Nat.mul_zero, Nat.zero_add]
  decide

/-- The fixed-point sine of a quarter turn misses 1 by at most 8 units of the last place. -/
theorem fixSin_quarterTurn : fixOne ≤ fixSin (fixPi * 2 / 4) + 8 := by decide +kernel

/-- The last entry of the first quadrant is the amplitude. -/
theorem quarterSine_quarter {k A : Nat} (hk : 0 < k) (hA : A ≤ 16383) : quarterSine (4 * k) A k = A := by
  refine Nat.le_antisymm (quarterSine_le (by omega) (le_refl _) hA) ?_
  have hscaled := Nat.mul_le_mul_left (2 * A) fixSin_quarterTurn
  rw [quarterSine, Nat.mul_div_mul_right _ _ hk, Nat.le_div_iff_mul_le (by decide)]
  have hroom : 16 * 16383 ≤ fixOne := by decide
  nlinarith

/-- Every sine entry lies within the amplitude. -/
theorem sineEntry_range {k A i : Nat} (hk : 0 < k) (hA : A ≤ 16383) (hi : i < 4 * k) :
    -(A : Int) ≤ sineEntry (4 * k) A i ∧ sineEntry (4 * k) A i ≤ A := by
  have hquarter : ∀ j, j ≤ k → quarterSine (4 * k) A j ≤ A := fun j hj => quarterSine_le (by omega) (by omega) hA
  unfold sineEntry
  split_ifs
  case pos =>
    have := hquarter i (by omega)
    omega
  case pos =>
    have := hquarter (4 * k / 2 - i) (by omega)
    omega
  case pos =>
    have := hquarter (i - 4 * k / 2) (by omega)
    omega
  case neg =>
    have := hquarter (4 * k - i) (by omega)
    omega

/-- The error of the fixed-point sine carries no entry of the default table over a half-integer: all 1025 of the first quadrant. -/
theorem roundsSafely_default : ∀ j, 4 * j ≤ 4096 → RoundsSafely 4096 2047 j := by
  have hall : ∀ j < 1025, RoundsSafely 4096 2047 j := by
    unfold RoundsSafely
    decide +kernel
  exact fun j hj => hall j (by omega)

/-- Settles O53: the first quadrant is safe to round (`roundsSafely_default`), so every entry is the rounded real value. -/
theorem sineTableIsTheRoundedSine : Obligations.SineTableIsTheRoundedSine := by
  intro i hi
  have hround := isRound_sineEntry (by decide) roundsSafely_default hi
  rw [mul_comm]
  exact_mod_cast hround

/-! ### Triangle (R133) -/

/-- The rising half rises. -/
theorem triangleRise_mono {N A i j : Nat} (h : i ≤ j) : triangleRise N A i ≤ triangleRise N A j := by
  have hdiv : 2 * A * i / (N / 2 - 1) ≤ 2 * A * j / (N / 2 - 1) := Nat.div_le_div_right (Nat.mul_le_mul_left _ h)
  unfold triangleRise
  omega

/-- The rising half ends at the amplitude. -/
theorem triangleRise_top {N A : Nat} (hN : 4 ≤ N) : triangleRise N A (N / 2 - 1) = A := by
  rw [triangleRise, Nat.mul_div_cancel _ (by omega)]
  omega

/-- The rising half stays within the amplitude. -/
theorem triangleRise_range {N A i : Nat} (hN : 4 ≤ N) (hi : i ≤ N / 2 - 1) :
    -(A : Int) ≤ triangleRise N A i ∧ triangleRise N A i ≤ A := by
  refine ⟨?_, triangleRise_top (A := A) hN ▸ triangleRise_mono hi⟩
  have hrise : (0 : Int) ≤ (2 * A * i / (N / 2 - 1) : Nat) := Int.natCast_nonneg _
  rw [triangleRise]
  linarith

theorem triangleEntry_rising {N A i : Nat} (h : i < N / 2) : triangleEntry N A i = triangleRise N A i := if_pos h

theorem triangleEntry_falling {N A i : Nat} (h : N / 2 ≤ i) : triangleEntry N A i = triangleRise N A (N - 1 - i) :=
  if_neg (Nat.not_lt.mpr h)

/-- The triangle reaches the amplitude in the middle. -/
theorem triangleEntry_middle {k A : Nat} (hk : 0 < k) : triangleEntry (4 * k) A (4 * k / 2) = A := by
  rw [triangleEntry_falling (le_refl _), show 4 * k - 1 - 4 * k / 2 = 4 * k / 2 - 1 by omega, triangleRise_top (by omega)]

/-- Every triangle entry lies within the amplitude. -/
theorem triangleEntry_range {k A i : Nat} (hk : 0 < k) (hi : i < 4 * k) :
    -(A : Int) ≤ triangleEntry (4 * k) A i ∧ triangleEntry (4 * k) A i ≤ A := by
  obtain h | h := Nat.lt_or_ge i (4 * k / 2)
  · rw [triangleEntry_rising h]
    exact triangleRise_range (by omega) (by omega)
  · rw [triangleEntry_falling h]
    exact triangleRise_range (by omega) (by omega)

/-! ### Sawtooth (R134) -/

/-- The sawtooth rises. -/
theorem sawtoothEntry_mono {N A i j : Nat} (h : i ≤ j) : sawtoothEntry N A i ≤ sawtoothEntry N A j := by
  have hdiv : i * (2 * (A + 1)) / N ≤ j * (2 * (A + 1)) / N := Nat.div_le_div_right (Nat.mul_le_mul_right _ h)
  unfold sawtoothEntry
  omega

/-- The sawtooth passes the amplitude by at most one. -/
theorem sawtoothEntry_range {N A i : Nat} (hi : i < N) : -(A : Int) ≤ sawtoothEntry N A i ∧ sawtoothEntry N A i ≤ A + 1 := by
  have hdiv : i * (2 * (A + 1)) / N < 2 * (A + 1) := by
    rw [Nat.div_lt_iff_lt_mul (by omega), Nat.mul_comm]
    exact Nat.mul_lt_mul_of_pos_left hi (by omega)
  unfold sawtoothEntry
  generalize i * (2 * (A + 1)) / N = q at *
  omega

/-! ### Shapes and ranges -/

/-- Every waveform entry lies between the negative amplitude and one above the amplitude (R141). -/
theorem waveEntry_range {p : Params} (hl : p.Legal) (w : Waveform) {i : Nat} (hi : i < p.waveLen) :
    -(p.waveAmp : Int) ≤ waveEntry p w i ∧ waveEntry p w i ≤ p.waveAmp + 1 := by
  obtain ⟨k, hk, hlen⟩ := exists_waveLen_eq hl
  obtain ⟨-, ⟨-, hamp⟩, -⟩ := hl
  rw [hlen] at hi
  cases w with
  | sine =>
    obtain ⟨hlow, hhigh⟩ := sineEntry_range hk hamp hi
    rw [waveEntry, hlen]
    omega
  | square =>
    rw [waveEntry, squareEntry]
    split <;> omega
  | triangle =>
    obtain ⟨hlow, hhigh⟩ := triangleEntry_range (A := p.waveAmp) hk hi
    rw [waveEntry, hlen]
    omega
  | sawtooth =>
    rw [waveEntry, hlen]
    exact sawtoothEntry_range hi

/-- Settles O50: one lemma a waveform, at a WAVE_LEN that is a multiple of four. -/
theorem waveTablesHaveTheirShape : Obligations.WaveTablesHaveTheirShape := by
  intro p hl
  obtain ⟨k, hk, hlen⟩ := exists_waveLen_eq hl
  obtain ⟨-, ⟨-, hamp⟩, -⟩ := hl
  have hmiddle := triangleEntry_middle (A := p.waveAmp) hk
  simp only [waveEntry, hlen]
  refine ⟨⟨?_, ?_⟩, fun i hi => rfl, hmiddle, fun i j hij hj => ?_, fun i j hi hij hj => ?_,
    fun i j hij _ => sawtoothEntry_mono hij⟩
  · rw [sineEntry, if_pos (Nat.zero_le _), quarterSine_zero, Int.natCast_zero]
  · rw [sineEntry, if_pos (le_refl _), Nat.mul_div_cancel_left k (by decide), quarterSine_quarter hk hamp]
  · obtain hlt | rfl := Nat.lt_or_eq_of_le hj
    · rw [triangleEntry_rising hlt, triangleEntry_rising (by omega)]
      exact triangleRise_mono hij
    · rw [hmiddle]
      exact (triangleEntry_range hk (by omega)).2
  · rw [triangleEntry_falling hi, triangleEntry_falling (hi.trans hij)]
    exact triangleRise_mono (by omega)

/-- Settles O51: the range of the envelopes, that of the waveforms, and the product of their bounds. -/
theorem tableEntriesAreInRange : Obligations.TableEntriesAreInRange := by
  intro p w e i j hl hi hj
  obtain ⟨elow, ehigh⟩ := envEntry_range e hj
  obtain ⟨wlow, whigh⟩ := waveEntry_range hl w hi
  obtain ⟨-, ⟨-, hamp⟩, -⟩ := hl
  refine ⟨⟨elow, ehigh⟩, ⟨wlow, whigh⟩, ?_, ?_⟩ <;> nlinarith

/-! ### Closed forms at the defaults (R132 to R135, R137) -/

/-- Settles O55: WAVE_LEN is 4096, so the divisions of the triangle and the sawtooth are exact. -/
theorem defaultTablesHaveTheirClosedForms : Obligations.DefaultTablesHaveTheirClosedForms := by
  intro p i hbits hamp
  have hlen : p.waveLen = 4096 := by
    rw [Params.waveLen, hbits]
    rfl
  simp only [waveEntry, envEntry, hlen, hamp]
  refine ⟨fun hi => ⟨if_pos hi, ?_⟩, fun hlow hi => ⟨if_neg (Nat.not_lt.mpr hlow), ?_⟩, fun hi => ?_, fun _ => rfl, fun hi => if_pos hi, rfl⟩
  · rw [triangleEntry_rising hi, triangleRise]
    omega
  · rw [triangleEntry_falling hlow, triangleRise]
    omega
  · rw [sawtoothEntry]
    omega

/-! ### The ROM holds the tables (20_memory.md R78) -/

/-- Settles O48: each entry is stored exactly, because it fits 16 bits, and no step changes the parameters that the ROM bytes depend
on. -/
theorem romHoldsTheTablesForever : Obligations.RomHoldsTheTablesForever := by
  intro s hl
  refine ⟨fun k w i hk hi => ?_, fun k e i hk hi => ?_, fun c r b hr hc hb => State.font_of_listed hl hr hc hb,
    fun t a hstep ha => State.readByte_rom_congr hl (step_params hstep) ha⟩
  · obtain ⟨hlow, hhigh⟩ := waveEntry_range hl w hi
    have hamp : s.params.waveAmp ≤ 16383 := hl.2.1.2
    rw [State.memRead_waveRom hl hk hi, BitVec.ofNat_toNat, BitVec.setWidth_eq]
    exact wrap16_toInt (by omega) (by omega)
  · obtain ⟨hlow, hhigh⟩ := envEntry_range e hi
    rw [State.memRead_envRom hl hk hi, BitVec.ofNat_toNat, BitVec.setWidth_eq]
    exact wrap16_toInt (by omega) (by omega)

end Sys2Proof.Machine
end

section
/-! SUPPORT. One generator over the samples of a frame (41_tone_generator.md section 2): the glide of its phase, the period of the
waveform index, and the LINEAR envelope from its start to its end. -/

namespace Sys2Proof.Machine

open Sys2Proof.Machine.Claims

/-! ### The glide (R173) -/

/-- A sample of a playing generator advances PHASE by PHASE_DELTA and PHASE_DELTA by PHASE_DDELTA, tick or not. -/
theorem oscStep_phase {p : Params} {tick : Bool} {G : Generator} (h : G.voice ≠ .muted) :
    (oscStep p tick G).2.phase = G.phase + G.phaseDelta ∧ (oscStep p tick G).2.phaseDelta = G.phaseDelta + G.phaseDDelta := by
  obtain ⟨hmuted, -⟩ | ⟨w, -, ⟨-, e⟩ | ⟨-, -, e⟩ | ⟨-, -, e⟩⟩ := oscStep_cases p tick G
  · exact absurd hmuted h
  all_goals
    rw [e]
    exact ⟨rfl, rfl⟩

/-- While a generator plays, PHASE is quadratic and PHASE_DELTA linear in the sample number. -/
theorem genAt_phase {s : State} {G : Generator} {n : Nat} (hplays : ∀ m, m < n → (genAt s G m).voice ≠ .muted) :
    (genAt s G n).phase =
      G.phase + BitVec.ofNat 32 n * G.phaseDelta + BitVec.ofNat 32 (n * (n - 1) / 2) * G.phaseDDelta ∧
    (genAt s G n).phaseDelta = G.phaseDelta + BitVec.ofNat 32 n * G.phaseDDelta := by
  induction n with
  | zero => simp [genAt]
  | succ n ih =>
    obtain ⟨hphase, hdelta⟩ := ih fun m hm => hplays m (hm.trans n.lt_succ_self)
    obtain ⟨hstep, hstep'⟩ := oscStep_phase (p := s.params) (tick := tickAt s n) (hplays n n.lt_succ_self)
    obtain ⟨-, hglide, -⟩ := genAt_frame s G n
    rw [genAt, hstep, hstep', hphase, hdelta, hglide, Nat.triangle_succ, BitVec.ofNat_add, BitVec.ofNat_add,
      show BitVec.ofNat 32 1 = 1 from rfl]
    constructor <;> ring

/-- Settles O23: the phase registers are `genAt_phase`, and no sample moves the others (`genAt_frame`). -/
theorem glideIsQuadratic : Obligations.GlideIsQuadratic := by
  intro s G n hplays
  obtain ⟨hphase, hdelta⟩ := genAt_phase hplays
  obtain ⟨henv, hglide, hvol, hL, hR⟩ := genAt_frame s G n
  exact ⟨hphase, hdelta, hglide, henv, hvol, hL, hR⟩

/-- Settles O24: without a glide the phase is linear in the sample number, and over 2^32 / d samples it advances by 2^32, which is 0. -/
theorem constantDeltaRepeatsTheIndex : Obligations.ConstantDeltaRepeatsTheIndex := by
  intro s G d n hglide hd _ hdvd hplays
  obtain ⟨hlater, -⟩ := genAt_phase hplays
  obtain ⟨hnow, -⟩ := genAt_phase (n := n) fun m hm => hplays m (hm.trans_le (Nat.le_add_right ..))
  have hturn : BitVec.ofNat 32 (2 ^ 32 / d) * G.phaseDelta = 0 := by
    apply BitVec.eq_of_toNat_eq
    rw [BitVec.toNat_mul, BitVec.toNat_ofNat, hd, Nat.mod_mul_mod, Nat.div_mul_cancel (Nat.dvd_of_mod_eq_zero hdvd)]
    rfl
  rw [hlater, hnow, hglide, BitVec.ofNat_add, BitVec.add_mul, hturn]
  simp

/-! ### The LINEAR envelope (R176) -/

/-- A LINEAR generator at VOL_DELTA = 0x100, k ticks after VOL was 0. -/
def LinearAfter (w : Waveform) (k : Nat) (G : Generator) : Prop :=
  if k < 256 then
    G.voice = .playing w ∧ G.env = .linear ∧ G.volDelta = 0x100 ∧ G.vol.toNat = 0x100 * k ∧ (1 ≤ k → G.envAmp.toNat = 255 - k)
  else G.voice = .muted ∧ G.envAmp = 0

/-- A sample without a tick leaves the envelope where it is. -/
theorem LinearAfter.sample {w : Waveform} {k : Nat} {G : Generator} (h : LinearAfter w k G) (p : Params) :
    LinearAfter w k (oscStep p false G).2 := by
  unfold LinearAfter at h ⊢
  split
  case isTrue hk =>
    rw [if_pos hk] at h
    rw [oscStep_playing h.1]
    exact h
  case isFalse hk =>
    rw [if_neg hk] at h
    rwa [oscStep_muted h.1]

/-- A tick takes a playing LINEAR generator one entry down, and out at the last. -/
theorem LinearAfter.tick {w : Waveform} {k : Nat} {G : Generator} (h : LinearAfter w k G) (p : Params) :
    LinearAfter w (k + 1) (oscStep p true G).2 := by
  unfold LinearAfter at h ⊢
  by_cases hk : k < 256
  case neg =>
    rw [if_neg hk] at h
    rwa [if_neg (by omega), oscStep_muted h.1]
  case pos =>
    rw [if_pos hk] at h
    obtain ⟨hplay, henv, hdelta, hvol, -⟩ := h
    have hdelta' : G.volDelta.toNat = 0x100 := congrArg BitVec.toNat hdelta
    rw [oscStep_playing hplay]
    by_cases hlast : k + 1 < 256
    case neg =>
      have hfull : ¬ (G.advancePhase.vol.toNat : Int) < 0xFFFF - G.advancePhase.volDelta.toNat := by
        change ¬ (G.vol.toNat : Int) < 0xFFFF - G.volDelta.toNat
        omega
      rw [if_neg hlast, if_pos rfl, envelopeStep_of_no_headroom hfull]
      exact ⟨rfl, rfl⟩
    case pos =>
      have hroom : (G.advancePhase.vol.toNat : Int) < 0xFFFF - G.advancePhase.volDelta.toNat := by
        change (G.vol.toNat : Int) < 0xFFFF - G.volDelta.toNat
        omega
      have hsum : (G.vol + G.volDelta).toNat = 0x100 * (k + 1) := by
        rw [BitVec.toNat_add]
        omega
      have hamp : (envelopeAmplitude .linear (G.vol + G.volDelta)).toNat = 255 - (k + 1) := by
        have hentry := envelopeAmplitude_toNat .linear (G.vol + G.volDelta)
        rw [envelopePosition, hsum, Nat.mul_div_cancel_left _ (by decide), envEntry, linearEnv] at hentry
        omega
      rw [if_pos hlast, if_pos rfl, envelopeStep_of_headroom hroom]
      exact ⟨hplay, henv, hdelta, hsum, fun _ => henv ▸ hamp⟩

/-- Before sample n of the frame (SUBCNT + n) div 256 ticks have passed, wherever SUBCNT stands. -/
theorem linearAfter_genAt {s : State} {w : Waveform} {G : Generator} (h : LinearAfter w 0 G) (n : Nat) :
    LinearAfter w ((s.subcnt.toNat + n) / 256) (genAt s G n) := by
  induction n with
  | zero =>
    have hsub := s.subcnt.isLt
    rwa [Nat.div_eq_of_lt (by omega)]
  | succ n ih =>
    rw [genAt]
    cases htick : tickAt s n with
    | true =>
      have hlast : (s.subcnt.toNat + n) % 256 = 255 := by simpa [tickAt] using htick
      rw [show (s.subcnt.toNat + (n + 1)) / 256 = (s.subcnt.toNat + n) / 256 + 1 by omega]
      exact ih.tick s.params
    | false =>
      have hinner : (s.subcnt.toNat + n) % 256 ≠ 255 := by simpa [tickAt] using htick
      rw [show (s.subcnt.toNat + (n + 1)) / 256 = (s.subcnt.toNat + n) / 256 by omega]
      exact ih.sample s.params

/-- Settles O25: k ticks have passed after 256 * k samples, and at least 256 from sample 65536 on (`linearAfter_genAt`). -/
theorem linearDecayRunsOut : Obligations.LinearDecayRunsOut := by
  intro s G w hplay henv hvol hdelta
  have hstart : LinearAfter w 0 G := by
    rw [LinearAfter, if_pos (by decide), hvol]
    exact ⟨hplay, henv, hdelta, rfl, fun h => absurd h (by decide)⟩
  have hsub := s.subcnt.isLt
  refine ⟨fun k hk hk' => ?_, fun n hn => ?_⟩
  · have hafter := linearAfter_genAt (s := s) hstart (256 * k)
    rw [show (s.subcnt.toNat + 256 * k) / 256 = k by omega, LinearAfter, if_pos (by omega)] at hafter
    obtain ⟨hv, -, -, hvol, hamp⟩ := hafter
    exact ⟨hv, hvol, hamp hk⟩
  · have hafter := linearAfter_genAt (s := s) hstart n
    rwa [LinearAfter, if_neg (by omega)] at hafter

end Sys2Proof.Machine
end

section
/-! SUPPORT. The frame that RENDER_AUDIO leaves (42_audio_render.md): its samples and counters, what the command reads, and that the
order of the bank changes no sample. -/

namespace Sys2Proof.Machine

open Sys2Proof.Machine.Claims

/-! ### The rendered frame -/

/-- The state after a frame without a fault. -/
def State.rendered (s : State) : State :=
  s.afterRender (s.renderSamples s.params.frameSamples s.mixer).1 (s.mixerAt s.mixer s.params.frameSamples)

@[simp] theorem State.rendered_params (s : State) : s.rendered.params = s.params := rfl

@[simp] theorem State.rendered_ramEpoch (s : State) : s.rendered.ramEpoch = s.ramEpoch := rfl

/-- RENDER_AUDIO answers the rendered frame when no generator would divide by zero. -/
theorem exec_renderAudio_eq_rendered {s : State} (hgens : ∀ G ∈ s.gens, ¬ zeroDivisor G) :
    exec .renderAudio s = .next s.rendered := exec_renderAudio_of_no_zeroDivisor hgens

/-- The rendered frame has the length of AUD_RAM. -/
theorem State.renderedBytes_length (s : State) :
    (s.renderSamples s.params.frameSamples s.mixer).1.length = 4 * s.params.frameSamples := State.renderSamples_length ..

/-- The frame of RENDER_AUDIO. -/
theorem frame_rendered (s : State) : Frame s s.rendered (commandRegs .renderAudio) (commandBytes s .renderAudio) :=
  frame_afterRender s.renderedBytes_length _

/-- A byte of AUD_RAM after the frame is the byte rendered there. -/
theorem State.readByte_rendered_inside {s : State} (hl : s.params.Legal) {k : Nat} {b : Byte}
    (hb : (s.renderSamples s.params.frameSamples s.mixer).1[k]? = some b) : s.rendered.readByte (Region.audRam.base + k) = b := by
  obtain ⟨hk, rfl⟩ := List.getElem?_eq_some_iff.mp hb
  have hlt : k < 4 * s.params.frameSamples := s.renderedBytes_length ▸ hk
  have hrom : romByte s.params (Region.audRam.base + k) = none :=
    romByte_of_ram hl (r := .audRam) rfl ⟨Nat.le_add_right .., Nat.add_lt_add_left hlt _⟩
  exact (State.readByte_congr (s := s.memWrite Region.audRam.base _) rfl rfl rfl _).trans (State.readByte_memWrite_inside hk hrom)

/-! ### Samples (R190, R194) -/

/-- The first two bytes of a pair are the left sum. -/
theorem pairBytes_left (sums : Int × Int) {j : Nat} (hj : j < 2) :
    (pairBytes sums)[j]? = some (BitVec.ofNat 8 ((wrap16 sums.1).toNat / 256 ^ j)) := by
  rw [pairBytes, List.getElem?_append_left (by rwa [bytesLE_length]), bytesLE_getElem? _ _ _ hj]

/-- The last two bytes of a pair are the right sum. -/
theorem pairBytes_right (sums : Int × Int) {j : Nat} (hj : j < 2) :
    (pairBytes sums)[2 + j]? = some (BitVec.ofNat 8 ((wrap16 sums.2).toNat / 256 ^ j)) := by
  rw [pairBytes, List.getElem?_append_right (by rw [bytesLE_length]; omega), bytesLE_length, Nat.add_sub_cancel_left,
    bytesLE_getElem? _ _ _ hj]

/-- A sample whose two bytes are those of v is v. -/
theorem State.aud_of_bytes {s : State} {i : Nat} {v : Half}
    (h : ∀ j, j < 2 → s.readByte (audAddr i + j) = BitVec.ofNat 8 (v.toNat / 256 ^ j)) : s.aud i = v.toInt := by
  have hread : s.memRead (audAddr i) 2 = v.toNat :=
    (State.memRead_of_bytes 2 (audAddr i) v.toNat fun j hj => by rw [h j hj, BitVec.toNat_ofNat]).trans (Nat.mod_eq_of_lt v.isLt)
  rw [State.aud, hread, BitVec.ofNat_toNat, BitVec.setWidth_eq]

/-- The left sample of pair n is the left sum, wrapped. -/
theorem State.aud_rendered_left {s : State} (hl : s.params.Legal) {n : Nat} (hn : n < s.params.frameSamples) :
    s.rendered.aud (2 * n) = Int.bmod ((s.gens.map fun G => (partAt s G n).1).sum + effectAt s n) 65536 := by
  have hbytes : ∀ j, j < 2 → s.rendered.readByte (audAddr (2 * n) + j) =
      BitVec.ofNat 8 ((wrap16 (s.mixSums (s.mixerAt s.mixer n)).1).toNat / 256 ^ j) := fun j hj => by
    rw [audAddr, Nat.add_assoc, show 2 * (2 * n) + j = 4 * n + j by omega]
    refine State.readByte_rendered_inside hl ?_
    rw [State.renderSamples_getElem? _ _ _ hn (by omega), pairBytes_left _ hj]
  rw [State.aud_of_bytes hbytes, wrap16, BitVec.toInt_ofInt, State.mixSums_mixerAt]

/-- The right sample of pair n is the right sum, wrapped. -/
theorem State.aud_rendered_right {s : State} (hl : s.params.Legal) {n : Nat} (hn : n < s.params.frameSamples) :
    s.rendered.aud (2 * n + 1) = Int.bmod (s.gens.map fun G => (partAt s G n).2).sum 65536 := by
  have hbytes : ∀ j, j < 2 → s.rendered.readByte (audAddr (2 * n + 1) + j) =
      BitVec.ofNat 8 ((wrap16 (s.mixSums (s.mixerAt s.mixer n)).2).toNat / 256 ^ j) := fun j hj => by
    rw [audAddr, Nat.add_assoc, show 2 * (2 * n + 1) + j = 4 * n + (2 + j) by omega]
    refine State.readByte_rendered_inside hl ?_
    rw [State.renderSamples_getElem? _ _ _ hn (by omega), pairBytes_right _ hj]
  rw [State.aud_of_bytes hbytes, wrap16, BitVec.toInt_ofInt, State.mixSums_mixerAt]

/-- Settles O28: the pair at sample n holds the two sums of that sample. -/
theorem renderWritesTheWrappedSums : Obligations.RenderWritesTheWrappedSums := fun _ hl hgens =>
  ⟨_, exec_renderAudio_eq_rendered hgens, fun _ hn => ⟨State.aud_rendered_left hl hn, State.aud_rendered_right hl hn⟩⟩

/-! ### Counters -/

/-- SUBCNT as its register shows it. -/
theorem State.readReg_subcnt_toNat (s : State) : (s.readReg .subcnt).toNat = s.subcnt.toNat := by
  rw [State.readReg, toNat_append_eq]
  simp

/-- Settles O29: the mixer after the last sample in closed form, and the frame of the command. -/
theorem renderAdvancesTheCounters : Obligations.RenderAdvancesTheCounters := by
  refine fun s hgens => ⟨_, exec_renderAudio_eq_rendered hgens, s.mixerAt_gens _, ?_, ?_, frame_rendered s⟩
  · rw [State.readReg_subcnt_toNat, State.readReg_subcnt_toNat]
    exact s.mixerAt_subcnt_toNat _
  · change (s.mixerAt s.mixer s.params.frameSamples).fxPos.toNat = _
    split
    case isTrue hactive => exact State.mixerAt_fxPos_active hactive _
    case isFalse hidle => rw [State.mixerAt_fxPos_inactive (Bool.eq_false_iff.mpr hidle)]

/-! ### Silence (R195) -/

/-- A muted generator is the same at every sample. -/
theorem genAt_muted {s : State} {G : Generator} (h : G.voice = .muted) (n : Nat) : genAt s G n = G := by
  induction n with
  | zero => rfl
  | succ n ih => rw [genAt, ih, oscStep_muted h]

/-- A muted generator adds nothing. -/
theorem partAt_muted {s : State} {G : Generator} (h : G.voice = .muted) (n : Nat) : partAt s G n = (0, 0) := by
  rw [partAt, genAt_muted h, oscStep_muted h]

section
variable {s : State}

/-- Every generator is muted, and no effect is left to play. -/
def State.Silent (s : State) : Prop :=
  (∀ G ∈ s.gens, G.voice = .muted) ∧ (s.fx.active = false ∨ s.fx.len.toNat ≤ s.fx.pos.toNat)

/-- A muted bank never divides by zero. -/
theorem State.Silent.no_zeroDivisor (h : s.Silent) : ∀ G ∈ s.gens, ¬ zeroDivisor G := fun G hG hz => hz.1 (h.1 G hG)

/-- A sum over a muted bank of what adds nothing for a muted generator is 0. -/
theorem State.Silent.sum_eq_zero (h : s.Silent) {f : Generator → Int} (hf : ∀ G : Generator, G.voice = .muted → f G = 0) :
    (s.gens.map f).sum = 0 :=
  List.sum_eq_zero fun x hx => by
    obtain ⟨G, hG, rfl⟩ := List.mem_map.mp hx
    exact hf G (h.1 G hG)

/-- No effect is left at any sample. -/
theorem State.Silent.effectAt_eq_zero (h : s.Silent) (n : Nat) : effectAt s n = 0 := by
  refine if_neg fun ⟨hactive, hpos⟩ => ?_
  obtain hidle | hend := h.2
  · rw [hidle] at hactive
    cases hactive
  · omega

/-- Every sample of a silent frame is 0. -/
theorem State.Silent.aud_eq_zero (h : s.Silent) (hl : s.params.Legal) {k : Nat} (hk : k < 2 * s.params.frameSamples) :
    s.rendered.aud k = 0 := by
  have hleft : ∀ n, (s.gens.map fun G => (partAt s G n).1).sum = 0 := fun n =>
    h.sum_eq_zero fun G hG => by rw [partAt_muted hG]
  have hright : ∀ n, (s.gens.map fun G => (partAt s G n).2).sum = 0 := fun n =>
    h.sum_eq_zero fun G hG => by rw [partAt_muted hG]
  obtain ⟨n, rfl | rfl⟩ := Nat.even_or_odd' k
  · rw [State.aud_rendered_left hl (by omega), hleft, h.effectAt_eq_zero]
    rfl
  · rw [State.aud_rendered_right hl (by omega), hright]
    rfl

/-- A silent frame moves neither the bank nor the effect. -/
theorem State.Silent.rendered_eq (h : s.Silent) : s.rendered.gens = s.gens ∧ s.rendered.fx = s.fx := by
  constructor
  · refine (s.mixerAt_gens _).trans ?_
    conv_rhs => rw [← List.map_id s.gens]
    exact List.map_congr_left fun G hG => genAt_muted (h.1 G hG) _
  · have hpos : (s.mixerAt s.mixer s.params.frameSamples).fxPos = s.fx.pos := by
      obtain hidle | hend := h.2
      · exact State.mixerAt_fxPos_inactive hidle _
      · cases hactive : s.fx.active with
        | false => exact State.mixerAt_fxPos_inactive hactive _
        | true =>
          apply BitVec.eq_of_toNat_eq
          rw [State.mixerAt_fxPos_active hactive]
          omega
    rw [State.rendered, State.afterRender_fx, hpos]

/-- A silent frame changes SUBCNT and AUD_RAM. -/
theorem State.Silent.frame (h : s.Silent) : Frame s s.rendered (fun r => r = .subcnt) (commandBytes s .renderAudio) := by
  obtain ⟨hgens, hfx⟩ := h.rendered_eq
  obtain ⟨hreg, hrest⟩ := frame_rendered s
  refine ⟨fun r hr => ?_, hrest⟩
  cases r with
  | subcnt => exact absurd rfl hr
  | fxPos => simp only [State.readReg, hfx]
  | gen g q => simp only [State.readReg, hgens]
  | _ => exact hreg _ (by simp [commandRegs])

end

/-- The state after reset is silent. -/
theorem State.resetWith_silent (p : Params) (epoch : Nat) : (State.resetWith p epoch).Silent :=
  ⟨fun G hG => by rw [List.eq_of_mem_replicate hG]; rfl, .inl rfl⟩

/-- Settles O31: a silent frame is all zero, and the state after reset is silent, with SUBCNT = 0. -/
theorem silentFrameIsAllZero : Obligations.SilentFrameIsAllZero := by
  refine ⟨fun s hl hmuted hfx => ?_, fun p epoch hl => ?_⟩
  · have h : s.Silent := ⟨hmuted, hfx⟩
    exact ⟨_, exec_renderAudio_eq_rendered h.no_zeroDivisor, fun k hk => h.aud_eq_zero hl hk, h.frame⟩
  · have h := State.resetWith_silent p epoch
    refine ⟨_, exec_renderAudio_eq_rendered h.no_zeroDivisor, fun k hk => h.aud_eq_zero hl hk, ?_⟩
    rw [State.readReg_subcnt_toNat]
    exact (State.mixerAt_subcnt_toNat ..).trans (by rw [show (State.resetWith p epoch).subcnt.toNat = 0 from rfl, Nat.zero_add]; rfl)

/-! ### What the command reads -/

section
variable {s t : State}

/-- States with the same parameters, effect and effect samples render the same bytes from the same mixer. -/
theorem State.renderSamples_congr (hparams : t.params = s.params) (hfx : t.fx = s.fx)
    (hsample : ∀ i, i < s.fx.len.toNat → t.fxSample i = s.fxSample i) (n : Nat) (m : Mixer) :
    t.renderSamples n m = s.renderSamples n m := by
  have hplays : ∀ m, t.effectPlays m = s.effectPlays m := fun m => by rw [State.effectPlays, hfx, State.effectPlays]
  have hvalue : ∀ m, t.effectValue m = s.effectValue m := fun m => by
    rw [State.effectValue, State.effectValue, hplays]
    split
    case isTrue h =>
      simp only [State.effectPlays, effectPlaying, Bool.and_eq_true, decide_eq_true_eq] at h
      exact hsample _ h.2
    case isFalse => rfl
  have hnext : ∀ m, t.mixNext m = s.mixNext m := fun m => by rw [State.mixNext, hplays, hparams, State.mixNext]
  have hsums : ∀ m, t.mixSums m = s.mixSums m := fun m => by rw [State.mixSums, hvalue, hparams, State.mixSums]
  induction n generalizing m with
  | zero => rfl
  | succ n ih => rw [State.renderSamples, hsums, hnext, ih, State.renderSamples]

/-- The effect samples up to FX_CAP are bytes of FX_RAM. -/
theorem State.fxSample_congr (hbytes : ∀ x, Region.fxRam.Holds s.params x → t.readByte x = s.readByte x) {i : Nat}
    (hi : i < s.params.fxCap) : t.fxSample i = s.fxSample i := by
  have hread : t.memRead (fxAddr i) 2 = s.memRead (fxAddr i) 2 := State.memRead_congr fun j hj => hbytes _ <| by
    simp only [Region.Holds, Region.size, fxAddr]
    omega
  rw [State.fxSample, hread, State.fxSample]

/-- States with the same parameters, effect, bank, SUBCNT and FX_RAM leave the same frame, each over its own memory. -/
theorem State.rendered_congr (hlen : s.fx.len.toNat ≤ s.params.fxCap) (hparams : t.params = s.params) (hfx : t.fx = s.fx)
    (hgens : t.gens = s.gens) (hsub : t.subcnt = s.subcnt)
    (hbytes : ∀ x, Region.fxRam.Holds s.params x → t.readByte x = s.readByte x) :
    t.rendered = t.afterRender (s.renderSamples s.params.frameSamples s.mixer).1 (s.mixerAt s.mixer s.params.frameSamples) := by
  have hmixer : t.mixer = s.mixer := by rw [State.mixer, hfx, hgens, hsub, State.mixer]
  rw [State.rendered, ← State.renderSamples_mixer, ← State.renderSamples_mixer, hparams, hmixer,
    State.renderSamples_congr hparams hfx fun i hi => State.fxSample_congr hbytes (hi.trans_le hlen)]

/-- Reads depend on what the RAM list holds at their offset. -/
theorem State.readByte_congr_lookup (hparams : t.params = s.params) (hepoch : t.ramEpoch = s.ramEpoch) {x : Nat}
    (hlookup : t.mem.lookup x = s.mem.lookup x) : t.readByte x = s.readByte x := by
  unfold State.readByte
  rw [hparams, hepoch, hlookup]

end

/-- A later write over a whole block hides an earlier one inside it. -/
theorem Memory.lookup_write_write {m : Memory} {a b : Nat} {as bs : List Byte} (hlow : b ≤ a) (hhigh : a + as.length ≤ b + bs.length)
    (x : Nat) : ((m.write a as).write b bs).lookup x = (m.write b bs).lookup x := by
  rw [Memory.lookup_write, Memory.lookup_write m b bs]
  split
  case isTrue => rfl
  case isFalse hout => exact Memory.lookup_write_outside m (by omega)

/-- Settles O30: a write inside AUD_RAM is outside FX_RAM, so the same frame is rendered, and it covers the write. -/
theorem audioFrameForgetsItsOldBytes : Obligations.AudioFrameForgetsItsOldBytes := by
  intro s t u a bs h hgens hlow hhigh ht hu
  have hframes : s.params.frameSamples ≤ 262144 := h.legal.2.2.2.2.2.1.2
  have hsame := State.rendered_congr (t := s.memWrite a bs) h.fx_len rfl rfl rfl rfl fun x hx => by
    refine State.readByte_memWrite_outside fun hin => ?_
    have hbase : 0x00200000 ≤ x := hx.1
    omega
  obtain rfl : s.rendered = t := Host.Outcome.next.inj ((exec_renderAudio_eq_rendered hgens).symm.trans ht)
  obtain rfl : (s.memWrite a bs).rendered = u := Host.Outcome.next.inj 
    ((exec_renderAudio_eq_rendered (s := s.memWrite a bs) hgens).symm.trans hu)
  have hcovered : ∀ x, ((s.memWrite a bs).rendered.mem).lookup x = s.rendered.mem.lookup x := fun x => by
    rw [hsame]
    refine Memory.lookup_write_write hlow ?_ x
    rwa [State.renderedBytes_length]
  refine ⟨fun x => State.readByte_congr_lookup (by simp) (by simp) (hcovered x), fun r => ?_⟩
  rw [hsame]
  cases r <;> rfl

/-! ### The order of the bank (R190) -/

/-- Mixers that differ in the order of the bank mix the same samples. -/
theorem State.renderSamples_perm (s : State) (n : Nat) {m m' : Mixer} (hgens : m'.gens.Perm m.gens) (hsub : m'.subcnt = m.subcnt)
    (hpos : m'.fxPos = m.fxPos) : (s.renderSamples n m').1 = (s.renderSamples n m).1 := by
  induction n generalizing m m' with
  | zero => rfl
  | succ n ih =>
    have hplays : s.effectPlays m' = s.effectPlays m := by rw [State.effectPlays, hpos, State.effectPlays]
    have hsums : s.mixSums m' = s.mixSums m := by
      simp only [State.mixSums, State.effectValue, hsub, hpos, hplays]
      rw [((hgens.map _).map _).sum_eq, ((hgens.map _).map _).sum_eq]
    have hrest : (s.renderSamples n (s.mixNext m')).1 = (s.renderSamples n (s.mixNext m)).1 := by
      refine ih ?_ (by simp only [State.mixNext, hsub]) (by simp only [State.mixNext, hplays, hpos])
      simp only [State.mixNext, hsub]
      exact hgens.map _
    rw [State.renderSamples, State.renderSamples]
    simp only [hsums, hrest]

/-- Settles O32: the bytes written are the same (`State.renderSamples_perm`), and no byte is read from the bank. -/
theorem generatorOrderChangesNoSample : Obligations.GeneratorOrderChangesNoSample := by
  intro s t u bank hperm hgens ht hu a
  have hbank : ∀ G ∈ bank, ¬ zeroDivisor G := fun G hG => hgens G (hperm.mem_iff.mp hG)
  obtain rfl : s.rendered = t := Host.Outcome.next.inj ((exec_renderAudio_eq_rendered hgens).symm.trans ht)
  obtain rfl : ({ s with gens := bank } : State).rendered = u :=
    Host.Outcome.next.inj ((exec_renderAudio_eq_rendered (s := { s with gens := bank }) hbank).symm.trans hu)
  have hbytes := s.renderSamples_perm s.params.frameSamples (m := s.mixer) (m' := ({ s with gens := bank } : State).mixer) hperm rfl rfl
  have hsame := State.renderSamples_congr (s := s) (t := { s with gens := bank }) rfl rfl fun i _ =>
    congrArg (fun v => (BitVec.ofNat 16 v).toInt) (State.memRead_congr (n := 2) fun _ _ => rfl)
  refine State.readByte_congr (s := s.rendered) (t := State.rendered { s with gens := bank }) rfl ?_ rfl a
  rw [State.rendered, State.afterRender_mem, hsame, hbytes]
  rfl

end Sys2Proof.Machine
end

section
/-! SUPPORT. DRAW_SPRITES and DRAW_OVERLAY pixel by pixel (44_sprites.md, 45_overlay.md): the bounds check of the sprites, and what a
list of single-byte writes leaves at a pixel. -/

namespace Sys2Proof.Machine

open Sys2Proof.Machine.Claims

/-! ### The bounds check of DRAW_SPRITES (R235, R237) -/

/-- The command's test of a sprite is the test that the statements name. -/
theorem sprite_outOfBounds_iff (p : Params) (S : Sprite) : S.outOfBounds p = true ↔ spriteOutside p S := by
  simp only [Sprite.outOfBounds, Sprite.fits, spriteOutside, Bool.and_eq_true, Bool.not_eq_true', Bool.and_eq_false_iff,
    decide_eq_false_iff_not, Nat.not_le, or_assoc]

/-- The check finds nothing when every sprite is inside. -/
theorem findIdx?_outOfBounds_eq_none {s : State} (h : ∀ S ∈ s.sprites, ¬ spriteOutside s.params S) :
    s.sprites.findIdx? (·.outOfBounds s.params) = none :=
  List.findIdx?_eq_none_iff.mpr fun S hS => Bool.eq_false_iff.mpr (mt (sprite_outOfBounds_iff s.params S).mp (h S hS))

/-- DRAW_SPRITES raises SPRITE_BOUNDS for the lowest slot that is outside. -/
theorem exec_drawSprites_of_outside {s : State} {i : Nat} {S : Sprite} (hS : s.sprites[i]? = some S) (hout : spriteOutside s.params S)
    (hlowest : ∀ j T, j < i → s.sprites[j]? = some T → ¬ spriteOutside s.params T) :
    exec .drawSprites s = .next (s.raise .spriteBounds (BitVec.ofNat 32 i)) := by
  obtain ⟨hi, rfl⟩ := List.getElem?_eq_some_iff.mp hS
  have hfind : s.sprites.findIdx? (·.outOfBounds s.params) = some i := by
    refine List.findIdx?_eq_some_iff_getElem.mpr ⟨hi, (sprite_outOfBounds_iff _ _).mpr hout, fun j hj hbad => ?_⟩
    exact hlowest j _ hj (List.getElem?_eq_getElem (hj.trans hi)) ((sprite_outOfBounds_iff _ _).mp hbad)
  rw [exec, execDrawSprites, hfind]

/-- DRAW_SPRITES draws all slots when every sprite is inside. -/
theorem exec_drawSprites_of_inside {s : State} (h : ∀ S ∈ s.sprites, ¬ spriteOutside s.params S) :
    exec .drawSprites s = .next (s.writeCells (s.sprites.flatMap s.spriteCells)) := by
  rw [exec, execDrawSprites, findIdx?_outOfBounds_eq_none h]

/-- Settles O34: the check comes before any write, and with no earlier fault the raise records this one. -/
theorem spriteOutsideRaisesSpriteBounds : Obligations.SpriteOutsideRaisesSpriteBounds := by
  intro s i S hfault hS hout hlowest
  rw [exec_drawSprites_of_outside hS hout hlowest, State.raise_of_none hfault]

/-- A command that records no fault changes only what its rule names. -/
theorem frame_of_no_fault {i : Instr} {s t : State} (h : exec i s = .next t) (hfault : t.faultRec = s.faultRec) :
    Frame s t (commandRegs i) (commandBytes s i) :=
  frame_mono (commandsWriteOnlyWhatTheirRulesName i s t h) (fun _ hr => hr.resolve_right fun hne => hne.1 hfault) fun _ => id

/-! ### Lists of writes -/

/-- What a list without conflicting cells holds at an offset is whatever cell of it names the offset. -/
theorem Memory.lookup_eq_some_of_unique {m : Memory} {a : Nat} {b : Byte} (hmem : (a, b) ∈ m) (huniq : ∀ c ∈ m, c.1 = a → c.2 = b) :
    m.lookup a = some b := by
  cases h : m.lookup a with
  | none =>
    simp only [Memory.lookup, Option.map_eq_none_iff, List.find?_eq_none, beq_iff_eq] at h
    exact absurd rfl (h _ hmem)
  | some b' => exact congrArg some (huniq (a, b') (Memory.mem_of_lookup h) rfl)

/-- A list that does not name an offset holds nothing there. -/
theorem Memory.lookup_eq_none_of_absent {m : Memory} {a : Nat} (h : ∀ c ∈ m, c.1 ≠ a) : m.lookup a = none := by
  simp only [Memory.lookup, Option.map_eq_none_iff, List.find?_eq_none, beq_iff_eq]
  exact h

/-- A search depends on what it finds in the elements of the list. -/
theorem findSome?_congr_of_mem {α β : Type} {f g : α → Option β} {l : List α} (h : ∀ x ∈ l, f x = g x) :
    l.findSome? f = l.findSome? g := by
  induction l with
  | nil => rfl
  | cons x l ih =>
    rw [List.findSome?_cons, List.findSome?_cons, h x (by simp), ih fun y hy => h y (by simp [hy])]

/-- After the writes of several lists in order, an offset holds what the last of them that names it wrote. -/
theorem Memory.lookup_reverse_flatMap {α : Type} (f : α → List Host.Cell) (l : List α) (a : Nat) :
    Memory.lookup (l.flatMap f).reverse a = l.reverse.findSome? fun x => Memory.lookup (f x).reverse a := by
  induction l with
  | nil => rfl
  | cons x l ih =>
    rw [List.flatMap_cons, List.reverse_append, Memory.lookup_append, ih, List.reverse_cons, List.findSome?_append]
    simp

/-! ### The pixels of sprites (R235, R236) -/

/-- The cells of a sprite inside the frame hold at a pixel's offset what the sprite puts on the pixel. -/
theorem lookup_spriteCells {s : State} {S : Sprite} (hin : ¬ spriteOutside s.params S) {y x : Nat} (hx : x < s.params.fbW) :
    Memory.lookup (s.spriteCells S).reverse (fbAddr s.params y x) = spritePixel s y x S := by
  have hcell : ∀ c ∈ (s.spriteCells S).reverse, c.1 = fbAddr s.params y x → spritePixel s y x S = some c.2 := by
    intro c hc hca
    obtain ⟨hv, r, q, hr, hq, hkey, rfl⟩ := mem_spriteCells.mp (List.mem_reverse.mp hc)
    have hqx : S.x.toNat + q < s.params.fbW := by
      unfold spriteOutside at hin
      by_contra hwide
      exact hin ⟨hv, .inl (by omega)⟩
    obtain ⟨rfl, rfl⟩ := fbAddr_inj hqx hx hca
    simp only [spritePixel, Nat.add_sub_cancel_left]
    rw [if_pos ⟨hv, by omega, by omega⟩]
    exact if_neg hkey
  cases hpixel : spritePixel s y x S with
  | none => exact Memory.lookup_eq_none_of_absent fun c hc hca => by simp [hcell c hc hca] at hpixel
  | some b =>
    refine Memory.lookup_eq_some_of_unique (List.mem_reverse.mpr (mem_spriteCells.mpr ?_)) fun c hc hca =>
      Option.some.inj ((hcell c hc hca).symm.trans hpixel)
    unfold spritePixel at hpixel
    split at hpixel
    case isFalse => cases hpixel
    case isTrue hcover =>
      obtain ⟨hv, ⟨hy, hy'⟩, hx, hx'⟩ := hcover
      have htile : s.tilePixel S (y - S.y.toNat) (x - S.x.toNat) ≠ S.key ∧ s.tilePixel S (y - S.y.toNat) (x - S.x.toNat) = b := by
        dsimp only at hpixel
        split at hpixel
        case isTrue => cases hpixel
        case isFalse hkey => exact ⟨hkey, Option.some.inj hpixel⟩
      refine ⟨hv, y - S.y.toNat, x - S.x.toNat, by omega, by omega, htile.1, ?_⟩
      rw [Nat.add_sub_cancel' hy, Nat.add_sub_cancel' hx, htile.2]

/-- A frame pixel after writes of single bytes: the last write there, or the old pixel. -/
theorem State.fb_writeCells {s : State} (hl : s.params.Legal) (ws : List Host.Cell) {y x : Nat} (hy : y < s.params.fbH)
    (hx : x < s.params.fbW) : (s.writeCells ws).fb y x = (Memory.lookup ws.reverse (fbAddr s.params y x)).getD (s.fb y x) :=
  State.readByte_writeCells (romByte_of_ram hl (r := .fbRam) rfl (fbAddr_in_frame hy hx)) ws

/-- Settles O35: the last write to a pixel is that of the highest slot that writes it (`Memory.lookup_reverse_flatMap`), and a slot's
cells are its pixels (`lookup_spriteCells`). -/
theorem highestSlotWinsEveryPixel : Obligations.HighestSlotWinsEveryPixel := by
  intro s hl hin
  have hexec := exec_drawSprites_of_inside hin
  refine ⟨_, hexec, fun y x hy hx => ?_, ?_⟩
  · have hslots : s.sprites.reverse.findSome? (fun S => Memory.lookup (s.spriteCells S).reverse (fbAddr s.params y x)) =
        s.sprites.reverse.findSome? (spritePixel s y x) :=
      findSome?_congr_of_mem fun S hS => lookup_spriteCells (hin S (List.mem_reverse.mp hS)) hx
    rw [State.fb_writeCells hl _ hy hx, Memory.lookup_reverse_flatMap, hslots]
  · exact frame_of_no_fault hexec rfl

/-! ### The pixels of text (R255 to R257) -/

/-- DRAW_OVERLAY draws all characters when the text is inside or empty. -/
theorem exec_drawOverlay_of_inside {s : State} (h : ¬ textOutside s) :
    exec .drawOverlay s = .next (s.writeCells ((List.range s.ovl.textLen.toNat).flatMap s.glyphCells)) := by
  rw [exec, execDrawOverlay, if_neg (mt (overlay_outOfBounds_iff_textOutside s).mp h)]

/-- A character is byte j mod 4 of the register TEXT(j div 4) (10_state.md R28). -/
theorem overlay_char_eq (s : State) {j : Nat} (hj : j < 16) :
    s.ovl.char j = (s.readReg (textReg (j / 4))).extractLsb' (8 * (j % 4)) 8 := by
  unfold Overlay.char
  obtain h | h | h | h : j / 4 = 0 ∨ j / 4 = 1 ∨ j / 4 = 2 ∨ j / 4 = 3 := by omega
  all_goals rw [h]
  all_goals rfl

/-- The character as the statements compute it from the register. -/
theorem character_eq (s : State) {j : Nat} (hj : j < 16) : character s j = (s.ovl.char j).toNat := by
  rw [character, overlay_char_eq s hj, BitVec.extractLsb'_toNat, Nat.shiftRight_eq_div_pow, Nat.pow_mul,
    show (256 : Nat) = 2 ^ 8 from rfl]

/-- A bit of a glyph as a digit of its row byte. -/
theorem glyphBit_iff (s : State) {j : Nat} (hj : j < 16) (r c : Nat) :
    s.glyphBit j r c = true ↔ (s.font (character s j) r).toNat / 2 ^ c % 2 = 1 := by
  rw [State.glyphBit, character_eq s hj, BitVec.getLsbD, Nat.testBit_eq_decide_div_mod_eq, decide_eq_true_eq]

/-- FG_COLOR is the low byte of OVL_CTRL. -/
theorem State.ovlCtrl_toNat (s : State) : (s.readReg .ovlCtrl).toNat = s.ovl.fgColor.toNat + 2 ^ 16 * s.ovl.textLen.toNat := by
  simp only [State.readReg, toNat_append_eq]
  simp
  omega

section
variable {s : State}

/-- A cell of the text at a pixel's offset is one of a set glyph bit on that pixel, when the text is inside the frame. -/
theorem textPixel_of_mem_glyphCells (hlen : s.ovl.textLen.toNat ≤ 16) (hin : ¬ textOutside s) {y x : Nat} (hx : x < s.params.fbW)
    {c : Host.Cell} (hc : c ∈ (List.range s.ovl.textLen.toNat).flatMap s.glyphCells) (hca : c.1 = fbAddr s.params y x) :
    textPixel s y x ∧ c.2 = s.ovl.fgColor := by
  obtain ⟨j, hj, hc⟩ := List.mem_flatMap.mp hc
  rw [List.mem_range] at hj
  obtain ⟨r, q, hr, hq, hbit, rfl⟩ := mem_glyphCells.mp hc
  simp only [glyphH, glyphW] at hr hq hca
  have hqx : s.ovl.x.toNat + 8 * j + q < s.params.fbW := by
    unfold textOutside at hin
    omega
  obtain ⟨rfl, rfl⟩ := fbAddr_inj hqx hx hca
  exact ⟨⟨j, r, q, hj, hr, hq, rfl, rfl, (glyphBit_iff s (by omega) r q).mp hbit⟩, rfl⟩

/-- A pixel of the text has a cell. -/
theorem mem_glyphCells_of_textPixel (hlen : s.ovl.textLen.toNat ≤ 16) {y x : Nat} (h : textPixel s y x) :
    (fbAddr s.params y x, s.ovl.fgColor) ∈ (List.range s.ovl.textLen.toNat).flatMap s.glyphCells := by
  obtain ⟨j, r, q, hj, hr, hq, rfl, rfl, hbit⟩ := h
  exact List.mem_flatMap.mpr ⟨j, List.mem_range.mpr hj, mem_glyphCells.mpr ⟨r, q, hr, hq, (glyphBit_iff s (by omega) r q).mpr hbit, rfl⟩⟩

end

/-- Settles O37: the cells of the text name exactly the pixels of set glyph bits, all with FG_COLOR. -/
theorem overlaySetsOnlyGlyphPixels : Obligations.OverlaySetsOnlyGlyphPixels := by
  intro s hl hlen hin
  have hexec := exec_drawOverlay_of_inside hin
  refine ⟨_, hexec, fun y x hy hx => ?_, ?_⟩
  · have hcell := fun c hc => textPixel_of_mem_glyphCells hlen hin (y := y) hx (c := c) (List.mem_reverse.mp hc)
    rw [State.fb_writeCells hl _ hy hx]
    refine ⟨fun htext => ?_, fun hno => ?_⟩
    · rw [Memory.lookup_eq_some_of_unique (List.mem_reverse.mpr (mem_glyphCells_of_textPixel hlen htext)) fun c hc hca => (hcell c hc hca).2,
        Option.getD_some, State.ovlCtrl_toNat]
      omega
    · rw [Memory.lookup_eq_none_of_absent fun c hc hca => hno (hcell c hc hca).1, Option.getD_none]
  · exact frame_of_no_fault hexec rfl

end Sys2Proof.Machine
end

section
/-! SUPPORT. RENDER_AUDIO and the video commands share no state (60_exceptions.md section 5): writes of different bytes commute, the
rendered frame lies outside what a video command reads, and a video command writes outside what RENDER_AUDIO reads. -/

namespace Sys2Proof.Machine

open Sys2Proof.Machine.Claims

/-! ### Writes of different bytes commute -/

/-- Writes of two blocks that do not meet, in either order, leave the same canonical list. -/
theorem Memory.write_comm {m : Memory} (hm : m.wf) {a b : Nat} {as bs : List Byte}
    (h : a + as.length ≤ b ∨ b + bs.length ≤ a) : (m.write a as).write b bs = (m.write b bs).write a as := by
  refine Memory.eq_of_lookup (Memory.write_wf (Memory.write_wf hm a as) b bs) (Memory.write_wf (Memory.write_wf hm b bs) a as)
    fun x => ?_
  simp only [Memory.lookup_write]
  split_ifs
  case pos => omega
  all_goals rfl

/-- Single-byte writes outside a block commute with the write of the block. -/
theorem Memory.writeCells_write_comm {a : Nat} {as : List Byte} {ws : List Host.Cell}
    (h : ∀ w ∈ ws, ¬ (a ≤ w.1 ∧ w.1 < a + as.length)) {m : Memory} (hm : m.wf) :
    (m.write a as).writeCells ws = (m.writeCells ws).write a as := by
  induction ws generalizing m with
  | nil => rfl
  | cons w ws ih =>
    have hw := h w (by simp)
    rw [Memory.writeCells_cons, Memory.writeCells_cons, Memory.write_comm hm (by simp only [List.length_singleton]; omega)]
    exact ih (fun v hv => h v (by simp [hv])) (Memory.write_wf hm w.1 [w.2])

/-! ### What RENDER_AUDIO leaves to the video commands -/

section
variable {s : State}

/-- A frame changes no byte outside the window of AUD_RAM. -/
theorem State.readByte_rendered_outside (hl : s.params.Legal) {x : Nat} (hx : x < 0x00100000 ∨ 0x00200000 ≤ x) :
    s.rendered.readByte x = s.readByte x := by
  have hframes : s.params.frameSamples ≤ 262144 := hl.2.2.2.2.2.1.2
  obtain ⟨-, hbyte, -⟩ := frame_rendered s
  refine hbyte x fun hin => ?_
  simp only [commandBytes] at hin
  omega

/-- The background is as before a frame. -/
theorem State.compositedFrame_rendered (hl : s.params.Legal) : s.rendered.compositedFrame = s.compositedFrame := by
  have hbg : ∀ y x, s.rendered.bg y x = s.bg y x := fun y x => State.readByte_rendered_outside hl <| by
    simp only [bgAddr, Region.base]
    omega
  unfold State.compositedFrame
  simp only [hbg]
  rfl

/-- The tiles are as before a frame. -/
theorem State.spriteCells_rendered (hl : s.params.Legal) (S : Sprite) : s.rendered.spriteCells S = s.spriteCells S := by
  have htile : ∀ r c, s.rendered.tilePixel S r c = s.tilePixel S r c := fun r c => State.readByte_rendered_outside hl <| by
    simp only [Region.base]
    omega
  unfold State.spriteCells
  simp only [htile]
  rfl

/-- The glyphs are as before a frame. -/
theorem State.glyphCells_rendered (hl : s.params.Legal) (j : Nat) : s.rendered.glyphCells j = s.glyphCells j := by
  have hfont : ∀ r, r < glyphH → s.rendered.font (s.ovl.char j).toNat r = s.font (s.ovl.char j).toNat r := fun r hr =>
    State.readByte_rendered_outside hl <| by
      have hchar := (s.ovl.char j).isLt
      simp only [Region.base, glyphH] at hr ⊢
      omega
  refine List.flatMap_congr fun r hr => ?_
  refine List.filterMap_congr fun c _ => ?_
  have hbit : s.rendered.glyphBit j r c = s.glyphBit j r c :=
    congrArg (fun b : Byte => b.getLsbD c) (hfont r (List.mem_range.mp hr))
  rw [hbit]
  rfl

/-! ### What a video command leaves to RENDER_AUDIO -/

/-- A frame after single-byte writes to FB_RAM is the frame before them, over the written memory. -/
theorem State.Inv.rendered_writeCells (h : s.Inv) {ws : List Host.Cell} (hws : ∀ w ∈ ws, Region.fbRam.Holds s.params w.1) :
    (s.writeCells ws).rendered = s.rendered.writeCells ws := by
  have hfx : ∀ x, Region.fxRam.Holds s.params x → (s.writeCells ws).readByte x = s.readByte x := fun x hx =>
    State.readByte_writeCells_outside fun w hw e => by
      have hregion := Region.holds_unique h.legal hx (e ▸ hws w hw)
      cases hregion
  rw [State.rendered_congr (t := s.writeCells ws) h.fx_len rfl rfl rfl rfl hfx]
  have hout : ∀ w ∈ ws, ¬ (Region.audRam.base ≤ w.1 ∧
      w.1 < Region.audRam.base + (s.renderSamples s.params.frameSamples s.mixer).1.length) := fun w hw hin => by
    rw [State.renderedBytes_length] at hin
    have hregion := Region.holds_unique h.legal (hws w hw) (q := .audRam) hin
    cases hregion
  simp only [State.rendered, State.writeCells, State.afterRender, Memory.writeCells_write_comm hout h.mem_wf]

/-- A frame after a block write to FB_RAM is the frame before it, over the written memory. -/
theorem State.Inv.rendered_memWrite (h : s.Inv) (bs : List Byte) :
    (s.memWrite Region.fbRam.base bs).rendered = s.rendered.memWrite Region.fbRam.base bs := by
  have hfx : ∀ x, Region.fxRam.Holds s.params x → (s.memWrite Region.fbRam.base bs).readByte x = s.readByte x := fun x hx =>
    State.readByte_memWrite_outside fun hin => by
      have hsize := Region.size_le_window h.legal .fxRam
      simp only [Region.Holds, Region.base, Region.window] at hx hin hsize
      omega
  rw [State.rendered_congr (t := s.memWrite Region.fbRam.base bs) h.fx_len rfl rfl rfl rfl hfx]
  have hbelow : Region.audRam.base + (s.renderSamples s.params.frameSamples s.mixer).1.length ≤ Region.fbRam.base := by
    have hsize := Region.size_le_window h.legal .audRam
    rw [State.renderedBytes_length]
    simp only [Region.base, Region.window, Region.size] at hsize ⊢
    omega
  simp only [State.rendered, State.memWrite, State.afterRender, Memory.write_comm h.mem_wf (.inl hbelow)]

end

/-! ### Runs without a fault -/

/-- RENDER_AUDIO that leaves no fault recorded renders the frame, and found none recorded. -/
theorem exec_renderAudio_without_fault {s t : State} (h : exec .renderAudio s = .next t) (hfault : t.faultRec = none) :
    (∀ G ∈ s.gens, ¬ zeroDivisor G) ∧ t = s.rendered := by
  have hgens : ∀ G ∈ s.gens, ¬ zeroDivisor G := fun G hG hz => by
    simp only [exec, execRenderAudio] at h
    split at h
    case h_1 =>
      obtain rfl := Host.Outcome.next.inj h
      simp at hfault
    case h_2 hnone =>
      have hcheck := List.findIdx?_eq_none_iff.mp hnone G hG
      rw [(wouldDivideByZero_iff G).mpr hz] at hcheck
      cases hcheck
  exact ⟨hgens, Host.Outcome.next.inj (h.symm.trans (exec_renderAudio_eq_rendered hgens))⟩

/-- DRAW_SPRITES that leaves no fault recorded found every sprite inside. -/
theorem exec_drawSprites_without_fault {s t : State} (h : exec .drawSprites s = .next t) (hfault : t.faultRec = none) :
    ∀ S ∈ s.sprites, ¬ spriteOutside s.params S := fun S hS hout => by
  simp only [exec, execDrawSprites] at h
  split at h
  case h_1 =>
    obtain rfl := Host.Outcome.next.inj h
    simp at hfault
  case h_2 hnone =>
    have hcheck := List.findIdx?_eq_none_iff.mp hnone S hS
    rw [(sprite_outOfBounds_iff s.params S).mpr hout] at hcheck
    cases hcheck

/-- DRAW_OVERLAY that leaves no fault recorded found the text inside. -/
theorem exec_drawOverlay_without_fault {s t : State} (h : exec .drawOverlay s = .next t) (hfault : t.faultRec = none) :
    ¬ textOutside s := fun hout => by
  obtain rfl := Host.Outcome.next.inj ((exec_drawOverlay_of_textOutside hout).symm.trans h)
  simp at hfault

/-- A command keeps a recorded fault. -/
theorem exec_faultRec {i : Instr} {s t : State} (h : exec i s = .next t) (hfault : t.faultRec = none) : s.faultRec = none := by
  by_contra hne
  obtain ⟨hnone, -⟩ := faultingCommandChangesOnlyTheRecord i s t h (hfault ▸ Ne.symm hne)
  exact hne hnone

/-- A video command that leaves no fault after a frame does before it what it does after it, over the other memory. -/
theorem exec_video_rendered {s t : State} {i : Instr} (h : s.Inv) (hi : isVideo i) (he : exec i s.rendered = .next t)
    (hfault : t.faultRec = none) : ∃ u, exec i s = .next u ∧ u.gens = s.gens ∧ u.rendered = t := by
  obtain rfl | rfl | rfl := hi
  · refine ⟨_, rfl, rfl, ?_⟩
    rw [h.rendered_memWrite, ← State.compositedFrame_rendered h.legal]
    exact Host.Outcome.next.inj he
  · have hin : ∀ S ∈ s.sprites, ¬ spriteOutside s.params S :=
      exec_drawSprites_without_fault (s := s.rendered) he hfault
    have hcells : s.rendered.sprites.flatMap s.rendered.spriteCells = s.sprites.flatMap s.spriteCells :=
      List.flatMap_congr fun S _ => State.spriteCells_rendered h.legal S
    refine ⟨_, exec_drawSprites_of_inside hin, rfl, ?_⟩
    rw [h.rendered_writeCells fun w hw => sprites_in_frame (findIdx?_outOfBounds_eq_none hin) hw, ← hcells]
    exact Host.Outcome.next.inj ((exec_drawSprites_of_inside (s := s.rendered) hin).symm.trans he)
  · have hin : ¬ textOutside s := exec_drawOverlay_without_fault (s := s.rendered) he hfault
    have hbox : s.ovl.outOfBounds s.params = false := Bool.eq_false_iff.mpr (mt (overlay_outOfBounds_iff_textOutside s).mp hin)
    have hcells : (List.range s.rendered.ovl.textLen.toNat).flatMap s.rendered.glyphCells =
        (List.range s.ovl.textLen.toNat).flatMap s.glyphCells :=
      List.flatMap_congr fun j _ => State.glyphCells_rendered h.legal j
    refine ⟨_, exec_drawOverlay_of_inside hin, rfl, ?_⟩
    rw [h.rendered_writeCells fun w hw => text_in_frame hbox hw, ← hcells]
    exact Host.Outcome.next.inj ((exec_drawOverlay_of_inside (s := s.rendered) hin).symm.trans he)

/-- Settles O38: without a fault the first order renders and then draws, and the drawing before the frame leaves the same
(`exec_video_rendered`). -/
theorem audioAndVideoCommute : Obligations.AudioAndVideoCommute := by
  intro s t₁ t₂ u₁ u₂ i h hi ht₁ ht₂ hu₁ hu₂ hfault
  obtain ⟨hgens, rfl⟩ := exec_renderAudio_without_fault ht₁ (exec_faultRec ht₂ hfault)
  obtain ⟨u, hu, hbank, hsame⟩ := exec_video_rendered h hi ht₂ hfault
  obtain rfl : u₁ = u := Host.Outcome.next.inj (hu₁.symm.trans hu)
  rw [exec_renderAudio_eq_rendered (hbank ▸ hgens), hsame] at hu₂
  exact Host.Outcome.next.inj hu₂

end Sys2Proof.Machine
end

section
/-! SUPPORT. Register writes bit by bit (46_control.md R286): the RW bits of a register take the written value, the others stay. -/

namespace Sys2Proof.Machine

open Sys2Proof.Machine.Claims

/-! ### Bits under a mask -/

/-- The bits of `v` under the mask, the others from `x`. -/
def mergeBits {n : Nat} (m x v : BitVec n) : BitVec n := (x &&& ~~~m) ||| (v &&& m)

theorem mergeBits_zero {n : Nat} (x v : BitVec n) : mergeBits 0#n x v = x := by simp [mergeBits]

theorem mergeBits_allOnes {n : Nat} (x v : BitVec n) : mergeBits (BitVec.allOnes n) x v = v := by simp [mergeBits]

/-- Fields side by side are merged one by one. -/
theorem mergeBits_append {k n : Nat} (m x v : BitVec k) (m' x' v' : BitVec n) :
    mergeBits (m ++ m') (x ++ x') (v ++ v') = mergeBits m x v ++ mergeBits m' x' v' := by
  simp only [mergeBits, BitVec.not_append, BitVec.and_append, BitVec.or_append]

/-- A written word as its two 16-bit fields. -/
theorem halves_append (v : Word) : highHalf v ++ lowHalf v = v := by
  apply BitVec.eq_of_toNat_eq
  simp only [toNat_append_eq, highHalf, lowHalf, BitVec.extractLsb'_toNat, Nat.shiftRight_eq_div_pow]
  omega

/-- A written word as the fields of SPR_CTRL: reserved, KEY, reserved, VISIBLE. -/
theorem sprCtrl_fields_append (v : Word) :
    v.extractLsb' 16 16 ++ v.extractLsb' 8 8 ++ v.extractLsb' 1 7 ++ BitVec.ofBool (v.getLsbD 0) = v := by
  have hvisible : BitVec.ofBool (v.getLsbD 0) = v.extractLsb' 0 1 := by
    ext i hi
    obtain rfl : i = 0 := by omega
    simp
  apply BitVec.eq_of_toNat_eq
  simp only [hvisible, toNat_append_eq, BitVec.extractLsb'_toNat, Nat.shiftRight_eq_div_pow]
  omega

/-! ### Registers -/

/-- A 16-bit field alone in its register takes the low half of the written word. -/
theorem mergeBits_lowHalf (lo : Half) (v : Word) : mergeBits 0x0000FFFF (pack16 0 lo) v = pack16 0 (lowHalf v) := by
  have hmerge := mergeBits_append 0#16 0#16 (highHalf v) (BitVec.allOnes 16) lo (lowHalf v)
  rw [halves_append, mergeBits_zero, mergeBits_allOnes] at hmerge
  exact hmerge

/-- A generator's register after a write. -/
theorem Generator.write_same (G : Generator) (v : Word) (g : Nat) (q : GenReg) :
    (G.write v q).read q = mergeBits (storedBits (.gen g q)) (G.read q) v := by
  cases q with
  | genCtrl | envAmp => exact (mergeBits_zero _ v).symm
  | phase | phaseDelta | phaseDDelta => exact (mergeBits_allOnes _ v).symm
  | vol => exact (mergeBits_lowHalf G.vol v).symm
  | volDelta => exact (mergeBits_lowHalf G.volDelta v).symm
  | gain => exact (halves_append v).trans (mergeBits_allOnes _ v).symm

/-- A sprite's register after a write. -/
theorem Sprite.write_same (S : Sprite) (v : Word) (i : Nat) (q : SprReg) :
    (S.write v q).read q = mergeBits (storedBits (.spr i q)) (S.read q) v := by
  cases q with
  | sprCtrl =>
    have hmerge := mergeBits_append (0#16 ++ BitVec.allOnes 8 ++ 0#7) (0#16 ++ S.key ++ 0#7)
      (v.extractLsb' 16 16 ++ v.extractLsb' 8 8 ++ v.extractLsb' 1 7) (BitVec.allOnes 1) (BitVec.ofBool S.visible)
      (BitVec.ofBool (v.getLsbD 0))
    rw [sprCtrl_fields_append, mergeBits_append, mergeBits_append, mergeBits_zero, mergeBits_zero, mergeBits_allOnes,
      mergeBits_allOnes] at hmerge
    exact hmerge.symm
  | sprPos | sprSize => exact (halves_append v).trans (mergeBits_allOnes _ v).symm
  | sprTile => exact (mergeBits_allOnes _ v).symm

/-- A register other than CMD, FX_LEN and OVL_CTRL after a write to it; a generator's or a sprite's must exist. -/
theorem State.writeReg_same {s : State} (v : Word) {r : Reg} (hgen : ∀ g q, r = .gen g q → g < s.gens.length)
    (hspr : ∀ i q, r = .spr i q → i < s.sprites.length) (hcmd : r ≠ .cmd) (hfx : r ≠ .fxLen) (hovl : r ≠ .ovlCtrl) :
    (s.writeReg v r).readReg r = mergeBits (storedBits r) (s.readReg r) v := by
  cases r with
  | cmd => exact absurd rfl hcmd
  | fxLen => exact absurd rfl hfx
  | ovlCtrl => exact absurd rfl hovl
  | gen g q =>
    have hG := List.getElem?_eq_getElem (hgen g q rfl)
    rw [State.writeReg, State.readReg_modifyGen hG, State.readReg_gen hG]
    exact Generator.write_same _ v g q
  | spr i q =>
    have hlt := hspr i q rfl
    have hS : s.sprites[i]? = some s.sprites[i] := List.getElem?_eq_getElem hlt
    have hS' : (s.sprites.modify i fun S => S.write v q)[i]? = some (s.sprites[i].write v q) := by
      rw [List.getElem?_modify_eq, hS]
      rfl
    simp only [State.writeReg, State.readReg, hS, hS']
    exact Sprite.write_same _ v i q
  | frameIndex | text0 | text1 | text2 | text3 => exact (mergeBits_allOnes _ v).symm
  | ovlPos => exact (halves_append v).trans (mergeBits_allOnes _ v).symm
  | _ => exact (mergeBits_zero _ v).symm

end Sys2Proof.Machine
end

section
/-! SUPPORT. Accesses with a good address (46_control.md R282, R285, R286): idle reads and writes of registers and memories, and what
a busy block allows. -/

namespace Sys2Proof.Machine

open Sys2Proof.Machine.Claims

/-! ### Good addresses -/

/-- A good address passes the address checks. -/
theorem addressError_of_good {p : Params} (hl : p.Legal) {a : HostAccess} (h : ¬ badAddress p a) : a.addressError p = false :=
  Bool.eq_false_iff.mpr (mt (addressError_iff hl a).mp h)

/-- No memory byte is below the ROM windows. -/
theorem le_of_memoryRange {p : Params} {a : Nat} (h : romRange p a ∨ ramRange p a) : 0x00010000 ≤ a := by
  unfold romRange ramRange at h
  omega

/-- A good address in REGS is that of a register. -/
theorem exists_regAt_of_good {p : Params} (hl : p.Legal) {a : HostAccess} (h : ¬ badAddress p a) (hregs : a.offset.toNat < 0x1000) :
    ∃ r, regAt p a.offset.toNat = some r := by
  have hwidth : a.width = .w32 := by
    by_contra hw
    exact h (.inl ⟨hregs, hw⟩)
  have halign : a.offset.toNat % 4 = 0 := by
    by_contra hmis
    exact h (.inr (.inl (by rwa [hwidth])))
  have hbyte : registerByte p a.offset.toNat := by
    by_contra hreg
    refine h (.inr (.inr (.inl ⟨0, by rw [hwidth]; decide, fun hmapped => ?_⟩)))
    have := le_of_memoryRange (hmapped.resolve_left hreg)
    omega
  have hword := (regAt_word_isSome hl _).mpr hbyte
  rw [show a.offset.toNat / 4 * 4 = a.offset.toNat by omega] at hword
  exact Option.isSome_iff_exists.mp hword

/-- A good address of a write is one of a read. -/
theorem good_read_of_good_write {p : Params} {off : Word} {n : Width} {v : Word} (h : ¬ badAddress p (.write off n v)) :
    ¬ badAddress p (.read off n) := by
  rintro (hwidth | halign | hmapped | ⟨hwrite, -⟩)
  · exact h (.inl hwidth)
  · exact h (.inr (.inl halign))
  · exact h (.inr (.inr (.inl hmapped)))
  · cases hwrite

/-! ### Idle reads -/

/-- No register shows what the host still has to do. -/
theorem State.readReg_inputs (s : State) (es : List Event) (r : Reg) : ({ s with inputs := es } : State).readReg r = s.readReg r := by
  cases r <;> rfl

/-- What a read returns does not depend on what the host still has to do. -/
theorem State.hostRead_inputs (s : State) (es : List Event) (off : Nat) (n : Width) :
    ({ s with inputs := es } : State).hostRead off n = s.hostRead off n := by
  have hmem : ({ s with inputs := es } : State).memRead off n.bytes = s.memRead off n.bytes := State.memRead_congr fun _ _ => rfl
  unfold State.hostRead
  rw [hmem]
  simp only [State.readReg_inputs]

/-- A good read of an idle block changes the reply only. -/
theorem step_idle_read {s : State} {off : Word} {n : Width} {rest : List Event} (hl : s.params.Legal) (hp : s.pending = none)
    (hi : s.inputs = .access (.read off n) :: rest) (hgood : (HostAccess.read off n).addressError s.params = false) :
    step s = .next { s with inputs := rest, hostData := s.hostRead off.toNat n } := by
  have hfault : ({ s with inputs := rest } : State).accessFault (.read off n) = none := State.accessFault_idle hp hgood
  rw [step_access hl hi]
  unfold State.hostAccess
  rw [hfault]
  simp only [State.hostRead_inputs]

/-- The bytes of a read as a number are below the power of its width. -/
theorem State.memRead_lt (s : State) (a n : Nat) : s.memRead a n < 256 ^ n := by
  induction n generalizing a with
  | zero => exact Nat.one_pos
  | succ n ih =>
    have hbyte := (s.readByte a).isLt
    have hrest := ih (a + 1)
    rw [State.memRead, Nat.pow_succ']
    omega

/-- The bytes of a read as digits, little-endian. -/
theorem State.memRead_digit (s : State) (a : Nat) {n i : Nat} (hi : i < n) :
    s.memRead a n / 256 ^ i % 256 = (s.readByte (a + i)).toNat := by
  induction n generalizing a i with
  | zero => omega
  | succ n ih =>
    have hbyte := (s.readByte a).isLt
    rw [State.memRead]
    cases i with
    | zero =>
      simp only [Nat.pow_zero, Nat.div_one, Nat.add_zero]
      omega
    | succ i =>
      rw [Nat.pow_succ', ← Nat.div_div_eq_div_mul, Nat.add_mul_div_left _ _ (by decide), Nat.div_eq_of_lt hbyte, Nat.zero_add,
        ih (a + 1) (by omega), Nat.add_right_comm, Nat.add_assoc]

/-- No access is wider than a register. -/
theorem Width.pow_bytes_le (n : Width) : 256 ^ n.bytes ≤ 2 ^ 32 := by cases n <;> decide

/-- A read of a memory as a number: no bit of it is lost in the reply. -/
theorem State.hostRead_memory_toNat {s : State} (hl : s.params.Legal) {off : Nat} (n : Width) (h : 0x1000 ≤ off) :
    (s.hostRead off n).toNat = s.memRead off n.bytes := by
  rw [State.hostRead_memory hl h, BitVec.toNat_ofNat, Nat.mod_eq_of_lt ((s.memRead_lt off n.bytes).trans_le n.pow_bytes_le)]

/-- Settles O58: the reply is the register at the offset, or the bytes there as a number. -/
theorem idleReadReturnsWhatIsThere : Obligations.IdleReadReturnsWhatIsThere := by
  intro s off n rest hl hp hi hgood
  refine ⟨_, step_idle_read hl hp hi (addressError_of_good hl hgood), fun hregs => ?_, ?_, ?_, ?_, fun hmem => ?_⟩
  · obtain ⟨r, hr⟩ := exists_regAt_of_good hl hgood hregs
    exact ⟨r, hr, State.hostRead_register hl hr⟩
  · rintro rfl
    exact State.hostRead_register (r := .cmd) hl rfl
  · rintro rfl
    exact State.hostRead_register (r := .fxLen) hl rfl
  · rintro rfl
    rw [State.hostRead_register (r := .ovlCtrl) hl rfl, State.ovlCtrl_toNat]
  · rw [State.hostRead_memory_toNat hl n hmem]
    exact ⟨s.memRead_lt .., fun i hi => s.memRead_digit _ hi⟩

/-! ### Idle writes -/

/-- A good write of an idle block outside REGS stores its bytes. -/
theorem step_idle_memory_write {s : State} {off : Word} {n : Width} {v : Word} {rest : List Event} (hl : s.params.Legal)
    (hp : s.pending = none) (hi : s.inputs = .access (.write off n v) :: rest)
    (hgood : (HostAccess.write off n v).addressError s.params = false) (hmem : 0x1000 ≤ off.toNat) :
    step s = .next (({ s with inputs := rest } : State).memWrite off.toNat (bytesLE v.toNat n.bytes)) := by
  have hfault : ({ s with inputs := rest } : State).accessFault (.write off n v) = none := State.accessFault_idle hp hgood
  rw [step_access hl hi]
  unfold State.hostAccess
  rw [hfault]
  exact congrArg _ (State.hostWrite_memory hl hmem)

/-- The bytes of a write to RAM are read back. -/
theorem State.readByte_memWrite_bytesLE {s : State} {a v n i : Nat} (hi : i < n) (hrom : romByte s.params (a + i) = none) :
    ((s.memWrite a (bytesLE v n)).readByte (a + i)).toNat = v / 256 ^ i % 256 := by
  obtain ⟨hlt, hbyte⟩ := List.getElem?_eq_some_iff.mp (bytesLE_getElem? v n i hi)
  rw [State.readByte_memWrite_inside hlt hrom, hbyte, BitVec.toNat_ofNat]

/-- Settles O42: a good write outside REGS falls in RAM (`accessFault_none_write`), where its bytes are read back. -/
theorem ramWriteIsReadBack : Obligations.RamWriteIsReadBack := by
  intro s off n v rest hl hp hi hgood hmem
  have ha := addressError_of_good hl hgood
  have hregs : regOfOffset s.params off.toNat = none := by rw [regOfOffset_eq hl, if_neg (by omega)]
  have hrom : ∀ i, i < n.bytes → romByte s.params (off.toNat + i) = none := fun i hi => by
    obtain ⟨r, hram, hr⟩ := accessFault_none_write hl (State.accessFault_idle hp ha) hregs i hi
    exact romByte_of_ram hl hram hr
  have hwrite := step_idle_memory_write hl hp hi ha hmem
  obtain ⟨t, ht⟩ : ∃ t, t = State.memWrite { s with inputs := .access (.read off n) :: rest } off.toNat (bytesLE v.toNat n.bytes) :=
    ⟨_, rfl⟩
  have hwritten : ∀ i, i < n.bytes → (t.readByte (off.toNat + i)).toNat = v.toNat / 256 ^ i % 256 := fun i hi => by
    rw [ht]
    exact State.readByte_memWrite_bytesLE hi (hrom i hi)
  have hlt : t.params.Legal := ht ▸ hl
  have hread := step_idle_read (s := t) hlt (ht ▸ hp) (congrArg State.inputs ht)
    (congrArg State.params ht ▸ addressError_of_good hl (good_read_of_good_write hgood))
  refine ⟨t, _, ht ▸ hwrite, hwritten, fun x hx => ?_, fun r => ?_, hread, ?_, rfl⟩
  · rw [← bytesLE_length v.toNat n.bytes] at hx
    rw [ht]
    exact State.readByte_memWrite_outside hx
  · rw [ht]
    exact State.memWrite_readReg ..
  · exact (State.hostRead_memory_toNat hlt n hmem).trans (State.memRead_of_bytes _ _ _ hwritten)

/-- Settles O43: the write stores the RW bits (`State.writeReg_same`) and leaves the rest (`State.writeReg_reads_same`), and the read
that follows returns the register. -/
theorem registerWriteStoresTheWritableBits : Obligations.RegisterWriteStoresTheWritableBits := by
  intro s off v r rest hl hgens hsprites hp hi hr hcmd hfx hovl
  have hgen : ∀ g q, r = .gen g q → g < s.gens.length := by
    rintro g q rfl
    obtain hglobal | ⟨g', q', -, he, hg, -⟩ | ⟨_, _, _, he, -⟩ := regAt_cases hr
    · simp [globalMap] at hglobal
    · cases he
      rwa [hgens]
    · cases he
  have hspr : ∀ i q, r = .spr i q → i < s.sprites.length := by
    rintro i q rfl
    obtain hglobal | ⟨_, _, _, he, -⟩ | ⟨i', q', -, he, hi', -⟩ := regAt_cases hr
    · simp [globalMap] at hglobal
    · cases he
    · cases he
      rwa [hsprites]
  obtain ⟨hother, hbyte⟩ := State.writeReg_reads_same s (.access (.read off .w32) :: rest) v r
  refine ⟨_, step_register_write hl hp hi hr hcmd, State.writeReg_same v hgen hspr hcmd hfx hovl, hother, hbyte, ?_⟩
  obtain ⟨hparams, -, -, hpending, -, hinputs, -⟩ := State.writeReg_frame { s with inputs := .access (.read off .w32) :: rest } v r
  rw [← hparams] at hl hr
  rw [step_idle_read hl (hpending.trans hp) hinputs (addressError_register hl hr rfl), State.hostRead_register hl hr]

/-- Settles O45: the register shows the two stored fields as numbers, and the write leaves the rest. -/
theorem ovlCtrlStoresTheLegalTextLength : Obligations.OvlCtrlStoresTheLegalTextLength := by
  intro s v rest hl hp hi
  refine ⟨_, step_register_write (r := .ovlCtrl) hl hp hi rfl (by decide), ?_, State.writeReg_reads_same s rest v .ovlCtrl⟩
  rw [State.ovlCtrl_toNat]
  simp only [State.writeReg, legalTextLen_toNat, BitVec.extractLsb'_toNat, Nat.shiftRight_eq_div_pow, textMax]
  omega

/-! ### A busy block (R282) -/

/-- The global registers that a busy block lets the host read, by their offsets. -/
theorem globalMap_readableWhileBusy : ∀ c ∈ globalMap, c.2.readableWhileBusy = true ↔ busyReadable c.1 := by
  unfold busyReadable
  decide

/-- A register may be read while BUSY = 1 exactly at the offsets the statements name. -/
theorem readableWhileBusy_iff {p : Params} {off : Nat} {r : Reg} (hr : regAt p off = some r) :
    r.readableWhileBusy = true ↔ busyReadable off := by
  obtain hglobal | ⟨g, q, k, rfl, -, rfl, -⟩ | ⟨i, q, k, rfl, -, rfl, -⟩ := regAt_cases hr
  · exact globalMap_readableWhileBusy (off, r) hglobal
  all_goals
    simp only [Reg.readableWhileBusy, busyReadable, Bool.false_eq_true, false_iff]
    omega

/-- The accesses with a good address that a busy block allows. -/
theorem allowedWhileBusy_iff {p : Params} (hl : p.Legal) {a : HostAccess} (hgood : ¬ badAddress p a) :
    a.allowedWhileBusy p = true ↔ a.isWrite = false ∧ busyReadable a.offset.toNat := by
  rw [HostAccess.allowedWhileBusy, regOfOffset_eq hl]
  by_cases hregs : a.offset.toNat < 0x1000
  case pos =>
    obtain ⟨r, hr⟩ := exists_regAt_of_good hl hgood hregs
    simp [hregs, hr, readableWhileBusy_iff hr]
  case neg =>
    have hfar : ¬ busyReadable a.offset.toNat := by
      unfold busyReadable
      omega
    simp [hregs, hfar]

/-- Settles O40: an allowed read returns its register; any other good access fails the busy check, and with the fault recorded the
engine discards the command. -/
theorem busyBlockAllowsOnlyStatusReads : Obligations.BusyBlockAllowsOnlyStatusReads := by
  intro s a rest w hl hp hi hgood
  have haddress := addressError_of_good hl hgood
  have hbusy : s.busy = true := by rw [State.busy, hp]; rfl
  have hallowed := allowedWhileBusy_iff hl hgood
  refine ⟨fun hread => ?_, fun hother => ?_⟩
  · have hregs : a.offset.toNat < 0x1000 := by
      have := hread.2
      unfold busyReadable at this
      omega
    obtain ⟨r, hr⟩ := exists_regAt_of_good hl hgood hregs
    have hfault : ({ s with inputs := rest } : State).accessFault a = none := by
      rw [State.accessFault, if_neg (by simp [haddress]), if_neg (by simp [hallowed.mpr hread])]
    refine ⟨r, hr, ?_⟩
    rw [step_access hl hi]
    cases a with
    | write off n v => cases hread.1
    | read off n =>
      unfold State.hostAccess
      rw [hfault]
      simp only [State.hostRead_inputs, State.hostRead_register (off := off.toNat) (n := n) hl hr]
  · have hfault : s.accessFault a = some .busyAccess := by
      rw [State.accessFault, if_neg (by simp [haddress]), if_pos (by simp [hbusy, mt hallowed.mp hother])]
    refine ⟨_, step_access_refused hl hi hfault, rfl, fun rest' hnext => ?_⟩
    obtain ⟨f, hf⟩ : ∃ f, firstFault s.faultRec .busyAccess a.offset = some f := by
      cases s.faultRec <;> exact ⟨_, rfl⟩
    exact step_engine_of_fault hl hnext hf

end Sys2Proof.Machine
end

section
/-! SUPPORT. SETGEN (30_encoding.md R115): the step of one write to a generator's register, a list of them, and what the generator's
registers then read as. -/

namespace Sys2Proof.Machine

open Sys2Proof.Machine.Claims

/-! ### Runs, step by step -/

theorem reachesIn_zero (s : State) : reachesIn 0 s s := rfl

/-- A run whose first step answers a next state goes on from there. -/
theorem coreRun_succ {M : Host.Core} {s u : M.State} (hstep : M.step s = .next u) (k : Nat) : M.run (k + 1) s = M.run k u := by
  simp only [Host.Core.run, hstep]

/-- One step before the others. -/
theorem reachesIn_succ {s u t : State} {k : Nat} (hstep : step s = .next u) (hrest : reachesIn k u t) : reachesIn (k + 1) s t :=
  (coreRun_succ (M := Sys2Proof.core) hstep k).trans hrest

/-! ### Writes to a generator -/

/-- The register of a generator at its offset (10_state.md R30). -/
theorem regAt_genOffset {p : Params} (hl : p.Legal) {g k : Nat} {q : GenReg} (hg : g < p.ngen) (hk : genMap.lookup k = some q) :
    regAt p (Program.genOffset g k).toNat = some (.gen g q) := by
  obtain ⟨-, -, ⟨-, hngen⟩, -⟩ := hl
  have hmem : k < 0x20 := by
    have := mem_of_lookup _ hk
    simp only [genMap, List.mem_cons, Prod.mk.injEq, List.not_mem_nil, or_false] at this
    omega
  have hoff : (Program.genOffset g k).toNat = 0x100 + 0x20 * g + k := by
    rw [Program.genOffset, BitVec.toNat_ofNat]
    omega
  rw [hoff, regAt, if_neg (by omega), if_pos (by omega), show (0x100 + 0x20 * g + k - 0x100) % 0x20 = k by omega,
    show (0x100 + 0x20 * g + k - 0x100) / 0x20 = g by omega, hk]
  rfl

/-- A generator after a list of writes to its registers, each with its offset in the slot. -/
def Generator.writes (ws : List (Nat × GenReg × Word)) (G : Generator) : Generator := ws.foldl (fun G c => G.write c.2.2 c.2.1) G

/-- Two changes of one generator are one. -/
theorem State.modifyGen_modifyGen (s : State) (g : Nat) (f h : Generator → Generator) :
    (s.modifyGen g f).modifyGen g h = s.modifyGen g fun G => h (f G) := by
  have hbank : (s.gens.modify g f).modify g h = s.gens.modify g fun G => h (f G) := by
    apply List.ext_getElem?
    intro i
    simp only [List.getElem?_modify]
    split <;> simp [Function.comp_def]
  simp only [State.modifyGen, hbank]

/-- The event that writes a register at its offset in the slot of generator g. -/
def genWrite (g : Nat) (c : Nat × GenReg × Word) : Event := Program.wr32 (Program.genOffset g c.1) c.2.2

/-- In an idle block a list of writes to one generator takes one step each and changes that generator only. -/
theorem reachesIn_generator_writes {s : State} {g : Nat} {ws : List (Nat × GenReg × Word)} {rest : List Event} (hl : s.params.Legal)
    (hg : g < s.params.ngen) (hp : s.pending = none) (hmap : ∀ c ∈ ws, genMap.lookup c.1 = some c.2.1)
    (hi : s.inputs = ws.map (genWrite g) ++ rest) :
    reachesIn ws.length s (({ s with inputs := rest } : State).modifyGen g (Generator.writes ws)) := by
  induction ws generalizing s with
  | nil =>
    have hbank : s.gens.modify g (Generator.writes []) = s.gens := List.modify_id g s.gens
    have hkeep : ({ s with inputs := rest } : State).modifyGen g (Generator.writes []) = s := by
      rw [← show s.inputs = rest from hi, State.modifyGen, hbank]
    rw [hkeep]
    exact reachesIn_zero s
  | cons c ws ih =>
    have hstep := step_register_write hl hp hi (regAt_genOffset hl hg (hmap c List.mem_cons_self)) nofun
    have htail := ih (s := State.writeReg { s with inputs := ws.map (genWrite g) ++ rest } c.2.2 (.gen g c.2.1)) hl hg hp
      (fun d hd => hmap d (List.mem_cons_of_mem c hd)) rfl
    have hjoin := State.modifyGen_modifyGen { s with inputs := rest } g (fun G => G.write c.2.2 c.2.1) (Generator.writes ws)
    exact reachesIn_succ hstep (hjoin ▸ htail)

/-- The low half of two packed halves. -/
theorem lowHalf_pack16 (hi lo : Half) : lowHalf (pack16 hi lo) = lo := by
  apply BitVec.eq_of_toNat_eq
  rw [lowHalf, BitVec.extractLsb'_toNat, Nat.shiftRight_zero, pack16_toNat]
  omega

/-- The writes of SETGEN, each with its offset in the slot. -/
def setGenWrites (ph dph ddph : Word) (vol dvol divl divr : Half) : List (Nat × GenReg × Word) :=
  [(0x04, .phase, ph), (0x08, .phaseDelta, dph), (0x0C, .phaseDDelta, ddph), (0x10, .vol, pack16 0 vol),
   (0x14, .volDelta, pack16 0 dvol), (0x1C, .gain, pack16 divr divl)]

/-- Settles O56: six writes to one generator (`reachesIn_generator_writes`), which read back as the written fields. -/
theorem setGenLoadsTheGenerator : Obligations.SetGenLoadsTheGenerator := by
  intro s g ph dph ddph vol dvol divl divr rest hl hgens hg hp hi
  obtain ⟨G, hG⟩ := exists_gen hgens hg
  have hrun := reachesIn_generator_writes (ws := setGenWrites ph dph ddph vol dvol divl divr) hl hg hp
    (by unfold setGenWrites genMap; simp [List.lookup]) hi
  have hread := State.readReg_modifyGen (s := { s with inputs := rest }) hG
    (Generator.writes (setGenWrites ph dph ddph vol dvol divl divr))
  have hold := State.readReg_gen hG
  refine ⟨_, hrun, rfl, rfl, hread .phase, hread .phaseDelta, hread .phaseDDelta, ?_, ?_, ?_, fun r hr => ?_, ?_, ?_,
    State.readByte_congr rfl rfl rfl⟩
  · refine (congrArg BitVec.toNat (hread .vol)).trans ((pack16_zero_toNat _).trans ?_)
    exact congrArg BitVec.toNat (lowHalf_pack16 0 vol)
  · refine (congrArg BitVec.toNat (hread .volDelta)).trans ((pack16_zero_toNat _).trans ?_)
    exact congrArg BitVec.toNat (lowHalf_pack16 0 dvol)
  · refine (congrArg BitVec.toNat ((hread .gain).trans (halves_append _))).trans (pack16_toNat divr divl)
  · rw [State.modifyGen_readReg fun q hq => absurd hq (hr q), State.readReg_inputs]
  · exact (hread .genCtrl).trans (hold .genCtrl).symm
  · exact (hread .envAmp).trans (hold .envAmp).symm

end Sys2Proof.Machine
end

section
/-! SUPPORT. Runs of a host program as steps of the model (30_encoding.md R113): one event at a time, and the loop of WAIT. -/

namespace Sys2Proof.Machine

open Sys2Proof.Machine.Claims

/-! ### One event -/

/-- What one event does to the rest of a run, `es` being the events after it: the engine's turn, the program's next access, or a read of
STATUS in its WAIT. -/
inductive Program.Move (s : State) (es : List Event) : List Op → List Op → State → Prop
  | turn {ops : List Op} {u : State} (hturn : ({ s with inputs := es } : State).engineTurn = .next u) : Move s es ops ops u
  | access (a : HostAccess) (rest : List Op) : Move s es (.access a :: rest) rest (({ s with inputs := es } : State).hostAccess a)
  | pollBusy (w : Word) (rest : List Op) (hp : s.pending = some w) :
      Move s es (.wait :: rest) (.wait :: rest) { s with inputs := es, hostData := s.readReg .status }
  | pollIdle (rest : List Op) (hp : s.pending = none) :
      Move s es (.wait :: rest) rest { s with inputs := es, hostData := s.readReg .status }

/-- A read of STATUS is a step that gives the reply. -/
theorem step_statusRead {s : State} {es : List Event} (hl : s.params.Legal) (hi : s.inputs = .access Program.statusRead :: es) :
    step s = .next { s with inputs := es, hostData := s.readReg .status } := by
  rw [step_access hl hi, State.hostAccess_statusRead (s := { s with inputs := es }) hl, State.readReg_inputs]

/-- The first event of a run is a step of the model. -/
theorem Program.runsOf_step {ops : List Op} {s : State} {e : Event} {es : List Event} (hl : s.params.Legal) (hi : s.inputs = e :: es)
    (h : RunsOf ops s (e :: es)) : ∃ ops' u, step s = .next u ∧ RunsOf ops' u es ∧ Move s es ops ops' u := by
  cases e with
  | engineTurn =>
    obtain ⟨u, hu, hrest⟩ := runsOf_engineTurn.mp h
    exact ⟨ops, u, (step_engine hl (.inr hi)).trans hu, hrest, .turn hu⟩
  | reset => exact absurd h not_runsOf_reset
  | access a =>
    cases ops with
    | nil => exact h.elim
    | cons op rest =>
      cases op with
      | access b =>
        obtain ⟨rfl, hrest⟩ := runsOf_access.mp h
        exact ⟨rest, _, step_access hl hi, hrest, .access a rest⟩
      | wait =>
        obtain rfl : a = statusRead := h.1
        cases hp : s.pending with
        | none => exact ⟨rest, _, step_statusRead hl hi, (runsOf_wait_idle hl hp).mp h, .pollIdle rest hp⟩
        | some w => exact ⟨.wait :: rest, _, step_statusRead hl hi, (runsOf_wait_busy hl hp).mp h, .pollBusy w rest hp⟩

/-! ### WAIT -/

/-- With nothing left to do for host and engine, a run keeps the block. -/
theorem reachesIn_of_runsOf_nil {s : State} (hl : s.params.Legal) (hp : s.pending = none) (h : Program.RunsOf [] s s.inputs) :
    reachesIn s.inputs.length s { s with inputs := [] } := by
  induction hes : s.inputs generalizing s with
  | nil =>
    have hkeep : { s with inputs := [] } = s := by rw [← hes]
    rw [hkeep]
    exact reachesIn_zero s
  | cons e es ih =>
    obtain ⟨ops, u, hstep, hrest, hmove⟩ := Program.runsOf_step hl hes (hes ▸ h)
    cases hmove with
    | turn hturn =>
      obtain rfl := Host.Outcome.next.inj ((engineTurn_idle (s := { s with inputs := es }) hp).symm.trans hturn)
      exact reachesIn_succ hstep (ih (s := { s with inputs := es }) hl hp hrest rfl)

/-- What a WAIT leaves: the block after the engine's one turn, with STATUS as the reply. -/
def State.AfterWait (s t : State) : Prop :=
  ∃ u, ({ s with inputs := [] } : State).engineTurn = .next u ∧ t = { u with hostData := u.readReg .status }

/-- What the host still has to do and its last reply do not change what a WAIT leaves. -/
theorem State.AfterWait.of_withHost {s t : State} {es : List Event} {d : Word} (h : (s.withHost es d).AfterWait t) :
    s.AfterWait t := by
  obtain ⟨u, hu, rfl⟩ := h
  have hinputs : u.inputs = [] := (engineTurn_frame hu).2.1
  refine ⟨u.withHost [] s.hostData, engineTurn_withHost hu [] s.hostData, ?_⟩
  show { u with hostData := u.readReg .status } = { u with inputs := [], hostData := u.readReg .status }
  rw [← hinputs]

/-- An idle block keeps everything in a WAIT but the reply. -/
theorem State.afterWait_idle {s : State} (hp : s.pending = none) :
    s.AfterWait { s with inputs := [], hostData := s.readReg .status } := ⟨_, engineTurn_idle hp, rfl⟩

/-- After a WAIT the engine is idle and STATUS shows it. -/
theorem State.AfterWait.idle {s t : State} (h : s.AfterWait t) : t.pending = none ∧ (t.readReg .status).toNat % 2 = 0 := by
  obtain ⟨u, hu, rfl⟩ := h
  have hp : u.pending = none := (engineTurn_frame hu).2.2.2
  have hbit : (u.readReg .status).getLsbD 0 = false := by rw [State.status_bit0, State.busy, hp]; rfl
  refine ⟨hp, ?_⟩
  rw [BitVec.getLsbD, Nat.testBit_zero, decide_eq_false_iff_not] at hbit
  have hmod := Nat.mod_two_eq_zero_or_one (u.readReg .status).toNat
  exact hmod.resolve_right hbit

/-- Every whole run of a WAIT leaves what the engine's one turn leaves. -/
theorem reachesIn_of_runsOf_wait {s : State} (hl : s.params.Legal) (h : Program.RunsOf [.wait] s s.inputs) :
    ∃ t, reachesIn s.inputs.length s t ∧ s.AfterWait t := by
  induction hes : s.inputs generalizing s with
  | nil =>
    rw [hes] at h
    cases Program.runsOf_nil.mp h
  | cons e es ih =>
    obtain ⟨ops, u, hstep, hrest, hmove⟩ := Program.runsOf_step hl hes (hes ▸ h)
    cases hmove with
    | turn hturn =>
      obtain ⟨hparams, rfl, -, hp⟩ := engineTurn_frame hturn
      obtain ⟨t, ht, v, hv, rfl⟩ := ih (hparams ▸ hl) hrest rfl
      obtain rfl := Host.Outcome.next.inj ((engineTurn_idle (s := { u with inputs := [] }) hp).symm.trans hv)
      exact ⟨_, reachesIn_succ hstep ht, _, engineTurn_withHost hturn [] s.hostData, rfl⟩
    | pollBusy w rest hp =>
      obtain ⟨t, ht, hafter⟩ := ih (s := { s with inputs := es, hostData := _ }) hl hrest rfl
      exact ⟨t, reachesIn_succ hstep ht, hafter.of_withHost⟩
    | pollIdle rest hp =>
      exact ⟨_, reachesIn_succ hstep (reachesIn_of_runsOf_nil (s := { s with inputs := es, hostData := _ }) hl hp hrest),
        State.afterWait_idle hp⟩

/-- The engine may move before the first read of a WAIT, which then ends with that read. -/
theorem runsOf_promptWait {s : State} {rest : List Program.Op} {es : List Event} (hl : s.params.Legal)
    (hrest : ∀ t : State, t.params.Legal → Program.RunsOf rest t es) :
    Program.RunsOf (.wait :: rest) s (.engineTurn :: .access Program.statusRead :: es) := by
  obtain ⟨u, hu⟩ := engineTurn_answers_next { s with inputs := .access Program.statusRead :: es }
  obtain ⟨hparams, -, -, hidle⟩ := engineTurn_frame hu
  have hlu : u.params.Legal := hparams ▸ hl
  exact Program.runsOf_engineTurn.mpr ⟨u, hu, (Program.runsOf_wait_idle hlu hidle).mpr (hrest _ hlu)⟩

/-- In a busy block a WAIT may read STATUS any number of times before the engine's move. -/
theorem runsOf_wait_polls {s : State} (hl : s.params.Legal) (hp : s.pending ≠ none) (k : Nat) :
    Program.RunsOf [.wait] s (List.replicate k (.access Program.statusRead) ++ [.engineTurn, .access Program.statusRead]) := by
  induction k generalizing s with
  | zero => exact runsOf_promptWait hl fun _ _ => rfl
  | succ k ih =>
    obtain ⟨w, hw⟩ := Option.ne_none_iff_exists'.mp hp
    exact (Program.runsOf_wait_busy hl hw).mpr (ih hl hp)

/-- No number of reads ends a WAIT before the engine's move. -/
theorem not_runsOf_wait_polls {s : State} (hl : s.params.Legal) (hp : s.pending ≠ none) (k : Nat) :
    ¬ Program.RunsOf [.wait] s (List.replicate k (.access Program.statusRead)) := by
  induction k generalizing s with
  | zero => exact nofun
  | succ k ih =>
    obtain ⟨w, hw⟩ := Option.ne_none_iff_exists'.mp hp
    exact mt (Program.runsOf_wait_busy hl hw).mp (ih hl hp)

/-- Settles O59: an induction on the run (`reachesIn_of_runsOf_wait`), and two on the number of reads. -/
theorem waitEndsWithTheCommandFinished : Obligations.WaitEndsWithTheCommandFinished := by
  intro s hl
  refine ⟨fun hrun => ?_, fun hp k => ⟨runsOf_wait_polls hl hp k, not_runsOf_wait_polls hl hp k⟩⟩
  obtain ⟨t, hreach, hafter⟩ := reachesIn_of_runsOf_wait hl hrun
  obtain ⟨u, hu, ht⟩ := hafter
  exact ⟨t, u, hreach, hu, ht, State.AfterWait.idle ⟨u, hu, ht⟩⟩

end Sys2Proof.Machine
end

section
/-! SUPPORT. TICK (30_encoding.md R114): what makes a block ready for the four commands of a frame, why each of them keeps it so, and
the runs of the frame's four CMDWs. -/

namespace Sys2Proof.Machine

open Sys2Proof.Machine.Claims

/-! ### A block ready for a frame -/

/-- No command of a frame can fault: no divisor, sprite or text is in its way. -/
structure State.FrameReady (s : State) : Prop where
  inv : s.Inv
  no_fault : s.faultRec = none
  divisors : ∀ G ∈ s.gens, ¬ zeroDivisor G
  sprites_inside : ∀ S ∈ s.sprites, ¬ spriteOutside s.params S
  text_inside : ¬ textOutside s

/-- The commands of a frame (30_encoding.md R114). -/
def FrameCommand (i : Instr) : Prop := isVideo i ∨ i = .renderAudio

/-- Their words are well-formed: no operand to get wrong. -/
theorem FrameCommand.wf {i : Instr} (h : FrameCommand i) : i.wf = true := by
  obtain (rfl | rfl | rfl) | rfl := h <;> rfl

/-- The divisors of a frame's end are those of its beginning, and no muted generator begins to play in it. -/
theorem zeroDivisor_of_genAt {s : State} {G : Generator} {n : Nat} (h : zeroDivisor (genAt s G n)) : zeroDivisor G := by
  obtain ⟨hplays, hzero⟩ := h
  obtain ⟨-, -, -, hleft, hright⟩ := genAt_frame s G n
  rw [hleft, hright] at hzero
  exact ⟨fun hmuted => hplays ((congrArg Generator.voice (genAt_muted hmuted n)).trans hmuted), hzero⟩

/-- A ready block stays ready in a command that leaves the faults, the sprites and the text alone. -/
theorem State.FrameReady.exec_of_same {s t : State} {i : Instr} (h : s.FrameReady) (he : exec i s = .next t)
    (hfault : t.faultRec = s.faultRec) (hparams : t.params = s.params) (hsprites : t.sprites = s.sprites) (hovl : t.ovl = s.ovl)
    (hgens : ∀ G ∈ t.gens, ¬ zeroDivisor G) : t.FrameReady where
  inv := h.inv.exec he
  no_fault := hfault.trans h.no_fault
  divisors := hgens
  sprites_inside := by rw [hsprites, hparams]; exact h.sprites_inside
  text_inside := by rw [textOutside, hovl, hparams]; exact h.text_inside

/-- Every command of a frame completes in a ready block and leaves it ready. -/
theorem State.FrameReady.exec {s : State} {i : Instr} (h : s.FrameReady) (hi : FrameCommand i) :
    ∃ t, exec i s = .next t ∧ t.FrameReady := by
  obtain (rfl | rfl | rfl) | rfl := hi
  · exact ⟨_, rfl, h.exec_of_same (i := .compositeBg) rfl rfl rfl rfl rfl h.divisors⟩
  · have he := exec_drawSprites_of_inside h.sprites_inside
    exact ⟨_, he, h.exec_of_same he rfl rfl rfl rfl h.divisors⟩
  · have he := exec_drawOverlay_of_inside h.text_inside
    exact ⟨_, he, h.exec_of_same he rfl rfl rfl rfl h.divisors⟩
  · have he := exec_renderAudio_eq_rendered h.divisors
    refine ⟨_, he, h.exec_of_same he rfl rfl rfl rfl fun G hG hzero => ?_⟩
    rw [State.rendered, State.afterRender_gens, State.mixerAt_gens] at hG
    obtain ⟨G₀, hG₀, rfl⟩ := List.mem_map.mp hG
    exact h.divisors G₀ hG₀ (zeroDivisor_of_genAt hzero)

/-- A block that is ready and whose pending command, if any, is one of a frame. -/
structure State.TickReady (s : State) : Prop extends s.FrameReady where
  pending : s.pending = none ∨ ∃ i, FrameCommand i ∧ s.pending = some (encode i)

/-- The engine's turn finishes the command and leaves the block ready. -/
theorem State.TickReady.engineTurn {s t : State} (h : s.TickReady) (ht : s.engineTurn = .next t) : t.TickReady := by
  obtain hp | ⟨i, hi, hp⟩ := h.pending
  · obtain rfl := Host.Outcome.next.inj ((engineTurn_idle hp).symm.trans ht)
    exact h
  · obtain ⟨u, hu, hready⟩ := h.toFrameReady.exec hi
    obtain rfl := Host.Outcome.next.inj ((engineTurn_command hp h.no_fault (decode_encode hi.wf) hu).symm.trans ht)
    exact { hready with inv := { hready.inv with }, pending := .inl rfl }

/-! ### The run of a frame -/

/-- The commands of a frame, in their order. -/
def frameCommands : List Instr := [.compositeBg, .drawSprites, .drawOverlay, .renderAudio]

/-- The CMDWs of a list of commands. -/
def cmdws (cs : List Instr) : List Program.Op := cs.flatMap Program.cmdw

/-- CMDWs begin with an access. -/
theorem wait_ne_cmdws {rest : List Program.Op} : ∀ {cs : List Instr}, Program.Op.wait :: rest ≠ cmdws cs
  | [] => nofun
  | _ :: _ => nofun

/-- What is left of a frame: CMDWs from an idle block on, or the WAIT of one before them. -/
def FrameRest (s : State) (ops : List Program.Op) : Prop :=
  ∃ cs, (∀ i ∈ cs, FrameCommand i) ∧ (ops = cmdws cs ∧ s.pending = none ∨ ops = .wait :: cmdws cs)

/-- What the host still has to do and its last reply do not make a block less ready. -/
theorem State.TickReady.withHost {s : State} (h : s.TickReady) (es : List Event) (d : Word) : (s.withHost es d).TickReady :=
  { h with inv := { h.inv with } }

/-- A CMDW's access latches its command in a ready idle block. -/
theorem State.TickReady.hostAccess_cmdWrite {s : State} (h : s.TickReady) (hp : s.pending = none) {i : Instr} (hi : FrameCommand i) :
    s.hostAccess (Program.cmdWrite i) = { s with pending := some (encode i) } ∧
      ({ s with pending := some (encode i) } : State).TickReady :=
  ⟨(State.hostAccess_cmdWrite h.inv.legal (encode i)).trans (State.writeCmd_idle h.no_fault hp (encode i)),
    { h with inv := { h.inv with }, pending := .inr ⟨i, hi, rfl⟩ }⟩

/-- One event of a frame's run keeps the block ready and leaves the rest of a frame. -/
theorem FrameRest.move {s u : State} {es : List Event} {ops ops' : List Program.Op} (hops : FrameRest s ops) (h : s.TickReady)
    (hmove : Program.Move s es ops ops' u) : u.TickReady ∧ u.inputs = es ∧ FrameRest u ops' := by
  obtain ⟨cs, hcs, hrest⟩ := hops
  cases hmove with
  | turn hturn =>
    obtain ⟨-, hinputs, -, hp⟩ := engineTurn_frame hturn
    exact ⟨(h.withHost es s.hostData).engineTurn hturn, hinputs, cs, hcs, hrest.imp_left fun hidle => ⟨hidle.1, hp⟩⟩
  | access a =>
    obtain ⟨hcmdws, hp⟩ | hwait := hrest
    case inr => cases hwait
    cases cs with
    | nil => cases hcmdws
    | cons c cs =>
      cases hcmdws
      obtain ⟨hlatch, hready⟩ := (h.withHost es s.hostData).hostAccess_cmdWrite hp (hcs c List.mem_cons_self)
      exact ⟨hlatch ▸ hready, congrArg State.inputs hlatch, cs, fun i hi => hcs i (List.mem_cons_of_mem c hi), .inr rfl⟩
  | pollBusy w rest hp =>
    have hwait := hrest.resolve_left fun hidle => wait_ne_cmdws hidle.1
    exact ⟨h.withHost es _, rfl, cs, hcs, .inr hwait⟩
  | pollIdle rest hp =>
    have hwait := hrest.resolve_left fun hidle => wait_ne_cmdws hidle.1
    exact ⟨h.withHost es _, rfl, cs, hcs, .inl ⟨(List.cons.inj hwait).2, hp⟩⟩

/-- Every run of what is left of a frame ends well. -/
theorem endsWell_of_runsOf {s : State} {ops : List Program.Op} (h : s.TickReady) (hops : FrameRest s ops)
    (hrun : Program.RunsOf ops s s.inputs) : endsWell s.inputs.length s := by
  induction hes : s.inputs generalizing s ops with
  | nil =>
    rw [hes] at hrun
    obtain rfl := Program.runsOf_nil.mp hrun
    obtain ⟨cs, -, ⟨-, hp⟩ | hwait⟩ := hops
    · exact ⟨s, reachesIn_zero s, hes, by rw [State.busy, hp]; rfl, by rw [State.faulted, h.no_fault]; rfl⟩
    · cases hwait
  | cons e es ih =>
    obtain ⟨ops', u, hstep, hrest, hmove⟩ := Program.runsOf_step h.inv.legal hes (hes ▸ hrun)
    obtain ⟨hready, rfl, hops'⟩ := hops.move h hmove
    obtain ⟨t, ht, hgood⟩ := ih hready hops' hrest rfl
    exact ⟨t, reachesIn_succ hstep ht, hgood⟩

/-- The engine may always move before the first read of each WAIT. -/
theorem runsOf_promptRun (cs : List Instr) {s : State} (hl : s.params.Legal) :
    Program.RunsOf (cmdws cs) s (Program.promptRun (cmdws cs)) := by
  induction cs generalizing s with
  | nil => exact Program.runsOf_nil.mpr rfl
  | cons c cs ih =>
    refine Program.runsOf_access.mpr ⟨rfl, ?_⟩
    refine runsOf_promptWait ?_ fun t ht => ih ht
    rwa [State.hostAccess_params]

/-- Settles O57: every event of the run keeps the block ready for the rest of the frame (`FrameRest.move`). -/
theorem tickEndsWell : Obligations.TickEndsWell := by
  intro s hinv hp hfault hdiv hsprites htext
  have hready : s.TickReady := ⟨⟨hinv, hfault, hdiv, hsprites, htext⟩, .inl hp⟩
  have hframe : FrameRest s Program.tick :=
    ⟨frameCommands, by simp [frameCommands, FrameCommand, isVideo], .inl ⟨rfl, hp⟩⟩
  have hprompt : Program.RunsOf Program.tick s (Program.promptRun Program.tick) :=
    runsOf_promptRun frameCommands hinv.legal
  refine ⟨endsWell_of_runsOf hready hframe, hprompt, fun hinputs => ?_⟩
  have hend := endsWell_of_runsOf hready hframe (hinputs ▸ hprompt)
  rwa [hinputs] at hend

end Sys2Proof.Machine
end
